-- ==== Sys2Proof/Word.lean ====
section
/-! DEFINITION. The words of the block: bytes, bits, 16- and 32-bit registers, and the exact sample values.

A sample is an exact real number (rule R12), held as plain data: a list of cosine terms. Every angle a rule of the block
uses is a whole number of 1/88200 turns (`2π·F·n/44100` is `2·F·n` of them, a PSK phase `2π·m/8` is `11025·m` of them),
so a term is a rational amplitude and a whole number of such arcs. A term at arc 0 is the rational number itself.
The samples of the host's window may be any real numbers; a number that is none of these sums stands in a term by its
index among the open reals of Config.lean, of which nothing is known (log entry 4).
The real number a sample stands for is `Sample.toReal` of Machine/RealValue.lean. -/

namespace Sys2Proof

/-- An 8-bit value: an element of `IB`, `OB`, `PKTBUF`, a magnitude of `SPEC` (rule R60). -/
abbrev Byte := BitVec 8

/-- A 16-bit register (rule R38). -/
abbrev Half := BitVec 16

/-- A 32-bit register (rule R38), and a command word (rule R80). -/
abbrev Word := BitVec 32

/-- An element of `TXBITS`, `RXBITS`, `STREAM[c]`: `true` is the bit 1 (rule R60). -/
abbrev Bit := Bool

/-- The number a bit stands for. -/
def bitNat (b : Bit) : Nat := if b then 1 else 0

/-- The number of arcs in one turn: `lcm(44100, 8)`. -/
def turnArcs : Nat := 88200

/-- One term: the real number `amp * cos(2π * arc / 88200)`, times the open reals with the indices `opens`. -/
structure Tone where
  amp : Rat
  arc : Nat
  opens : List Nat
  deriving DecidableEq, Repr

/-- An exact sample: the sum of its terms; the empty list is 0 (log entry 4). -/
abbrev Sample := List Tone

end Sys2Proof
end

