-- ==== Sys2Proof/Config.lean ====
section
/-! DEFINITION. The fixed constants of rule R5 and the open parameters of rule R7.

The open parameters a block was built with are gathered in `Params`. Rule R20 makes them parameters of the step, not
architectural state; the model hands them to the step in a field of State that no command writes, so a statement about
every state is a statement about every choice of them (log entry 2). Where the spec names a reference value the
parameters at reset take it; where it names none they are opaque constants of this file. -/

namespace Sys2Proof.Config

/-- `FS`, hertz. -/
def fs : Nat := 44100
/-- `FFT_SIZE`. -/
def fftSize : Nat := 8192
/-- `NUM_BINS`: the length of `SPEC`. -/
def numBins : Nat := 4096
/-- `FSK_DEV`, hertz. -/
def fskDev : Nat := 100
/-- `FREQ_MIN`, hertz. -/
def freqMin : Nat := 2000
/-- `FREQ_MAX`, hertz. -/
def freqMax : Nat := 10000
/-- `SIGNAL_THRESHOLD`, the default. -/
def signalThreshold : Half := 80
/-- `TARGET_SNR`, decibels. -/
def targetSnr : Rat := 15
/-- The SNR dead band, decibels. -/
def snrDeadBand : Rat := 2
/-- The power step up, 11/10. -/
def stepUp : Rat := { num := 11, den := 10, den_nz := by decide, reduced := by decide }
/-- The power step down, 9/10. -/
def stepDown : Rat := { num := 9, den := 10, den_nz := by decide, reduced := by decide }
/-- The fixed power when adaptive power is disabled, 1/10. -/
def fixedPower : Rat := { num := 1, den := 10, den_nz := by decide, reduced := by decide }
/-- The LZ77 window, bytes before the cursor. -/
def lzWindow : Nat := 4096
/-- The LZ77 lookahead, bytes. -/
def lzLookahead : Nat := 18
/-- The LZ77 minimum match, bytes. -/
def lzMinMatch : Nat := 3
/-- The LZ77 marker byte. -/
def lzMarker : Byte := 0xFF
/-- The reflected CRC polynomial. -/
def crcPoly : Half := 0xA001
/-- The initial CRC value. -/
def crcInit : Half := 0xFFFF
/-- The sync pattern that opens a frame, `10101010`. -/
def syncPattern : List Bit := [true, false, true, false, true, false, true, false]
/-- The pattern that closes a frame, `01010101`. -/
def suffixPattern : List Bit := [false, true, false, true, false, true, false, true]
/-- Hunting trims when `RXBITS` is longer than this. -/
def huntLimit : Nat := 1000
/-- The bits Hunting keeps when it trims. -/
def huntKeep : Nat := 100
/-- `PKTBUF` overflows when longer than this. -/
def packetLimit : Nat := 5000
/-- A packet with a tag is delivered only when longer than this. -/
def tagMinLength : Nat := 10
/-- A preamble chord, milliseconds. -/
def chordMs : Nat := 150
/-- The silence between two preamble chords, milliseconds. -/
def gapMs : Nat := 50
/-- Lengths of this many elements or more are refused (decision D30). -/
def lengthLimit : Nat := 2 ^ 32

/-! ## Open parameters (rule R7) -/

/-- `MIN_POWER` before its constraint; no value is given anywhere (log entry 2). -/
opaque anyMinPower : Rat
/-- `MAX_POWER` before its constraint; no value is given anywhere (log entry 2). -/
opaque anyMaxPower : Rat
/-- An output quantiser `Q` other than the identity, one for each index (rule R176, log entry 5). -/
opaque anyQuantiser : Nat → Sample → Sample
/-- A predicate `record_terminated(buf, q)` other than the default, one for each index (rule R237, log entry 6). -/
opaque anyTerminator : Nat → List Byte → Nat → Bool

/-- The whole part of each open real; no value of it is known (rules R12, R44, R214, log entry 4). -/
opaque openWhole : Nat → Int
/-- The binary digits of each open real after the point, the first one for 1/2; no digit is known (log entry 4). -/
opaque openDigit : Nat → Nat → Bool

/-- `MIN_POWER`: any rational with `0 < MIN_POWER <= 1/10`, and nothing more is known of it. -/
def minPower : Rat := if 0 < anyMinPower ∧ anyMinPower ≤ fixedPower then anyMinPower else fixedPower
/-- `MAX_POWER`: any rational with `1/10 <= MAX_POWER`, and nothing more is known of it. -/
def maxPower : Rat := if fixedPower ≤ anyMaxPower then anyMaxPower else fixedPower

/-- The output quantiser `Q` of rule R176: the identity, "the reference for the vectors", or any other function. -/
inductive Quantiser where
  | identity
  | other (index : Nat)
  deriving DecidableEq, Repr

/-- The parameter `record_terminated` of rule R237: the default (a byte 0x55 after the tag) or any other predicate. -/
inductive Terminator where
  | suffixByte
  | other (index : Nat)
  deriving DecidableEq, Repr

/-- The capacity of a buffer in elements: a natural, or `none` where it is unbounded (rules R7, R40). -/
abbrev Capacity := Option Nat

/-- The buffer capacities (rules R7, R40, log entry 3). `SPEC` and `DEC` have a fixed size, and `PKTBUF` has the bound of
rule R238, so they have none. -/
structure Capacities where
  ib : Capacity
  ob : Capacity
  txBits : Capacity
  /-- Of each `STREAM[c]`. -/
  stream : Capacity
  /-- Of each `SYMS[c]`. -/
  syms : Capacity
  samples : Capacity
  win : Capacity
  rxBits : Capacity
  pktQ : Capacity
  deriving DecidableEq, Repr

/-- The default of rule R40: every buffer is unbounded. -/
def Capacities.unbounded : Capacities where
  ib := none
  ob := none
  txBits := none
  stream := none
  syms := none
  samples := none
  win := none
  rxBits := none
  pktQ := none

/-- The open parameters of rule R7. `PSK_MIN_AMPL` is a real number, held as a sample is. -/
structure Params where
  minPower : Rat
  maxPower : Rat
  quantiser : Quantiser
  pskMinAmpl : Sample
  terminator : Terminator
  capacities : Capacities
  deriving DecidableEq, Repr

/-- The parameters at reset: the spec's reference values (identity `Q`, the default terminator, `PSK_MIN_AMPL = 1/1000`
as in 95_test_vectors.md, unbounded buffers) where it names one, and the unknown `minPower`, `maxPower` where it names
none. The constraints of rule R7 are `Params.ok` of Machine/RealValue.lean. -/
def Params.reference : Params where
  minPower := Config.minPower
  maxPower := Config.maxPower
  quantiser := .identity
  pskMinAmpl := [⟨{ num := 1, den := 1000, den_nz := by decide, reduced := by decide }, 0, []⟩]
  terminator := .suffixByte
  capacities := .unbounded

end Sys2Proof.Config
end

