-- ==== Sys2Proof/Syntax.lean ====
section
/-! DEFINITION. The instructions: one constructor per row of spec/opcode_table.json.

The first twenty-one are the command words of rule R81. The last four are the items of a compressed stream (rules R86 to
R89), which the LZ77 decoder reads from `IB` one after another. -/

namespace Sys2Proof

/-- One row of the opcode table with its operands. -/
inductive Instr where
  /-- `NOP`, rule R111. -/
  | nop
  /-- `RESET`, rule R112. -/
  | reset
  /-- `CSRW a, imm`, rule R113. -/
  | csrw (a : Byte) (imm : Half)
  /-- `CSRR a`, rule R114. -/
  | csrr (a : Byte)
  /-- `LDCAL imm`, rule R115. -/
  | ldcal (imm : Half)
  /-- `CRC.INIT`, rule R132. -/
  | crcInit
  /-- `CRC.STEP imm`, rule R133. -/
  | crcStep (b : Byte)
  /-- `CRC.BUF`, rule R134. -/
  | crcBuf
  /-- `SUM.BUF`, rule R136. -/
  | sumBuf
  /-- `LZ.ENC`, rule R139. -/
  | lzEnc
  /-- `LZ.DEC`, rule R141. -/
  | lzDec
  /-- `ILV`, rule R161. -/
  | ilv
  /-- `SYMB`, rule R163. -/
  | symb
  /-- `MOD.SLOT`, rule R169. -/
  | modSlot
  /-- `MOD.PRE`, rule R175. -/
  | modPre
  /-- `PWR.UPD`, rule R186. -/
  | pwrUpd
  /-- `DEM.TICK`, rule R205. -/
  | demTick
  /-- `DEM.IQ`, rule R215. -/
  | demIq
  /-- `SYNC.STEP`, rule R239. -/
  | syncStep
  /-- `SYNC.RST`, rule R241. -/
  | syncRst
  /-- `FRAME`, rule R261. -/
  | frame
  /-- `LZ.HEADER`: the original length, rule R86. -/
  | lzHeader (n : Word)
  /-- `LZ.LITERAL`: one byte other than 0xFF, rule R87. -/
  | lzLiteral (b : Byte)
  /-- `LZ.MATCH`: a distance other than 0 and a length, rule R88. -/
  | lzMatch (d : Half) (l : Byte)
  /-- `LZ.ESCAPE`: one literal byte 0xFF, rule R89. -/
  | lzEscape
  deriving DecidableEq, Repr

/-- The items of a compressed stream by themselves, so that the decoder's loop matches four cases. -/
inductive LzItem where
  | header (n : Word)
  | literal (b : Byte)
  | copy (d : Half) (l : Byte)
  | escape
  deriving DecidableEq, Repr

/-- The row of the opcode table an item is. -/
def LzItem.toInstr : LzItem → Instr
  | .header n => .lzHeader n
  | .literal b => .lzLiteral b
  | .copy d l => .lzMatch d l
  | .escape => .lzEscape

end Sys2Proof
end

