-- ==== Sys2Proof/WellFormed.lean ====
section
/-! DEFINITION. Which instructions the encodings of the spec can express.

The widths of the operands are in the types. Two rows of the table say more: a literal token is any byte but the marker
(rule R87), and the distance of a match is not 0 (rules R88, R89). A register number that no register has is a well-formed
operand: `CSRW 0x20, 0` decodes and then ends with `IllegalCommand` (rule R113). -/

namespace Sys2Proof

/-- The instruction is one the encodings of the spec can express. -/
def Instr.wellFormed : Instr → Bool
  | .nop => true
  | .reset => true
  | .csrw _ _ => true
  | .csrr _ => true
  | .ldcal _ => true
  | .crcInit => true
  | .crcStep _ => true
  | .crcBuf => true
  | .sumBuf => true
  | .lzEnc => true
  | .lzDec => true
  | .ilv => true
  | .symb => true
  | .modSlot => true
  | .modPre => true
  | .pwrUpd => true
  | .demTick => true
  | .demIq => true
  | .syncStep => true
  | .syncRst => true
  | .frame => true
  | .lzHeader _ => true
  | .lzLiteral b => b != Config.lzMarker
  | .lzMatch d _ => d != 0
  | .lzEscape => true

/-- The item is one the token encodings can express. -/
def LzItem.wellFormed (it : LzItem) : Bool := it.toInstr.wellFormed

end Sys2Proof
end

