-- ==== Sys2Proof/Decode.lean ====
section
/-! DEFINITION. Decoding and encoding: command words (rules R80 to R82) and the items of a compressed stream (R86 to R89).

The block reads two kinds of code. A command word is one 32-bit number the host presents whole; it has no byte order. A
compressed stream is bytes: a header first, then tokens. Every decoder is total and rejects by name. -/

namespace Sys2Proof

/-- Why a code is rejected. -/
inductive DecodeError where
  /-- No row of rule R81 has this `op` (rule R82). -/
  | unknownOpcode
  /-- A field that rule R81 requires to be 0 is not (rule R82). -/
  | reservedField
  /-- A stream shorter than its 4-byte header (rule R140, `header`). -/
  | shortHeader
  /-- No byte is left where a token must stand (rule R140, `exhausted`). -/
  | exhausted
  /-- A marker without its three bytes (rule R140, `truncated_token`). -/
  | truncatedToken
  /-- `FF 00 00 l` with `l` other than 1 (rule R89; R140, `bad_escape`). -/
  | badEscape
  /-- Bytes are left after the one item a code holds. -/
  | trailingBytes
  deriving DecidableEq, Repr

/-- One instruction's code as the block meets it. -/
inductive Code where
  /-- A command word. -/
  | command (w : Word)
  /-- The first four bytes of a compressed stream. -/
  | header (bytes : List Byte)
  /-- One token of a compressed stream. -/
  | token (bytes : List Byte)
  deriving DecidableEq, Repr

/-! ## Command words -/

/-- The field `op`, bits 31:24 (rule R80). -/
def opField (w : Word) : Byte := w.extractLsb' 24 8
/-- The field `a`, bits 23:16 (rule R80). -/
def aField (w : Word) : Byte := w.extractLsb' 16 8
/-- The field `imm`, bits 15:0 (rule R80). -/
def immField (w : Word) : Half := w.extractLsb' 0 16

/-- `i`, where the fields that must be 0 are (rule R82). -/
def reservedZero (fieldsZero : Bool) (i : Instr) : Except DecodeError Instr :=
  if fieldsZero then .ok i else .error .reservedField

/-- `i`, for a command that takes no operand. -/
def bare (w : Word) (i : Instr) : Except DecodeError Instr :=
  reservedZero (aField w == 0 && immField w == 0) i

/-- Decodes a command word (rules R80 to R82). -/
def decodeCommand (w : Word) : Except DecodeError Instr :=
  match (opField w).toNat with
  | 0x00 => bare w .nop
  | 0x01 => bare w .reset
  | 0x02 => .ok (.csrw (aField w) (immField w))
  | 0x03 => reservedZero (immField w == 0) (.csrr (aField w))
  | 0x04 => reservedZero (aField w == 0) (.ldcal (immField w))
  | 0x10 => bare w .crcInit
  | 0x11 => reservedZero (aField w == 0 && w.extractLsb' 8 8 == 0#8) (.crcStep (w.extractLsb' 0 8))
  | 0x12 => bare w .crcBuf
  | 0x13 => bare w .sumBuf
  | 0x14 => bare w .lzEnc
  | 0x15 => bare w .lzDec
  | 0x20 => bare w .ilv
  | 0x21 => bare w .symb
  | 0x22 => bare w .modSlot
  | 0x23 => bare w .modPre
  | 0x24 => bare w .pwrUpd
  | 0x30 => bare w .demTick
  | 0x31 => bare w .demIq
  | 0x40 => bare w .syncStep
  | 0x41 => bare w .syncRst
  | 0x50 => bare w .frame
  | _ => .error .unknownOpcode

/-! ## Compressed streams -/

/-- Reads the header: the 4-byte big-endian original length (rule R86), and the bytes after it. -/
def decodeHeader : List Byte → Except DecodeError (LzItem × List Byte)
  | b0 :: b1 :: b2 :: b3 :: rest => .ok (.header (b0 ++ b1 ++ b2 ++ b3), rest)
  | _ => .error .shortHeader

/-- Reads the three bytes after a marker (rules R88, R89), and the bytes after them. -/
def decodeMarked : List Byte → Except DecodeError (LzItem × List Byte)
  | hi :: lo :: l :: rest =>
    if hi ++ lo = (0 : Half) then
      if l = 1 then .ok (.escape, rest) else .error .badEscape
    else .ok (.copy (hi ++ lo) l, rest)
  | _ => .error .truncatedToken

/-- Reads one token (rules R87 to R89, R98), and the bytes after it. -/
def decodeToken : List Byte → Except DecodeError (LzItem × List Byte)
  | [] => .error .exhausted
  | b :: rest => if b = Config.lzMarker then decodeMarked rest else .ok (.literal b, rest)

/-- The item of a code that holds exactly one. -/
def wholeItem : Except DecodeError (LzItem × List Byte) → Except DecodeError Instr
  | .ok (it, []) => .ok it.toInstr
  | .ok (_, _ :: _) => .error .trailingBytes
  | .error e => .error e

/-- Decodes one instruction's code. -/
def decode : Code → Except DecodeError Instr
  | .command w => decodeCommand w
  | .header bytes => wholeItem (decodeHeader bytes)
  | .token bytes => wholeItem (decodeToken bytes)

/-! ## Encoding -/

/-- The command word with the given fields (rule R80). -/
def commandWord (op a : Byte) (imm : Half) : Word := op ++ a ++ imm

/-- The code of an operandless command. -/
def bareCode (op : Byte) : Code := .command (commandWord op 0 0)

/-- The bytes of a 32-bit length, most significant first (rules R62, R86). -/
def be32 (n : Word) : List Byte :=
  [n.extractLsb' 24 8, n.extractLsb' 16 8, n.extractLsb' 8 8, n.extractLsb' 0 8]

/-- The bytes of an item (rules R86 to R89). -/
def LzItem.bytes : LzItem → List Byte
  | .header n => be32 n
  | .literal b => [b]
  | .copy d l => [Config.lzMarker, d.extractLsb' 8 8, d.extractLsb' 0 8, l]
  | .escape => [Config.lzMarker, 0, 0, 1]

/-- The code of an instruction (rules R81, R86 to R89). -/
def encode : Instr → Code
  | .nop => bareCode 0x00
  | .reset => bareCode 0x01
  | .csrw a imm => .command (commandWord 0x02 a imm)
  | .csrr a => .command (commandWord 0x03 a 0)
  | .ldcal imm => .command (commandWord 0x04 0 imm)
  | .crcInit => bareCode 0x10
  | .crcStep b => .command (commandWord 0x11 0 (b.setWidth 16))
  | .crcBuf => bareCode 0x12
  | .sumBuf => bareCode 0x13
  | .lzEnc => bareCode 0x14
  | .lzDec => bareCode 0x15
  | .ilv => bareCode 0x20
  | .symb => bareCode 0x21
  | .modSlot => bareCode 0x22
  | .modPre => bareCode 0x23
  | .pwrUpd => bareCode 0x24
  | .demTick => bareCode 0x30
  | .demIq => bareCode 0x31
  | .syncStep => bareCode 0x40
  | .syncRst => bareCode 0x41
  | .frame => bareCode 0x50
  | .lzHeader n => .header (LzItem.header n).bytes
  | .lzLiteral b => .token (LzItem.literal b).bytes
  | .lzMatch d l => .token (LzItem.copy d l).bytes
  | .lzEscape => .token LzItem.escape.bytes

/-! ## The opcode table's numbering

A command row is one 32-bit number. The table reads a token row the same way, its first byte in the highest bits
(`LZ.MATCH` has 0xFF in bits 31:24), so the bytes of a token are those of the number, most significant first. No
command has `op` 0xFF, so a 32-bit word is a command or a token, never both. `LZ.HEADER` has no fixed bit: where a stream
begins is known from the place alone, so no word of the table's numbering reads as a header here (log entry 8). -/

/-- The bytes of the `nbits`-bit number `w`, most significant first. -/
def tableBytes (nbits w : Nat) : List Byte :=
  (List.range (nbits / 8)).map fun k => BitVec.ofNat 8 (w / 256 ^ (nbits / 8 - 1 - k))

/-- The token that the table's number is, where it is one that fills its `nbits` bits exactly. -/
def tableToken (nbits w : Nat) : Option LzItem :=
  match decodeToken (tableBytes nbits w) with
  | .ok (it, []) => some it
  | _ => none

/-- The instruction the decoder reads from a row's `nbits`-bit number `w`. -/
def decodeTableWord (nbits w : Nat) : Option Instr :=
  match tableToken nbits w with
  | some it => some it.toInstr
  | none =>
    match decodeCommand (BitVec.ofNat 32 w) with
    | .ok i => if nbits ≤ 32 ∧ w < 2 ^ 32 then some i else none
    | .error _ => none

end Sys2Proof
end

