-- ==== Sys2Proof/Machine/State.lean ====
section
/-! DEFINITION. The state of the block: everything rule R20 lists, as plain data, and three fields of the model's own
(`params`, `host`, `lzRun`). The reset state is rule R48's table. -/

namespace Sys2Proof.Machine

/-! ## Result codes, registers, the synchronizer's states -/

/-- The result codes of rule R282. -/
inductive ResultCode where
  | ok
  | illegalCommand
  | configError
  | noViableBand
  | corruptStream
  | bufferOverflow
  | idle
  | rangeError
  deriving DecidableEq, Repr

/-- The control and status registers of rule R38, by name. -/
inductive Csr where
  | numChannels
  | channelSpacingHz
  | symbolDurationMs
  | bitsPerSymbol
  | useBinaryPayload
  | signalThreshold
  | adaptivePowerEn
  | status
  | err
  | result
  | crc
  | sum
  | slotIdx
  | numSlots
  | rdata
  | samplesPerSlot
  | carrier (c : Fin 16)
  deriving DecidableEq, Repr

/-- `SYNC_STATE` (rule R46). -/
inductive SyncState where
  | hunting
  | framed
  deriving DecidableEq, Repr

/-- `DEC[c]` (rule R45): `none` is `silent`, `some m` the symbol `m`. -/
abbrev Decision := Option Nat

/-! ## The spectrum's cells

`SPEC` is the one fixed-size address space of the block: 4096 cells of one byte (rule R44). It is held as the list of its
non-zero cells, the bins strictly rising; a bin the list does not name reads as 0, which is the reset content (rule R48). -/

/-- The cells of `SPEC`. -/
abbrev Memory := List Host.Cell

/-! ## What stands outside the block -/

/-- What the host, or the reset input, does next: one of the moves of rules R14, R68 and R310. -/
inductive HostMove where
  /-- Issue a command word. -/
  | command (w : Word)
  /-- Pulse the hardware reset input (rule R310). -/
  | resetInput
  /-- Replace the content of `IB`. -/
  | putIb (bytes : List Byte)
  /-- Replace the content of `TXBITS`. -/
  | putTxBits (bits : List Bit)
  /-- Replace the content of `WIN`. -/
  | putWin (samples : List Sample)
  /-- Replace `SPEC` with 4096 magnitudes, bin 0 first. -/
  | putSpec (magnitudes : List Byte)
  /-- Write `SNR_IN`. -/
  | setSnrIn (q : Rat)
  /-- Append bits to `RXBITS`. -/
  | appendRxBits (bits : List Bit)
  /-- Remove samples from the front of `SAMPLES`. -/
  | takeSamples (n : Nat)
  /-- Remove packets from the front of `PKTQ`. -/
  | takePktQ (n : Nat)
  deriving DecidableEq, Repr

/-- Where an LZ77 decoder stands between two items of its stream: the working registers of rule R47. -/
inductive LzRun where
  /-- Before the header; `input` is the whole stream. -/
  | atHeader (input : List Byte)
  /-- After the header: the declared length, the bytes written so far, and the input not read yet. -/
  | inBody (declared : Word) (out : List Byte) (input : List Byte)
  deriving DecidableEq, Repr

/-! ## The state -/

/-- The state of the block. -/
structure State where
  /-- `NUM_CHANNELS`, 0x00 (rule R24). -/
  numChannels : Half
  /-- `CHANNEL_SPACING_HZ`, 0x01 (rule R25). -/
  channelSpacingHz : Half
  /-- `SYMBOL_DURATION_MS`, 0x02 (rule R26). -/
  symbolDurationMs : Half
  /-- `BITS_PER_SYMBOL`, 0x03 (rule R27). -/
  bitsPerSymbol : Half
  /-- `USE_BINARY_PAYLOAD`, 0x04 (rule R28). -/
  useBinaryPayload : Half
  /-- `SIGNAL_THRESHOLD`, 0x05 (rule R29). -/
  signalThreshold : Half
  /-- `ADAPTIVE_POWER_EN`, 0x06 (rule R30). -/
  adaptivePowerEn : Half
  /-- `STATUS.CAL_VALID` (rule R31); `SYNC_FRAMED` and `PKT_AVAIL` are read off `syncState` and `pktQ`. -/
  calValid : Bool
  /-- `STATUS.ILV_VALID` (rule R31). -/
  ilvValid : Bool
  /-- `STATUS.SYM_VALID` (rule R31). -/
  symValid : Bool
  /-- `STATUS.SLOT_YIELDED` (rule R31). -/
  slotYielded : Bool
  /-- `ERR`, 0x08 (rule R32). -/
  err : Half
  /-- `RESULT`, 0x09 (rule R33). -/
  result : Half
  /-- `CRC`, 0x0A (rules R22, R34). -/
  crc : Half
  /-- `SUM`, 0x0B (rules R22, R34). -/
  sum : Half
  /-- `SLOT_IDX`, 0x0C (rule R35). -/
  slotIdx : Word
  /-- `NUM_SLOTS`, 0x0D (rule R35). -/
  numSlots : Word
  /-- `RDATA`, 0x0E (rule R36). -/
  rdata : Word
  /-- `CARRIER[0..15]`, 0x10 to 0x1F (rules R21, R37). -/
  carrier : Vector Half 16
  /-- `POWER` (rule R22). -/
  power : Rat
  /-- `SNR_IN`, decibels (rule R22). -/
  snrIn : Rat
  /-- `IB` (rule R41). -/
  ib : List Byte
  /-- `OB` (rule R41). -/
  ob : List Byte
  /-- `TXBITS` (rule R42). -/
  txBits : List Bit
  /-- `STREAM[0..15]` (rule R42). -/
  stream : Vector (List Bit) 16
  /-- `SYMS[0..15]` (rule R42). -/
  syms : Vector (List Nat) 16
  /-- `SAMPLES` (rule R43). -/
  samples : List Sample
  /-- `SPEC` (rule R44). -/
  spec : Memory
  /-- `WIN` (rule R44). -/
  win : List Sample
  /-- `DEC[0..15]` (rule R45). -/
  dec : Vector Decision 16
  /-- `SYNC_STATE` (rule R46). -/
  syncState : SyncState
  /-- `RXBITS` (rule R46). -/
  rxBits : List Bit
  /-- `PKTBUF` (rule R46). -/
  pktBuf : List Byte
  /-- `PKTQ`, oldest first (rule R46). -/
  pktQ : List (List Byte)
  /-- The model's own: the open parameters the block was built with (rule R7, log entry 2). -/
  params : Config.Params
  /-- The model's own: the moves the host has still to make, the next one first (rule R14, log entry 1). -/
  host : List HostMove
  /-- The model's own: a compressed stream that is being run item by item (rule R47, log entry 8). -/
  lzRun : Option LzRun
  deriving DecidableEq, Repr

/-- The state right after reset: the table of rule R48. -/
def State.reset : State where
  numChannels := 0
  channelSpacingHz := 0
  symbolDurationMs := 0
  bitsPerSymbol := 0
  useBinaryPayload := 0
  signalThreshold := 80
  adaptivePowerEn := 0
  calValid := false
  ilvValid := false
  symValid := false
  slotYielded := false
  err := 0
  result := 0
  crc := 0xFFFF
  sum := 0
  slotIdx := 0
  numSlots := 0
  rdata := 0
  carrier := Vector.replicate 16 0
  power := { num := 1, den := 10, den_nz := by decide, reduced := by decide }
  snrIn := 15
  ib := []
  ob := []
  txBits := []
  stream := Vector.replicate 16 []
  syms := Vector.replicate 16 []
  samples := []
  spec := []
  win := []
  dec := Vector.replicate 16 none
  syncState := .hunting
  rxBits := []
  pktBuf := []
  pktQ := []
  params := Config.Params.reference
  host := []
  lzRun := none

/-! ## Why a step can stop

No error of the block stops it (rule R281): an error is a result code in a next state. The faults below are accesses to
an element that the rules say does not exist, in states that no run reaches (the invariant of Safety.lean rules them out);
the refusals are moves that are not the machine's. -/

/-- Accesses outside a buffer. -/
inductive Fault where
  /-- Raised by `DEM.TICK` when a tone of channel `c` has no bin in `SPEC` (rules R60, R118, R201). Safe: the step stops
  where no run of the hardware comes. -/
  | noSuchBin (c : Fin 16)
  /-- Raised by `MOD.SLOT` when `SYMS[c]` has no element `SLOT_IDX` (rules R60, R118, R169). Safe: the step stops where
  no run of the hardware comes. -/
  | noSuchSymbol (c : Fin 16)
  deriving DecidableEq, Repr

/-- Moves that are not the machine's. -/
inductive Refusal where
  /-- Raised by `exec` for an instruction that has no meaning yet; no instruction is left. Safe. -/
  | notModelled (mnemonic : String)
  /-- Raised by the host's write of a spectrum that is not 4096 magnitudes, or of more elements than a buffer of finite
  capacity can hold: "A host write outside this table is not a move the model has" (rule R68, I26). Safe. -/
  | notAHostMove
  deriving DecidableEq, Repr

/-- One step's outcome. -/
abbrev Outcome := Host.Outcome State Fault Refusal

end Sys2Proof.Machine
end

