-- ==== Sys2Proof/Machine/Flags.lean ====
section
/-! DEFINITION. Result codes and their sticky bits (rules R32, R282), the status word (rule R31) and the updates of its
flags. -/

namespace Sys2Proof.Machine

/-! ## Result codes -/

/-- The number of a result code (rule R282). -/
def ResultCode.number : ResultCode → Nat
  | .ok => 0
  | .illegalCommand => 1
  | .configError => 2
  | .noViableBand => 3
  | .corruptStream => 4
  | .bufferOverflow => 5
  | .idle => 6
  | .rangeError => 7

/-- A code that is an error: every one but `OK` and `Idle` (rule R282). -/
def ResultCode.isError : ResultCode → Bool
  | .ok => false
  | .illegalCommand => true
  | .configError => true
  | .noViableBand => true
  | .corruptStream => true
  | .bufferOverflow => true
  | .idle => false
  | .rangeError => true

/-- The value `RESULT` holds after a command that ended with this code (rule R33). -/
def ResultCode.word (c : ResultCode) : Half := BitVec.ofNat 16 c.number

/-- The bit of `ERR` that this code sets; none for `OK` and `Idle` (rule R32). -/
def ResultCode.errBit (c : ResultCode) : Half := if c.isError then 1 <<< c.number else 0

/-! ## The status word -/

/-- One bit of a 16-bit word. -/
def flagBit (on : Bool) (position : Nat) : Half := if on then 1 <<< position else 0

/-- `STATUS` as it reads (rule R31): `SYNC_FRAMED` follows `SYNC_STATE`, `PKT_AVAIL` follows `PKTQ`, bits 15:6 read as 0. -/
def State.statusWord (s : State) : Half :=
  flagBit (s.syncState == .framed) 0 ||| flagBit s.calValid 1 ||| flagBit s.ilvValid 2 |||
    flagBit s.symValid 3 ||| flagBit (!s.pktQ.isEmpty) 4 ||| flagBit s.slotYielded 5

/-- What a successful write to a register that shapes the signal does to the flags and the slot counters (rule R113). -/
def State.invalidateProfile (s : State) : State :=
  { s with calValid := false, ilvValid := false, symValid := false, slotIdx := 0, numSlots := 0 }

end Sys2Proof.Machine
end

