-- ==== Sys2Proof/Machine/Operands.lean ====
section
/-! DEFINITION. The operands the commands read off the registers: `N`, `K`, `Ns`, the power, the active channels. -/

namespace Sys2Proof.Machine

/-- `ceil(a / b)` for `b > 0` (rule R13). -/
def ceilDiv (a b : Nat) : Nat := (a + b - 1) / b

/-- `N`, the number of channels (rule R24). -/
def State.n (s : State) : Nat := s.numChannels.toNat

/-- `K`, the bits of a symbol (rule R27). -/
def State.k (s : State) : Nat := s.bitsPerSymbol.toNat

/-- `ProfileOK` (rule R39). -/
def State.profileOk (s : State) : Bool :=
  s.numChannels != 0 && s.channelSpacingHz != 0 && s.symbolDurationMs != 0 && s.bitsPerSymbol != 0

/-- The samples of `ms` milliseconds: `floor(ms * 441 / 10)` (rules R165, R174). -/
def samplesOfMs (ms : Nat) : Nat := ms * 441 / 10

/-- `Ns`, the samples of a slot (rules R35, R165). -/
def State.ns (s : State) : Nat := samplesOfMs s.symbolDurationMs.toNat

/-- `eff_power` (rule R181). -/
def State.effPower (s : State) : Rat := if s.adaptivePowerEn = 1 then s.power else Config.fixedPower

/-- `A`, the amplitude of one tone (rule R167). -/
def State.amplitude (s : State) : Rat := s.effPower / (s.n : Rat)

/-- The channels `c < N`, ascending. -/
def activeChannels (n : Nat) : List (Fin 16) := (List.finRange 16).filter fun c => decide (c.val < n)

/-- The carrier of a channel in hertz (rule R21). -/
def State.carrierHz (s : State) (c : Fin 16) : Nat := (s.carrier.get c).toNat

/-- A vector of sixteen that holds `f c` for the channels `c < N` and `rest` for the others. -/
def perChannel {α : Type} (n : Nat) (rest : α) (f : Fin 16 → α) : Vector α 16 :=
  Vector.ofFn fun c => if c.val < n then f c else rest

end Sys2Proof.Machine
end

