-- ==== Sys2Proof/Machine/Ops.lean ====
section
/-! DEFINITION. The operations several commands share: how a command ends, the control registers, the cells of `SPEC`,
the codec's, the modulator's and the synchronizer's lists of bits. -/

namespace Sys2Proof

/-- A buffer of this capacity can hold `count` elements (rule R40). -/
def Config.Capacity.allows (c : Config.Capacity) (count : Nat) : Bool :=
  match c with
  | none => true
  | some bound => decide (count ≤ bound)

namespace Machine

/-! ## How a command ends

The block takes no exception: an error is a code in `RESULT` and a sticky bit in `ERR`, and the next command runs as
usual (rules R281, R282, R287). This is the one operation by which every command ends. -/

/-- A command ends with `code`: `RESULT` holds it, and the `ERR` bit of an error is set (rules R110, R282). -/
def State.endWith (s : State) (code : ResultCode) : State :=
  { s with result := code.word, err := s.err ||| code.errBit }

/-- The command `s` was reached by ends with `code` in a next state. -/
def finish (code : ResultCode) (s : State) : Outcome := .next (s.endWith code)

/-- A command that leaves `count` elements in a buffer of capacity `c` ends well with `t` where the buffer can hold them;
else it ends with `RangeError` and no other change of `s` (rule R40). -/
def finishWithin (c : Config.Capacity) (count : Nat) (t s : State) : Outcome :=
  if c.allows count then finish .ok t else finish .rangeError s

/-- Every piece of the block's state at its reset value (rules R112, R310); the parameters the block was built with and
the moves the host has still to make are no state of the block and stay. -/
def State.afterReset (s : State) : State := { State.reset with params := s.params, host := s.host }

/-! ## Control registers -/

/-- The register with this number (rule R38); none for the unassigned numbers 0x20 to 0xFF. -/
def csrOf (a : Byte) : Option Csr :=
  match a.toNat with
  | 0x00 => some .numChannels
  | 0x01 => some .channelSpacingHz
  | 0x02 => some .symbolDurationMs
  | 0x03 => some .bitsPerSymbol
  | 0x04 => some .useBinaryPayload
  | 0x05 => some .signalThreshold
  | 0x06 => some .adaptivePowerEn
  | 0x07 => some .status
  | 0x08 => some .err
  | 0x09 => some .result
  | 0x0A => some .crc
  | 0x0B => some .sum
  | 0x0C => some .slotIdx
  | 0x0D => some .numSlots
  | 0x0E => some .rdata
  | 0x0F => some .samplesPerSlot
  | n => if h : 0x10 ≤ n ∧ n < 0x20 then some (.carrier ⟨n - 0x10, by omega⟩) else none

/-- The value a register reads as, zero-extended to 32 bits (rules R65, R114). Reading has no side effect (rule R67). -/
def State.readCsr (s : State) : Csr → Word
  | .numChannels => s.numChannels.setWidth 32
  | .channelSpacingHz => s.channelSpacingHz.setWidth 32
  | .symbolDurationMs => s.symbolDurationMs.setWidth 32
  | .bitsPerSymbol => s.bitsPerSymbol.setWidth 32
  | .useBinaryPayload => s.useBinaryPayload.setWidth 32
  | .signalThreshold => s.signalThreshold.setWidth 32
  | .adaptivePowerEn => s.adaptivePowerEn.setWidth 32
  | .status => s.statusWord.setWidth 32
  | .err => s.err.setWidth 32
  | .result => s.result.setWidth 32
  | .crc => s.crc.setWidth 32
  | .sum => s.sum.setWidth 32
  | .slotIdx => s.slotIdx
  | .numSlots => s.numSlots
  | .rdata => s.rdata
  | .samplesPerSlot => BitVec.ofNat 32 s.ns
  | .carrier c => (s.carrier.get c).setWidth 32

/-- The registers `CSRW` may write: 0x00 to 0x06 (rules R38, R113). -/
def Csr.writable : Csr → Bool
  | .numChannels => true
  | .channelSpacingHz => true
  | .symbolDurationMs => true
  | .bitsPerSymbol => true
  | .useBinaryPayload => true
  | .signalThreshold => true
  | .adaptivePowerEn => true
  | .status => false
  | .err => false
  | .result => false
  | .crc => false
  | .sum => false
  | .slotIdx => false
  | .numSlots => false
  | .rdata => false
  | .samplesPerSlot => false
  | .carrier _ => false

/-- The legal written values of a writable register (rules R24 to R30, R38). -/
def Csr.legal (r : Csr) (v : Half) : Bool :=
  match r with
  | .numChannels => v == 4 || v == 8 || v == 12 || v == 16
  | .channelSpacingHz => v != 0
  | .symbolDurationMs => v != 0
  | .bitsPerSymbol => v == 1 || v == 2 || v == 3
  | .useBinaryPayload => v == 0 || v == 1
  | .signalThreshold => decide (v.toNat ≤ 255)
  | .adaptivePowerEn => v == 0 || v == 1
  | .status => false
  | .err => false
  | .result => false
  | .crc => false
  | .sum => false
  | .slotIdx => false
  | .numSlots => false
  | .rdata => false
  | .samplesPerSlot => false
  | .carrier _ => false

/-- Writes a legal value to a writable register; a write to one of 0x00 to 0x03 invalidates what was made for the old
profile (rule R113). A read-only register keeps its value. -/
def State.writeCsr (s : State) (r : Csr) (v : Half) : State :=
  match r with
  | .numChannels => { s with numChannels := v }.invalidateProfile
  | .channelSpacingHz => { s with channelSpacingHz := v }.invalidateProfile
  | .symbolDurationMs => { s with symbolDurationMs := v }.invalidateProfile
  | .bitsPerSymbol => { s with bitsPerSymbol := v }.invalidateProfile
  | .useBinaryPayload => { s with useBinaryPayload := v }
  | .signalThreshold => { s with signalThreshold := v }
  | .adaptivePowerEn => { s with adaptivePowerEn := v }
  | .status => s
  | .err => s
  | .result => s
  | .crc => s
  | .sum => s
  | .slotIdx => s
  | .numSlots => s
  | .rdata => s
  | .samplesPerSlot => s
  | .carrier _ => s

/-! ## The cells of `SPEC` -/

/-- The canonical form: bins strictly rising, below 4096, no magnitude 0. -/
def Memory.wf : Memory → Bool
  | [] => true
  | [(k, v)] => decide (k < Config.numBins) && v != 0
  | (k, v) :: (k', v') :: m => decide (k < k') && v != 0 && Memory.wf ((k', v') :: m)

/-- The magnitude of a bin: 0 for a bin that is not listed. -/
def Memory.read : Memory → Nat → Byte
  | [], _ => 0
  | (k, v) :: m, bin => if k = bin then v else Memory.read m bin

/-- The cells of consecutive magnitudes from bin `k` up. -/
def Memory.cellsFrom (k : Nat) : List Byte → Memory
  | [] => []
  | v :: vs => if v = 0 then Memory.cellsFrom (k + 1) vs else (k, v) :: Memory.cellsFrom (k + 1) vs

/-! ## Bits and bytes -/

/-- `bits_msb(b)`, most significant first (rules R9, R61). -/
def bitsMsb (b : Byte) : List Bit := (List.range 8).map fun j => b.getLsbD (7 - j)

/-- `byte_msb(s)` of eight bits, the first the most significant (rules R9, R233). -/
def byteMsb (bits : List Bit) : Byte :=
  BitVec.ofNat 8 ((List.range 8).map fun k => bitNat (bits.getD k false) * 2 ^ (7 - k)).sum

/-- The field of `K` bits from the first on, as a natural, most significant first (rule R63). -/
def fieldMsb (k : Nat) (bit : Nat → Bit) : Nat :=
  ((List.range k).map fun j => bitNat (bit j) * 2 ^ (k - 1 - j)).sum

end Machine

end Sys2Proof
end

