-- ==== Sys2Proof/Machine/Codec.lean ====
section
/-! DEFINITION. The codec commands: CRC-16, the additive checksum, LZ77 (41_codec.md), and the items of a compressed
stream (rules R86 to R89), which are the steps of the decoder's loop. -/

namespace Sys2Proof.Machine

/-! ## CRC-16 and checksum -/

/-- One of the eight shifts of `crc_step` (rule R130). -/
def crcShift (crc : Half) : Half :=
  if crc.getLsbD 0 then (crc >>> 1) ^^^ Config.crcPoly else crc >>> 1

/-- `n` shifts. -/
def crcShifts : Nat → Half → Half
  | 0, crc => crc
  | n + 1, crc => crcShifts n (crcShift crc)

/-- `crc_step(crc, b)` (rule R130). -/
def crcStep (crc : Half) (b : Byte) : Half := crcShifts 8 (crc ^^^ b.setWidth 16)

/-- `crc16(bytes)` (rule R131). -/
def crc16 (bytes : List Byte) : Half := bytes.foldl crcStep Config.crcInit

/-- `checksum(bytes)` (rule R135). -/
def checksum (bytes : List Byte) : Half := BitVec.ofNat 16 ((bytes.map BitVec.toNat).sum % 65536)

/-- `CRC.INIT` (rule R132). -/
def execCrcInit (s : State) : Outcome := finish .ok { s with crc := Config.crcInit }

/-- `CRC.STEP imm` (rule R133). -/
def execCrcStep (b : Byte) (s : State) : Outcome := finish .ok { s with crc := crcStep s.crc b }

/-- `CRC.BUF` (rule R134). -/
def execCrcBuf (s : State) : Outcome := finish .ok { s with crc := crc16 s.ib }

/-- `SUM.BUF` (rule R136). -/
def execSumBuf (s : State) : Outcome := finish .ok { s with sum := checksum s.ib }

/-! ## LZ77 encoder -/

/-- The length of the common beginning of two lists, at most `limit`. -/
def commonLength : Nat → List Byte → List Byte → Nat
  | limit + 1, x :: xs, y :: ys => if x = y then commonLength limit xs ys + 1 else 0
  | _, _, _ => 0

/-- A match: how far back it starts and how long it is (rule R138). -/
structure LzFound where
  dist : Nat
  len : Nat
  deriving DecidableEq, Repr

/-- How long the data at the cursor `i` agree with the data `d` back; a match may run past the cursor (rule R138). -/
def matchLength (b : List Byte) (i d : Nat) : Nat :=
  commonLength (min Config.lzLookahead (b.length - i)) (b.drop (i - d)) (b.drop i)

/-- Scans `count` distances from `d` upward and keeps the first of the longest (rule R138). -/
def lzScan (b : List Byte) (i : Nat) : Nat → Nat → LzFound → LzFound
  | 0, _, best => best
  | count + 1, d, best =>
    lzScan b i count (d + 1) (if best.len < matchLength b i d then ⟨d, matchLength b i d⟩ else best)

/-- `lz_match(b, i)` (rule R138). -/
def lzMatch (b : List Byte) (i : Nat) : LzFound := lzScan b i (min Config.lzWindow i) 1 ⟨0, 0⟩

/-- The token the encoder emits at the cursor `i`, and how many bytes it stands for (rule R139). -/
def lzTokenAt (b : List Byte) (i : Nat) : LzItem × Nat :=
  let found := lzMatch b i
  let byte := b.getD i 0
  if Config.lzMinMatch ≤ found.len then (.copy (BitVec.ofNat 16 found.dist) (BitVec.ofNat 8 found.len), found.len)
  else if byte = Config.lzMarker then (.escape, 1)
  else (.literal byte, 1)

/-- The tokens from the cursor `i` on; every token moves the cursor, so `fuel = len(b)` is enough (rule R139). -/
def lzTokensFrom (b : List Byte) : Nat → Nat → List LzItem
  | 0, _ => []
  | fuel + 1, i =>
    if i < b.length then (lzTokenAt b i).1 :: lzTokensFrom b fuel (i + (lzTokenAt b i).2) else []

/-- `lz_compress(b)` (rule R139): the header and the tokens. -/
def lzCompress (b : List Byte) : List Byte :=
  (LzItem.header (BitVec.ofNat 32 b.length)).bytes ++ (lzTokensFrom b b.length 0).flatMap LzItem.bytes

/-- `LZ.ENC` (rules R40, R139). -/
def execLzEnc (s : State) : Outcome :=
  if s.ib.length < Config.lengthLimit then
    finishWithin s.params.capacities.ob (lzCompress s.ib).length { s with ob := lzCompress s.ib } s
  else finish .rangeError s

/-! ## LZ77 decoder -/

/-- Where one item leaves the decoder (rule R140). -/
inductive LzResult where
  /-- There is more to read. -/
  | running (r : LzRun)
  /-- The declared length is reached. -/
  | done (out : List Byte)
  /-- `CorruptStream`. -/
  | corrupt
  deriving DecidableEq, Repr

/-- Appends `count` bytes, each the one `dist` back from the end, one at a time (rule R140). -/
def lzCopy (dist : Nat) : Nat → List Byte → List Byte
  | 0, out => out
  | count + 1, out => lzCopy dist count (out ++ [out.getD (out.length - dist) 0])

/-- The loop's tests on the bytes written so far (rule R140): overrun, enough, or more to read. -/
def lzSettle (declared : Word) (out input : List Byte) : LzResult :=
  if declared.toNat < out.length then .corrupt
  else if out.length = declared.toNat then .done out
  else .running (.inBody declared out input)

/-- What a header does to a decoder (rule R140). -/
def lzHeaderEffect (n : Word) (input : List Byte) : LzResult := lzSettle n [] input

/-- What a literal token does to a decoder (rules R87, R140). -/
def lzLiteralEffect (b : Byte) (declared : Word) (out input : List Byte) : LzResult :=
  lzSettle declared (out ++ [b]) input

/-- What a match token does to a decoder (rules R88, R140). -/
def lzCopyEffect (d : Half) (l : Byte) (declared : Word) (out input : List Byte) : LzResult :=
  if out.length < d.toNat then .corrupt else lzSettle declared (lzCopy d.toNat l.toNat out) input

/-- What an escape token does to a decoder (rules R89, R140). -/
def lzEscapeEffect (declared : Word) (out input : List Byte) : LzResult :=
  lzSettle declared (out ++ [Config.lzMarker]) input

/-- What an item does to a decoder that has just read it; none where that item cannot stand. -/
def itemEffect : LzItem → LzRun → Option LzResult
  | .header n, .atHeader input => some (lzHeaderEffect n input)
  | .literal b, .inBody declared out input => some (lzLiteralEffect b declared out input)
  | .copy d l, .inBody declared out input => some (lzCopyEffect d l declared out input)
  | .escape, .inBody declared out input => some (lzEscapeEffect declared out input)
  | .header _, .inBody _ _ _ => none
  | .literal _, .atHeader _ => none
  | .copy _ _, .atHeader _ => none
  | .escape, .atHeader _ => none

/-- Reads the next item of a stream: the item, and the decoder past its bytes. -/
def lzFetch : LzRun → Except DecodeError (LzItem × LzRun)
  | .atHeader input =>
    match decodeHeader input with
    | .ok (it, rest) => .ok (it, .atHeader rest)
    | .error e => .error e
  | .inBody declared out input =>
    match decodeToken input with
    | .ok (it, rest) => .ok (it, .inBody declared out rest)
    | .error e => .error e

/-- One pass of the decoder's loop. -/
def lzPass (r : LzRun) : LzResult :=
  match lzFetch r with
  | .error _ => .corrupt
  | .ok (it, r') => (itemEffect it r').getD .corrupt

/-- The decoder's loop; every item reads at least one byte, so one pass more than there are bytes is enough. -/
def lzLoop : Nat → LzRun → LzResult
  | 0, _ => .corrupt
  | fuel + 1, r =>
    match lzPass r with
    | .running r' => lzLoop fuel r'
    | .done out => .done out
    | .corrupt => .corrupt

/-- `lz_decompress(z)` (rule R140): the bytes, or nothing where it raises `CorruptStream`. -/
def lzDecompress (z : List Byte) : Option (List Byte) :=
  match lzLoop (z.length + 1) (.atHeader z) with
  | .running _ => none
  | .done out => some out
  | .corrupt => none

/-- The end of a decoder that succeeded (rule R141). -/
def State.lzDone (s : State) (out : List Byte) : State := { s with ob := out, lzRun := none }.endWith .ok

/-- The end of a decoder that failed: "bytes up to the fault are discarded" (rules R141, R285). -/
def State.lzCorrupt (s : State) : State := { s with ob := [], lzRun := none }.endWith .corruptStream

/-- The end of a decoder whose output does not fit `OB` (rule R40). -/
def State.lzTooLong (s : State) : State := { s with lzRun := none }.endWith .rangeError

/-- `LZ.DEC` (rules R40, R141). -/
def execLzDec (s : State) : Outcome :=
  match lzDecompress s.ib with
  | some out => finishWithin s.params.capacities.ob out.length { s with ob := out } s
  | none => finish .corruptStream { s with ob := [] }

/-! ## The items of a stream by themselves

Each is one pass of the loop of rule R140, run on the decoder that `lzRun` holds. Where no decoder stands at such an item
the code is no command either, and ends as rule R82 says of every word that is not one (log entry 8). -/

/-- Runs an item that has just been read. -/
def runItem (it : LzItem) (s : State) : Outcome :=
  match s.lzRun.bind (itemEffect it) with
  | none => finish .illegalCommand s
  | some (.running r) => .next { s with lzRun := some r }
  | some (.done out) => .next (if s.params.capacities.ob.allows out.length then s.lzDone out else s.lzTooLong)
  | some .corrupt => .next s.lzCorrupt

/-- `LZ.HEADER` (rules R86, R140). -/
def execLzHeader (n : Word) (s : State) : Outcome := runItem (.header n) s

/-- `LZ.LITERAL` (rules R87, R140). -/
def execLzLiteral (b : Byte) (s : State) : Outcome := runItem (.literal b) s

/-- `LZ.MATCH` (rules R88, R140). -/
def execLzMatch (d : Half) (l : Byte) (s : State) : Outcome := runItem (.copy d l) s

/-- `LZ.ESCAPE` (rules R89, R140). -/
def execLzEscape (s : State) : Outcome := runItem .escape s

end Sys2Proof.Machine
end

