-- ==== Sys2Proof/Machine/Exact.lean ====
section
/-! DEFINITION. Exact arithmetic on samples (rules R12, R176, R211, R212): sums, products with a cosine, and the sign of a
sample, decided exactly.

The numbers the rules compute are rational combinations of `cos(2π·k/88200)` and, where the host's window holds them, of
open reals. The sign of such a number is settled by rational intervals around it, each finer than the one before; a
number that no interval separates from 0 is 0. The canonical form over a basis of the 88200th roots of unity tells that a
combination of cosines is 0 without the search. -/

namespace Sys2Proof

/-! ## Sums and products -/

/-- The rational `q` as a sample. -/
def Sample.ofRat (q : Rat) : Sample := if q = 0 then [] else [⟨q, 0, []⟩]

/-- `q * x`. -/
def Sample.scale (q : Rat) (x : Sample) : Sample := x.map fun t => ⟨q * t.amp, t.arc, t.opens⟩

/-- `x + y`. -/
def Sample.add (x y : Sample) : Sample := x ++ y

/-- `-x`. -/
def Sample.neg (x : Sample) : Sample := x.scale (-1)

/-- `x - y`. -/
def Sample.sub (x y : Sample) : Sample := x.add y.neg

/-- The arc `k` brought into one turn. -/
def arcOf (k : Int) : Nat := (k % turnArcs).toNat

/-- `x * cos(2π·k/88200)`, by `cos a · cos b = (cos(a+b) + cos(a−b))/2`. -/
def Sample.mulCos (x : Sample) (k : Int) : Sample :=
  x.flatMap fun t => [⟨t.amp / 2, arcOf (t.arc + k), t.opens⟩, ⟨t.amp / 2, arcOf (t.arc - k), t.opens⟩]

/-- `x * sin(2π·k/88200)`: the sine is the cosine a quarter turn earlier. -/
def Sample.mulSin (x : Sample) (k : Int) : Sample := x.mulCos (k - 22050)

/-- `x` times the open reals with these indices. -/
def Sample.mulOpens (x : Sample) (opens : List Nat) : Sample := x.map fun t => ⟨t.amp, t.arc, t.opens ++ opens⟩

/-- `x * y`. -/
def Sample.mul (x y : Sample) : Sample := y.flatMap fun t => ((x.mulCos t.arc).scale t.amp).mulOpens t.opens

/-! ## Collecting like terms -/

/-- A table of amplitudes by arc: a binary tree on the arc's bits, the highest first. -/
inductive ArcTable where
  | empty
  | node (amp : Rat) (zeroSide oneSide : ArcTable)
  deriving DecidableEq, Repr

/-- The number of bits of an arc below 88200. -/
def arcBits : Nat := 17

/-- The amplitude at a table's root. -/
def ArcTable.root : ArcTable → Rat
  | .empty => 0
  | .node a _ _ => a

/-- The part of a table where the next bit is 0. -/
def ArcTable.zeros : ArcTable → ArcTable
  | .empty => .empty
  | .node _ l _ => l

/-- The part of a table where the next bit is 1. -/
def ArcTable.ones : ArcTable → ArcTable
  | .empty => .empty
  | .node _ _ r => r

/-- Adds `a` to the amplitude of the arc whose lowest `bits` bits are those of `k`. -/
def ArcTable.add (k : Nat) (a : Rat) : Nat → ArcTable → ArcTable
  | 0, t => .node (t.root + a) t.zeros t.ones
  | b + 1, t =>
    if k.testBit b then .node t.root t.zeros (t.ones.add k a b)
    else .node t.root (t.zeros.add k a b) t.ones

/-- The terms of a table with an amplitude other than 0, the arcs rising. -/
def ArcTable.terms (above : Nat) : Nat → ArcTable → List Tone
  | _, .empty => []
  | 0, .node a _ _ => if a = 0 then [] else [⟨a, above, []⟩]
  | b + 1, .node _ l r => l.terms (2 * above) b ++ r.terms (2 * above + 1) b

/-- A term without open reals. -/
def Tone.closed (t : Tone) : Bool := t.opens.isEmpty

/-- The same number with one closed term for each arc, the arcs rising, none with amplitude 0; the terms with open reals
follow as they are. -/
def Sample.collect (x : Sample) : Sample :=
  ((x.filter Tone.closed).foldl (fun t tone => t.add (tone.arc % turnArcs) tone.amp arcBits) ArcTable.empty).terms 0 arcBits
    ++ x.filter fun t => !t.closed

/-! ## The canonical form

A sample `Σ a·cos(2π·k/n)` is `Σ (a/2)·(ζ^k + ζ^(n−k))` with `ζ = exp(2πi/n)`, `n = 88200 = 8·9·25·49`. For a prime `p` of
`n` the powers `k, k + n/p, …, k + (p−1)·n/p` add up to 0. Replacing every power whose `p`-part has the top digit `p − 1`
by minus the others, for `p = 2, 3, 5, 7`, leaves powers that are linearly independent over the rationals. -/

/-- The sample over the powers of `ζ`: the term `⟨a, k⟩` is here `a·ζ^k`. -/
def Sample.powers (x : Sample) : Sample :=
  x.flatMap fun t => [⟨t.amp / 2, arcOf t.arc, t.opens⟩, ⟨t.amp / 2, arcOf (-(t.arc : Int)), t.opens⟩]

/-- Rewrites one power whose digit for the prime `p` (`q` the power of `p` in 88200) is the highest. -/
def reducePower (p q : Nat) (t : Tone) : List Tone :=
  if t.arc % q / (q / p) = p - 1 then
    (List.range (p - 1)).map fun i => ⟨-t.amp, arcOf (t.arc + (i + 1) * (turnArcs / p)), t.opens⟩
  else [t]

/-- All powers rewritten for one prime. -/
def reducePrime (p q : Nat) (x : List Tone) : List Tone := Sample.collect (x.flatMap (reducePower p q))

/-- The canonical form: of numbers without open reals, equal ones have equal canonical forms, and 0 has the empty one. Its
terms are coefficients of powers of `ζ`; read as a sample (the real parts) it is the same number again. -/
def Sample.canon (x : Sample) : Sample :=
  reducePrime 7 49 (reducePrime 5 25 (reducePrime 3 9 (reducePrime 2 8 x.powers.collect)))

/-- The number is seen to be 0. -/
def Sample.isZero (x : Sample) : Bool := x.canon.isEmpty

/-! ## Rational approximations

Fixed-point numbers with `2·p` fraction bits; the result is rounded to `p` bits. -/

/-- `2^q · arctan(1/x)`, less than `2·terms` units off: `term = 2^q / x^(2j+1)` at entry `j`. -/
def arctanInv (x : Nat) : Nat → Nat → Nat → Int
  | 0, _, _ => 0
  | fuel + 1, j, term =>
    (if j % 2 = 0 then ((term / (2 * j + 1) : Nat) : Int) else -((term / (2 * j + 1) : Nat) : Int))
      + arctanInv x fuel (j + 1) (term / (x * x))

/-- `2^q · π`, by `π/4 = 4·arctan(1/5) − arctan(1/239)`. -/
def piFixed (q : Nat) : Nat :=
  (4 * (4 * arctanInv 5 (q / 4 + 2) 0 (2 ^ q / 5) - arctanInv 239 (q / 4 + 2) 0 (2 ^ q / 239))).toNat

/-- The Taylor sum of the cosine: `term = 2^q · θ^(2j)/(2j)!`, `thetaSq = 2^q · θ²`. -/
def cosSeries (q thetaSq : Nat) : Nat → Nat → Nat → Int
  | 0, _, _ => 0
  | fuel + 1, j, term =>
    if term = 0 then 0
    else (if j % 2 = 0 then (term : Int) else -(term : Int))
      + cosSeries q thetaSq fuel (j + 1) (term * thetaSq / 2 ^ q / ((2 * j + 1) * (2 * j + 2)))

/-- `2^q · cos(2π·k/88200)` for an arc `k` of at most a quarter turn. -/
def cosQuarter (q k : Nat) : Int :=
  let theta := piFixed q * k / 44100
  cosSeries q (theta * theta / 2 ^ q) (q + 2) 0 (2 ^ q)

/-- `2^p · cos(2π·k/88200)`, less than 2 units off. -/
def cosFixed (p k : Nat) : Int :=
  let k := k % turnArcs
  let k := if k ≤ 44100 then k else turnArcs - k
  (if k ≤ 22050 then cosQuarter (2 * p) k else -cosQuarter (2 * p) (44100 - k)) / 2 ^ p

/-- A rational interval: `|x − mid| ≤ rad`. -/
structure Interval where
  mid : Rat
  rad : Rat
  deriving DecidableEq, Repr

/-- The absolute value of a rational. -/
def ratAbs (q : Rat) : Rat := if q < 0 then -q else q

/-- The interval of `q` times a number. -/
def Interval.scale (q : Rat) (i : Interval) : Interval := ⟨q * i.mid, ratAbs q * i.rad⟩

/-- The interval of a sum. -/
def Interval.add (i j : Interval) : Interval := ⟨i.mid + j.mid, i.rad + j.rad⟩

/-- The interval of a product. -/
def Interval.mul (i j : Interval) : Interval :=
  ⟨i.mid * j.mid, ratAbs i.mid * j.rad + ratAbs j.mid * i.rad + i.rad * j.rad⟩

/-- The interval of a square. -/
def Interval.square (i : Interval) : Interval := i.mul i

/-- The interval of a rational. -/
def Interval.point (q : Rat) : Interval := ⟨q, 0⟩

/-- The interval of a cosine, of `p` bits. -/
def cosInterval (p arc : Nat) : Interval := ⟨(cosFixed p arc : Rat) / 2 ^ p, 2 / 2 ^ p⟩

/-- The first `p` binary digits of an open real after the point, as a whole number. -/
def openDigits (index : Nat) : Nat → Int
  | 0 => Config.openWhole index
  | p + 1 => 2 * openDigits index p + if Config.openDigit index p then 1 else 0

/-- The interval of an open real, of `p` bits. -/
def openInterval (p index : Nat) : Interval := ⟨(openDigits index p : Rat) / 2 ^ p, 1 / 2 ^ p⟩

/-- The interval of a term. -/
def Tone.approx (p : Nat) (t : Tone) : Interval :=
  (t.opens.foldl (fun i index => i.mul (openInterval p index)) (cosInterval p t.arc)).scale t.amp

/-- An interval around a sample, with cosines and open reals of `p` bits. -/
def Sample.approx (p : Nat) (x : Sample) : Interval := x.foldl (fun i t => i.add (t.approx p)) (.point 0)

/-- The sign of every number of the interval, where they have one. -/
def Interval.sign (i : Interval) : Option Ordering :=
  if i.rad < i.mid then some .gt else if i.mid < -i.rad then some .lt else none

/-! ## The sign of a number -/

/-- Tries precisions `p, 2p, 4p, …`: the first sign an interval has, `none` where no interval ever has one. (As a program
the search does not end there; as a function its value is then `none`.) -/
def searchSign (approx : Nat → Interval) (p : Nat) : Option Ordering :=
  match (approx p).sign with
  | some o => some o
  | none => searchSign approx (2 * p)
partial_fixpoint

/-- The sign of the number that `exact` gives and `approx` encloses, as its comparison with 0. The intervals shrink to the
number, so one that no interval separates from 0 is 0. -/
def signWith (approx : Nat → Interval) (exact : Unit → Sample) : Ordering :=
  match (approx 64).sign with
  | some o => o
  | none => if (exact ()).isZero then .eq else (searchSign approx 128).getD .eq

/-- The sign of a sample, as its comparison with 0. -/
def Sample.sign (x : Sample) : Ordering := signWith (fun p => x.approx p) fun _ => x

/-- `x < y`. -/
def Sample.lt (x y : Sample) : Bool := (x.sub y).sign == .lt

end Sys2Proof
end

