-- ==== Sys2Proof/Machine/Demodulator.lean ====
section
/-! DEFINITION. The demodulator commands: `DEM.TICK`, `DEM.IQ` (43_demodulator.md). -/

namespace Sys2Proof.Machine

/-! ## FSK decision -/

/-- `bin_of(f)`: the nearest bin, a tie going up (rule R201). -/
def binOf (f : Int) : Int := (16384 * f + 44100) / 88200

/-- The magnitude of the bin of a frequency, where `SPEC` has that bin. -/
def Memory.magnitudeAt (spec : Memory) (f : Int) : Option Nat :=
  if 0 ≤ binOf f ∧ binOf f < Config.numBins then some (Memory.read spec (binOf f).toNat).toNat else none

/-- The comparison of rule R202. -/
def fskCompare (m0 m1 threshold : Nat) : Decision :=
  if max m0 m1 < threshold then none else if m0 < m1 then some 1 else some 0

/-- `fsk_decide(SPEC, f, T)` (rule R202), where the bins of both tones exist. -/
def fskDecide (spec : Memory) (f threshold : Nat) : Option Decision :=
  match Memory.magnitudeAt spec ((f : Int) - Config.fskDev), Memory.magnitudeAt spec ((f : Int) + Config.fskDev) with
  | some m0, some m1 => some (fskCompare m0 m1 threshold)
  | _, _ => none

/-! ## Slot aggregation and deinterleave -/

/-- The bit of a decision on the bit plane `j` of `k`, nothing for a silent channel (rule R204). -/
def planeBit (k j : Nat) (d : Decision) : Option Bit := d.map fun m => m.testBit (k - 1 - j)

/-- `deinterleave_slot(DEC, N, K)` (rules R203, R204): nothing where every channel `c < N` is silent. -/
def deinterleaveSlot (dec : Vector Decision 16) (n k : Nat) : Option (List Bit) :=
  if (activeChannels n).all fun c => (dec.get c).isNone then none
  else some ((List.range k).flatMap fun j => (activeChannels n).filterMap fun c => planeBit k j (dec.get c))

/-- What `DEM.TICK` and `DEM.IQ` do with their decisions (rules R40, R205, R215). -/
def takeDecisions (dec : Vector Decision 16) (s : State) : Outcome :=
  match deinterleaveSlot dec s.n s.k with
  | none => finish .idle { s with dec := dec, slotYielded := false }
  | some bits =>
    finishWithin s.params.capacities.rxBits (s.rxBits.length + bits.length)
      { s with dec := dec, rxBits := s.rxBits ++ bits, slotYielded := true } s

/-- The FSK decision of a channel on the present `SPEC`. -/
def State.fskDecision (s : State) (c : Fin 16) : Option Decision :=
  fskDecide s.spec (s.carrierHz c) s.signalThreshold.toNat

/-- The first of the active channels with a tone that has no bin. -/
def State.missingBin (s : State) : Option (Fin 16) := (activeChannels s.n).find? fun c => (s.fskDecision c).isNone

/-- `DEM.TICK` (rule R205). -/
def execDemTick (s : State) : Outcome :=
  if !(s.profileOk && s.calValid) then finish .configError s
  else if s.k ≠ 1 then finish .configError s
  else match s.missingBin with
    | some c => .fault (.noSuchBin c)
    | none => takeDecisions (perChannel s.n none fun c => (s.fskDecision c).getD none) s

/-! ## PSK decision -/

/-- `I_c`: the window against the cosine of the carrier `f` (rule R211); `2π·f·n/44100` is `2·f·n` arcs. -/
def correlateI (win : List Sample) (f : Nat) : Sample :=
  Sample.collect (win.zipIdx.flatMap fun wn => Sample.mulCos wn.1 (2 * f * wn.2 : Nat))

/-- `Q_c`: minus the window against the sine of the carrier `f` (rule R211). -/
def correlateQ (win : List Sample) (f : Nat) : Sample :=
  Sample.collect (win.zipIdx.flatMap fun wn => Sample.neg (Sample.mulSin wn.1 (2 * f * wn.2 : Nat)))

/-- The correlation sums of one channel. -/
structure Correlation where
  i : Sample
  q : Sample
  deriving DecidableEq, Repr

/-- The projection on the direction of constellation point `m` of `2^K` (rule R212). -/
def Correlation.projection (z : Correlation) (k m : Nat) : Sample :=
  Sample.add (z.i.mulCos (m * turnArcs / 2 ^ k : Nat)) (z.q.mulSin (m * turnArcs / 2 ^ k : Nat))

/-- `(2/Ns)·sqrt(I² + Q²) < PSK_MIN_AMPL` (rule R212) as `4·(I² + Q²) < Ns²·PSK_MIN_AMPL²`: no side is negative, and `Ns` is
positive (log entry 7). -/
def Correlation.silent (z : Correlation) (minAmpl : Sample) (ns : Nat) : Bool :=
  signWith
    (fun p => (((z.i.approx p).square.add (z.q.approx p).square).scale 4).add
      ((minAmpl.approx p).square.scale (-(ns * ns : Nat))))
    (fun _ => Sample.add (Sample.scale 4 (Sample.add (z.i.mul z.i) (z.q.mul z.q)))
      (Sample.scale (-(ns * ns : Nat)) (minAmpl.mul minAmpl)))
    == .lt

/-- The least point of `best` and the `count` points from `m` on with the largest projection (rule R212). -/
def Correlation.bestFrom (z : Correlation) (k : Nat) : Nat → Nat → Nat → Nat
  | 0, _, best => best
  | count + 1, m, best =>
    z.bestFrom k count (m + 1) (if (z.projection k best).lt (z.projection k m) then m else best)

/-- `psk_decide(I, Q, K)` (rule R212). -/
def Correlation.decide (z : Correlation) (minAmpl : Sample) (ns k : Nat) : Decision :=
  if z.silent minAmpl ns then none else some (z.bestFrom k (2 ^ k - 1) 1 0)

/-- The PSK decision of a channel on the present `WIN` (rules R211, R212). -/
def State.pskDecision (s : State) (c : Fin 16) : Decision :=
  Correlation.decide ⟨correlateI s.win (s.carrierHz c), correlateQ s.win (s.carrierHz c)⟩ s.params.pskMinAmpl s.ns s.k

/-- `DEM.IQ` (rule R215). -/
def execDemIq (s : State) : Outcome :=
  if !(s.profileOk && s.calValid) then finish .configError s
  else if !(s.k == 2 || s.k == 3) then finish .configError s
  else if s.win.length ≠ s.ns then finish .configError s
  else takeDecisions (perChannel s.n none s.pskDecision) s

end Sys2Proof.Machine
end

