-- ==== Sys2Proof/Machine/Framer.lean ====
section
/-! DEFINITION. The framer command: `FRAME` (45_framer.md). -/

namespace Sys2Proof.Machine

/-- `frame(B)` (rules R90, R260). -/
def frameBits (body : List Byte) : List Bit := Config.syncPattern ++ body.flatMap bitsMsb ++ Config.suffixPattern

/-- `FRAME` (rules R40, R261). -/
def execFrame (s : State) : Outcome :=
  if 16 + 8 * s.ib.length < Config.lengthLimit then
    finishWithin s.params.capacities.txBits (16 + 8 * s.ib.length) { s with txBits := frameBits s.ib } s
  else finish .rangeError s

end Sys2Proof.Machine
end

