-- ==== Sys2Proof/Machine/Modulator.lean ====
section
/-! DEFINITION. The modulator commands: `ILV`, `SYMB`, `MOD.SLOT`, `MOD.PRE`, `PWR.UPD` (42_modulator.md). -/

namespace Sys2Proof.Machine

/-! ## Interleaver and symbolizer -/

/-- Stream `c` of `interleave(bits, N)` (rule R160). -/
def interleaveStream (bits : List Bit) (n c : Nat) : List Bit :=
  (List.range (ceilDiv bits.length n)).map fun j => bits.getD (c + j * n) false

/-- `ILV` (rules R40, R161). -/
def execIlv (s : State) : Outcome :=
  if !s.profileOk then finish .configError s
  else if Config.lengthLimit ≤ s.txBits.length then finish .rangeError s
  else finishWithin s.params.capacities.stream (ceilDiv s.txBits.length s.n)
    { s with
      stream := perChannel s.n [] fun c => interleaveStream s.txBits s.n c.val
      ilvValid := true, symValid := false, slotIdx := 0, numSlots := 0 } s

/-- `symbolize(stream, K)` (rule R162). -/
def symbolize (stream : List Bit) (k : Nat) : List Nat :=
  (List.range (ceilDiv stream.length k)).map fun i => fieldMsb k fun j => stream.getD (i * k + j) false

/-- The most symbols a channel `c < N` gets from its stream; the streams of a state that a run reaches have one length. -/
def State.longestSyms (s : State) : Nat :=
  ((activeChannels s.n).map fun c => ceilDiv (s.stream.get c).length s.k).foldl max 0

/-- `SYMB` (rules R40, R163). -/
def execSymb (s : State) : Outcome :=
  if !s.ilvValid then finish .configError s
  else finishWithin s.params.capacities.syms s.longestSyms
    { s with
      syms := perChannel s.n [] fun c => symbolize (s.stream.get c) s.k
      numSlots := BitVec.ofNat 32 (ceilDiv (s.stream.get 0).length s.k)
      slotIdx := 0, symValid := true } s

/-! ## Slot synthesis -/

/-- A tone of a slot: its frequency in hertz and its phase in arcs. -/
structure ToneSpec where
  hz : Int
  phase : Nat
  deriving DecidableEq, Repr

/-- The tone that sends symbol `m` on the carrier `f` (rules R92 to R95, R166). -/
def toneOf (k f m : Nat) : ToneSpec :=
  if k = 1 then ⟨if m = 1 then (f : Int) + Config.fskDev else (f : Int) - Config.fskDev, 0⟩
  else ⟨f, m * turnArcs / 2 ^ k⟩

/-- A tone's term at sample `n` of a slot: `A·cos(2π·F·n/44100 + PHI)` (rule R166); `2π/44100` is two arcs. -/
def ToneSpec.term (amplitude : Rat) (n : Nat) (t : ToneSpec) : Tone :=
  ⟨amplitude, arcOf (2 * t.hz * n + t.phase), []⟩

/-- `y(s, n)` of the tones of a slot (rule R168). -/
def chordSample (amplitude : Rat) (tones : List ToneSpec) (n : Nat) : Sample := tones.map (ToneSpec.term amplitude n)

/-- `count` samples of a chord, from sample 0. -/
def chord (amplitude : Rat) (tones : List ToneSpec) (count : Nat) : List Sample :=
  (List.range count).map (chordSample amplitude tones)

/-- The output quantiser `Q` (rule R176). A quantiser other than the identity is given the canonical form, so that it is a
function of the number and not of the way it is written. -/
def quantise (q : Config.Quantiser) (y : Sample) : Sample :=
  match q with
  | .identity => y
  | .other index => Config.anyQuantiser index y.canon

/-- The symbol `SYMS[c][SLOT_IDX]`, where there is one. -/
def State.slotSymbol (s : State) (c : Fin 16) : Option Nat := (s.syms.get c)[s.slotIdx.toNat]?

/-- The first of the given channels without a symbol for the slot. -/
def State.missingSymbol (s : State) : Option (Fin 16) := (activeChannels s.n).find? fun c => (s.slotSymbol c).isNone

/-- The tones of the slot `SLOT_IDX` (rule R166). -/
def State.slotTones (s : State) : List ToneSpec :=
  (activeChannels s.n).map fun c => toneOf s.k (s.carrierHz c) ((s.slotSymbol c).getD 0)

/-- The samples of the slot `SLOT_IDX` (rules R165 to R168). -/
def State.slotSamples (s : State) : List Sample :=
  (chord s.amplitude s.slotTones s.ns).map (quantise s.params.quantiser)

/-- `MOD.SLOT` (rules R40, R169). -/
def execModSlot (s : State) : Outcome :=
  if !(s.symValid && s.calValid) then finish .configError s
  else if s.numSlots.toNat ≤ s.slotIdx.toNat then finish .idle s
  else match s.missingSymbol with
    | some c => .fault (.noSuchSymbol c)
    | none => finishWithin s.params.capacities.samples (s.samples.length + s.ns)
        { s with samples := s.samples ++ s.slotSamples, slotIdx := s.slotIdx + 1 } s

/-! ## Preamble -/

/-- The unmodulated carriers (rule R174). -/
def State.carrierTones (s : State) : List ToneSpec := (activeChannels s.n).map fun c => ⟨s.carrierHz c, 0⟩

/-- The ideal preamble: three chords with silence between them (rule R174). -/
def State.preamble (s : State) : List Sample :=
  let sound := chord s.amplitude s.carrierTones (samplesOfMs Config.chordMs)
  let silence := List.replicate (samplesOfMs Config.gapMs) []
  sound ++ silence ++ sound ++ silence ++ sound

/-- The samples of the preamble (rule R174). -/
def preambleLength : Nat := 3 * samplesOfMs Config.chordMs + 2 * samplesOfMs Config.gapMs

/-- `MOD.PRE` (rules R40, R175). -/
def execModPre (s : State) : Outcome :=
  if !s.calValid then finish .configError s
  else finishWithin s.params.capacities.samples (s.samples.length + preambleLength)
    { s with samples := s.samples ++ s.preamble.map (quantise s.params.quantiser) } s

/-! ## Power controller -/

/-- A rational brought into a range. -/
def clampPower (lo hi p : Rat) : Rat := min hi (max lo p)

/-- `pwr_next(p, snr)` (rule R182), between the bounds `lo` and `hi`. -/
def pwrNext (lo hi p snr : Rat) : Rat :=
  if Config.targetSnr - snr < Config.snrDeadBand ∧ snr - Config.targetSnr < Config.snrDeadBand then p
  else if snr < Config.targetSnr then clampPower lo hi (p * Config.stepUp)
  else clampPower lo hi (p * Config.stepDown)

/-- `PWR.UPD` (rule R186). -/
def execPwrUpd (s : State) : Outcome :=
  if s.adaptivePowerEn = 0 then finish .idle s
  else finish .ok { s with power := pwrNext s.params.minPower s.params.maxPower s.power s.snrIn }

end Sys2Proof.Machine
end

