-- ==== Sys2Proof/Machine/Sync.lean ====
section
/-! DEFINITION. The synchronizer commands: `SYNC.STEP`, `SYNC.RST` (44_sync.md). -/

namespace Sys2Proof.Machine

/-! ## The sync pattern -/

/-- `find_sync(bits)`: the least index where `10101010` stands (rule R231). -/
def findSync : List Bit → Option Nat
  | [] => none
  | b :: bits =>
    if (b :: bits).take 8 = Config.syncPattern then some 0 else (findSync bits).map (· + 1)

/-! ## Delivery -/

/-- The tags `META:`, `DATA:`, `END:` in ASCII (rule R91). -/
def packetTags : List (List Byte) :=
  [[0x4D, 0x45, 0x54, 0x41, 0x3A], [0x44, 0x41, 0x54, 0x41, 0x3A], [0x45, 0x4E, 0x44, 0x3A]]

/-- The default `record_terminated(buf, q)`: a byte 0x55 at or after `q` (rule R237). -/
def suffixTerminated (buf : List Byte) (q : Nat) : Bool := (buf.drop q).contains 0x55

/-- `record_terminated(buf, q)` (rule R237). -/
def recordTerminated (t : Config.Terminator) (buf : List Byte) (q : Nat) : Bool :=
  match t with
  | .suffixByte => suffixTerminated buf q
  | .other index => Config.anyTerminator index buf q

/-- `tag` stands at some index of `buf`, at or after `p`, and its record is terminated; `rest` is `buf` from `p` on
(rule R236). -/
def tagTerminatedFrom (t : Config.Terminator) (buf tag : List Byte) : Nat → List Byte → Bool
  | _, [] => false
  | p, b :: rest =>
    ((b :: rest).take tag.length == tag && recordTerminated t buf (p + tag.length)) ||
      tagTerminatedFrom t buf tag (p + 1) rest

/-- `deliverable(buf)` (rule R236). -/
def deliverable (t : Config.Terminator) (buf : List Byte) : Bool :=
  buf.contains 0 ||
    (decide (Config.tagMinLength < buf.length) && packetTags.any fun tag => tagTerminatedFrom t buf tag 0 buf)

/-! ## Transitions -/

/-- H1: drop through the end of the pattern found at `p` and become `Framed` (rule R232). -/
def State.lockAt (s : State) (p : Nat) : State := { s with rxBits := s.rxBits.drop (p + 8), syncState := .framed }

/-- The last `count` bits of a list, all of them where it has no more. -/
def lastBits (count : Nat) (bits : List Bit) : List Bit := bits.drop (bits.length - count)

/-- H2: keep the last 100 bits (rule R232). -/
def State.trim (s : State) : State := { s with rxBits := lastBits Config.huntKeep s.rxBits }

/-- F1: deliver (rule R235). -/
def State.deliver (s : State) : State :=
  { s with pktQ := s.pktQ ++ [s.pktBuf], pktBuf := [], syncState := .hunting }

/-- F2: drop the buffer (rule R238). -/
def State.overflow (s : State) : State := { s with pktBuf := [], syncState := .hunting }

/-- F3: assemble one byte (rule R233). -/
def State.assemble (s : State) : State :=
  { s with pktBuf := s.pktBuf ++ [byteMsb (s.rxBits.take 8)], rxBits := s.rxBits.drop 8 }

/-- The `Hunting` transitions in order (rule R232). -/
def huntStep (s : State) : Outcome :=
  match findSync s.rxBits with
  | some p => finish .ok (s.lockAt p)
  | none => if Config.huntLimit < s.rxBits.length then finish .ok s.trim else finish .idle s

/-- The `Framed` transitions in order (rule R234); F1 needs room in `PKTQ` (rule R40). -/
def frameStep (s : State) : Outcome :=
  if deliverable s.params.terminator s.pktBuf then
    finishWithin s.params.capacities.pktQ (s.pktQ.length + 1) s.deliver s
  else if Config.packetLimit < s.pktBuf.length then finish .bufferOverflow s.overflow
  else if 8 ≤ s.rxBits.length then finish .ok s.assemble
  else finish .idle s

/-- `SYNC.STEP` (rule R239). -/
def execSyncStep (s : State) : Outcome :=
  match s.syncState with
  | .hunting => huntStep s
  | .framed => frameStep s

/-- `SYNC.RST` (rule R241). -/
def execSyncRst (s : State) : Outcome :=
  finish .ok { s with syncState := .hunting, rxBits := [], pktBuf := [] }

end Sys2Proof.Machine
end

