-- ==== Sys2Proof/Machine/System.lean ====
section
/-! DEFINITION. The configuration and system commands: `NOP`, `RESET`, `CSRW`, `CSRR`, `LDCAL` (40_config_ops.md). -/

namespace Sys2Proof.Machine

/-- `NOP` (rule R111). -/
def execNop (s : State) : Outcome := finish .ok s

/-- `RESET` (rules R112, R310). -/
def execReset (s : State) : Outcome := finish .ok s.afterReset

/-- `CSRW a, imm` (rule R113). -/
def execCsrw (a : Byte) (imm : Half) (s : State) : Outcome :=
  match csrOf a with
  | none => finish .illegalCommand s
  | some r =>
    if r.writable then
      if r.legal imm then finish .ok (s.writeCsr r imm) else finish .rangeError s
    else finish .illegalCommand s

/-- `CSRR a` (rule R114): `RDATA` takes the value; `RESULT` is left alone when it is the register read. -/
def execCsrr (a : Byte) (s : State) : Outcome :=
  match csrOf a with
  | none => finish .illegalCommand s
  | some .result => .next { s with rdata := s.readCsr .result }
  | some r => finish .ok { s with rdata := s.readCsr r }

/-- Every carrier of a base frequency lies in the band: invariant 4 of the source (rule R115). -/
def bandOk (base n spacing : Nat) : Bool :=
  decide (Config.freqMin ≤ base) && decide (base + (n - 1) * spacing ≤ Config.freqMax)

/-- The carriers of a base frequency, 0 from channel `N` on (rule R115). -/
def carriersFrom (base n spacing : Nat) : Vector Half 16 :=
  perChannel n 0 fun c => BitVec.ofNat 16 (base + c.val * spacing)

/-- `LDCAL imm` (rule R115). -/
def execLdcal (imm : Half) (s : State) : Outcome :=
  if !s.profileOk then finish .configError s
  else if !bandOk imm.toNat s.n s.channelSpacingHz.toNat then finish .noViableBand s
  else finish .ok { s with carrier := carriersFrom imm.toNat s.n s.channelSpacingHz.toNat, calValid := true }

end Sys2Proof.Machine
end

