-- ==== Sys2Proof/Machine/Dispatch.lean ====
section
/-! DEFINITION. The instructions and their meanings: one arm for each row of the opcode table. -/

namespace Sys2Proof.Machine

def exec (i : Instr) (s : State) : Host.Outcome State Fault Refusal :=
  match i with
  -- configuration and system
  | .nop => Sys2Proof.Machine.execNop s
  | .reset => Sys2Proof.Machine.execReset s
  | .csrw a imm => Sys2Proof.Machine.execCsrw a imm s
  | .csrr a => Sys2Proof.Machine.execCsrr a s
  | .ldcal imm => Sys2Proof.Machine.execLdcal imm s
  -- codec
  | .crcInit => Sys2Proof.Machine.execCrcInit s
  | .crcStep b => Sys2Proof.Machine.execCrcStep b s
  | .crcBuf => Sys2Proof.Machine.execCrcBuf s
  | .sumBuf => Sys2Proof.Machine.execSumBuf s
  | .lzEnc => Sys2Proof.Machine.execLzEnc s
  | .lzDec => Sys2Proof.Machine.execLzDec s
  -- modulator
  | .ilv => Sys2Proof.Machine.execIlv s
  | .symb => Sys2Proof.Machine.execSymb s
  | .modSlot => Sys2Proof.Machine.execModSlot s
  | .modPre => Sys2Proof.Machine.execModPre s
  | .pwrUpd => Sys2Proof.Machine.execPwrUpd s
  -- demodulator
  | .demTick => Sys2Proof.Machine.execDemTick s
  | .demIq => Sys2Proof.Machine.execDemIq s
  -- synchronizer
  | .syncStep => Sys2Proof.Machine.execSyncStep s
  | .syncRst => Sys2Proof.Machine.execSyncRst s
  -- framer
  | .frame => Sys2Proof.Machine.execFrame s
  -- items of a compressed stream
  | .lzHeader n => Sys2Proof.Machine.execLzHeader n s
  | .lzLiteral b => Sys2Proof.Machine.execLzLiteral b s
  | .lzMatch d l => Sys2Proof.Machine.execLzMatch d l s
  | .lzEscape => Sys2Proof.Machine.execLzEscape s

end Sys2Proof.Machine
end

