-- ==== Sys2Proof/Machine/HostPort.lean ====
section
/-! DEFINITION. What the outside world does to the block between two commands: the moves of rules R68 and R310, and how
the next code comes to the block. -/

namespace Sys2Proof.Machine

/-- The host replaces `SPEC`: 4096 magnitudes, or it is no move of the host (rule R68). -/
def putSpec (magnitudes : List Byte) (s : State) : Outcome :=
  if magnitudes.length = Config.numBins then .next { s with spec := Memory.cellsFrom 0 magnitudes }
  else .refused .notAHostMove

/-- A host write that leaves `count` elements in a buffer of capacity `c`: more than the buffer can hold is no move of the
host (log entry 3). -/
def hostWrite (c : Config.Capacity) (count : Nat) (t : State) : Outcome :=
  if c.allows count then .next t else .refused .notAHostMove

/-- The host replaces `IB`. -/
def putIb (bytes : List Byte) (s : State) : Outcome :=
  hostWrite s.params.capacities.ib bytes.length { s with ib := bytes }

/-- The host replaces `TXBITS`. -/
def putTxBits (bits : List Bit) (s : State) : Outcome :=
  hostWrite s.params.capacities.txBits bits.length { s with txBits := bits }

/-- The host replaces `WIN`. -/
def putWin (samples : List Sample) (s : State) : Outcome :=
  hostWrite s.params.capacities.win samples.length { s with win := samples }

/-- The host writes `SNR_IN`. -/
def setSnrIn (q : Rat) (s : State) : Outcome := .next { s with snrIn := q }

/-- The host appends to `RXBITS`. -/
def appendRxBits (bits : List Bit) (s : State) : Outcome :=
  hostWrite s.params.capacities.rxBits (s.rxBits.length + bits.length) { s with rxBits := s.rxBits ++ bits }

/-- The host removes samples from the front of `SAMPLES`, at most all of them. -/
def takeSamples (n : Nat) (s : State) : Outcome := .next { s with samples := s.samples.drop n }

/-- The host removes packets from the front of `PKTQ`, at most all of them. -/
def takePktQ (n : Nat) (s : State) : Outcome := .next { s with pktQ := s.pktQ.drop n }

/-- The hardware reset input: the transition of the command `RESET` (rule R310). -/
def resetInput (s : State) : Outcome := .next s.afterReset

/-- What a command word that does not decode does (rules R82, R110). -/
def illegalWord (s : State) : Outcome := finish .illegalCommand s

/-- The next code placed before everything the host has still to do: a token before the rest of the stream that is being
run (a new stream of the greatest length where none is), a command word at the front of the host's moves. -/
def placeWord (nbits w : Nat) (s : State) : State :=
  match tableToken nbits w with
  | some _ =>
    match s.lzRun with
    | some (.inBody declared out input) => { s with lzRun := some (.inBody declared out (tableBytes nbits w ++ input)) }
    | some (.atHeader _) => { s with lzRun := some (.inBody (BitVec.allOnes 32) [] (tableBytes nbits w)) }
    | none => { s with lzRun := some (.inBody (BitVec.allOnes 32) [] (tableBytes nbits w)) }
  | none => { s with lzRun := none, host := .command (BitVec.ofNat 32 w) :: s.host }

end Sys2Proof.Machine
end

