-- ==== Sys2Proof/Machine/Step.lean ====
section
/-! DEFINITION. One step of the machine.

A stream that is being run item by item comes first: no host access falls inside a command (rules R67, R332). Otherwise
the host makes its next move: a command word is decoded and run to its end in this one step (rules R14, R110), a host access
is made, the reset input resets the block. With no move left the block waits (rule R311). -/

namespace Sys2Proof.Machine

/-- Reads the next item of the stream that is being run and runs it; a stream with no further item is corrupt. -/
def stepStream (r : LzRun) (s : State) : Outcome :=
  match lzFetch r with
  | .error _ => .next s.lzCorrupt
  | .ok (it, r') => exec it.toInstr { s with lzRun := some r' }

/-- Decodes a command word and runs it (rule R110). -/
def stepCommand (w : Word) (s : State) : Outcome :=
  match decodeCommand w with
  | .ok i => exec i s
  | .error _ => illegalWord s

/-- Makes one move of the host. -/
def stepMove (m : HostMove) (s : State) : Outcome :=
  match m with
  | .command w => stepCommand w s
  | .resetInput => resetInput s
  | .putIb bytes => putIb bytes s
  | .putTxBits bits => putTxBits bits s
  | .putWin samples => putWin samples s
  | .putSpec magnitudes => putSpec magnitudes s
  | .setSnrIn q => setSnrIn q s
  | .appendRxBits bits => appendRxBits bits s
  | .takeSamples n => takeSamples n s
  | .takePktQ n => takePktQ n s

/-- One step. -/
def step (s : State) : Host.Outcome State Fault Refusal :=
  match s.lzRun with
  | some r => stepStream r s
  | none =>
    match s.host with
    | [] => .next s
    | m :: moves => stepMove m { s with host := moves }

/-- `s` with the `nbits`-bit code `w` as the next one the step meets (log entry 8). -/
def State.withFetchWord (s : State) (nbits w : Nat) : State := placeWord nbits w s

end Sys2Proof.Machine
end

