-- ==== Sys2Proof/Machine/Pseudo.lean ====
section
/-! DEFINITION. The pseudo-instructions of rule R85. The host or the assembler expands them; the block sees the expanded
commands only. -/

namespace Sys2Proof.Machine

/-- Runs commands one after another. -/
def runAll : List Instr → State → Outcome
  | [], s => .next s
  | i :: is, s =>
    match exec i s with
    | .next t => runAll is t
    | .fault f => .fault f
    | .refused r => .refused r

/-- Repeats a command until it returns `Idle`, at most `fuel` times. -/
def repeatUntilIdle (i : Instr) : Nat → State → Outcome
  | 0, s => .next s
  | fuel + 1, s =>
    match exec i s with
    | .next t => if t.result = ResultCode.idle.word then .next t else repeatUntilIdle i fuel t
    | .fault f => .fault f
    | .refused r => .refused r

/-- `PROFILE n, spacing, ms, k, bin`. -/
def profileCommands (n spacing ms k bin : Half) : List Instr :=
  [.csrw 0x00 n, .csrw 0x01 spacing, .csrw 0x02 ms, .csrw 0x03 k, .csrw 0x04 bin]

/-- `CRC16` of a byte string. -/
def crc16Commands (bytes : List Byte) : List Instr := .crcInit :: bytes.map .crcStep

/-- `MOD.RUN`: `ILV`, `SYMB`, then `MOD.SLOT` repeated `NUM_SLOTS` times (rule R171). DEDUCED (log entry 16): rule R85's
"until it returns `Idle` (that is `NUM_SLOTS` times)" names the same repetition, so the `MOD.SLOT` that would find no slot
left is not issued. -/
def modRun (s : State) : Outcome :=
  match runAll [.ilv, .symb] s with
  | .next t => runAll (List.replicate t.numSlots.toNat .modSlot) t
  | .fault f => .fault f
  | .refused r => .refused r

/-- `SYNC.RUN`: `SYNC.STEP` until it returns `Idle`. Every transition but F1 and F2 removes a bit from `RXBITS`, and F1
and F2 leave `Framed`, so twice the bits and two more are enough (rule R240). DESIGN CHOICE (log entry 16): a full `PKTQ` of
finite capacity makes F1 end with `RangeError` again and again, and the model stops after that many tries. -/
def syncRun (s : State) : Outcome := repeatUntilIdle .syncStep (2 * s.rxBits.length + 2) s

end Sys2Proof.Machine
end

