-- ==== Sys2Proof/Machine/RealValue.lean ====
section
/-! DEFINITION. The real numbers that samples stand for (rule R12), and the constraints of rule R7, one of which is on a
real number. The machine never computes with these: they say in what sense its exact arithmetic is that of the rules. -/

namespace Sys2Proof

/-- An open real: its whole part and its binary digits are whatever Config's opaque constants say, so it may be any real
number (log entry 4). -/
noncomputable def openReal (index : Nat) : ℝ :=
  (Config.openWhole index : ℝ) + Real.ofDigits fun j => if Config.openDigit index j then (1 : Fin 2) else 0

/-- The number a term stands for. -/
noncomputable def Tone.toReal (t : Tone) : ℝ :=
  (t.amp : ℝ) * Real.cos (2 * Real.pi * (t.arc : ℝ) / 88200) * (t.opens.map openReal).prod

/-- The number a sample stands for. -/
noncomputable def Sample.toReal (x : Sample) : ℝ := (x.map Tone.toReal).sum

/-- The constraints rule R7 puts on the parameters. -/
abbrev Config.Params.ok (p : Config.Params) : Prop :=
  0 < p.minPower ∧ p.minPower ≤ Config.fixedPower ∧ Config.fixedPower ≤ p.maxPower ∧ 0 ≤ Sample.toReal p.pskMinAmpl

namespace Machine

/-- A tone of rule R166 at sample `n`: `cos(2π·F·n/44100 + PHI)`, the phase given in turns. -/
noncomputable def toneReal (hz : Int) (phaseTurns : Rat) (n : Nat) : ℝ :=
  Real.cos (2 * Real.pi * (hz : ℝ) * ((n : ℝ) / 44100) + 2 * Real.pi * (phaseTurns : ℝ))

/-- `I_c` of rule R211 in real numbers. -/
noncomputable def correlationI (win : List Sample) (f : Nat) : ℝ :=
  (win.zipIdx.map fun wn => Sample.toReal wn.1 * Real.cos (2 * Real.pi * (f : ℝ) * (wn.2 : ℝ) / 44100)).sum

/-- `Q_c` of rule R211 in real numbers. -/
noncomputable def correlationQ (win : List Sample) (f : Nat) : ℝ :=
  -(win.zipIdx.map fun wn => Sample.toReal wn.1 * Real.sin (2 * Real.pi * (f : ℝ) * (wn.2 : ℝ) / 44100)).sum

end Machine

end Sys2Proof
end

