-- ==== Sys2Proof/Safety.lean ====
section
/-! DEFINITION. What a reader may rely on in every state a run reaches: the invariants of rule R49, those the register
descriptions add, the buffers within their capacities, and the shape of the model's own data. -/

namespace Sys2Proof.Machine

/-- R49 (a): each RW register holds its reset value or a legal value (rules R24 to R30). The registers 0x01 and 0x02 hold
any value: 0 is their reset value and every other value is legal. -/
structure RegistersLegal (s : State) : Prop where
  numChannels : s.numChannels.toNat ∈ [0, 4, 8, 12, 16]
  bitsPerSymbol : s.bitsPerSymbol.toNat ∈ [0, 1, 2, 3]
  useBinaryPayload : s.useBinaryPayload.toNat ∈ [0, 1]
  signalThreshold : s.signalThreshold.toNat ≤ 255
  adaptivePowerEn : s.adaptivePowerEn.toNat ∈ [0, 1]

/-- R49 (b): what `CAL_VALID = 1` says; the carriers from channel `N` on are 0 (rule R21). -/
structure CalibrationHolds (s : State) : Prop where
  profile : s.profileOk = true
  lowest : 2000 ≤ s.carrierHz 0
  spaced : ∀ c : Fin 16, c.val < s.n → s.carrierHz c = s.carrierHz 0 + c.val * s.channelSpacingHz.toNat
  highest : ∀ c : Fin 16, c.val < s.n → s.carrierHz c ≤ 10000
  unused : ∀ c : Fin 16, s.n ≤ c.val → s.carrierHz c = 0

/-- R49 (c): what `ILV_VALID = 1` says; the common length fits a 32-bit counter (rule R161). -/
structure StreamsHold (s : State) : Prop where
  profile : s.profileOk = true
  common : ∀ c : Fin 16, c.val < s.n → (s.stream.get c).length = (s.stream.get 0).length
  fits : (s.stream.get 0).length < 2 ^ 32
  unused : ∀ c : Fin 16, s.n ≤ c.val → s.stream.get c = []

/-- R49 (d): what `SYM_VALID = 1` says. -/
structure SymbolsHold (s : State) : Prop where
  streams : s.ilvValid = true
  lengths : ∀ c : Fin 16, c.val < s.n → (s.syms.get c).length = s.numSlots.toNat
  entries : ∀ c : Fin 16, c.val < s.n → ∀ m ∈ s.syms.get c, m < 2 ^ s.k
  unused : ∀ c : Fin 16, s.n ≤ c.val → s.syms.get c = []

/-- No buffer holds more than its capacity (rules R7, R40). -/
structure WithinCapacities (s : State) : Prop where
  ib : s.params.capacities.ib.allows s.ib.length = true
  ob : s.params.capacities.ob.allows s.ob.length = true
  txBits : s.params.capacities.txBits.allows s.txBits.length = true
  stream : ∀ c, s.params.capacities.stream.allows (s.stream.get c).length = true
  syms : ∀ c, s.params.capacities.syms.allows (s.syms.get c).length = true
  samples : s.params.capacities.samples.allows s.samples.length = true
  win : s.params.capacities.win.allows s.win.length = true
  rxBits : s.params.capacities.rxBits.allows s.rxBits.length = true
  pktQ : s.params.capacities.pktQ.allows s.pktQ.length = true

/-- The invariant of the block: rule R49 (a) to (f), the counters of rule R35, the reserved bits of rule R32 and the codes
of rule R282, the bound of rule R238 on `PKTBUF`, the capacities of rule R40, the cells of `SPEC`, the constraints of
rule R7 on the parameters. -/
structure Inv (s : State) : Prop where
  registers : RegistersLegal s
  calibration : s.calValid = true → CalibrationHolds s
  streams : s.ilvValid = true → StreamsHold s
  symbols : s.symValid = true → SymbolsHold s
  slots : s.slotIdx.toNat ≤ s.numSlots.toNat
  hunting : s.syncState = .hunting → s.pktBuf = []
  packet : s.pktBuf.length ≤ 5001
  capacities : WithinCapacities s
  power : s.params.minPower ≤ s.power ∧ s.power ≤ s.params.maxPower
  errBits : s.err &&& 0xFF41 = 0
  resultCode : s.result.toNat ≤ 7
  spectrum : Memory.wf s.spec = true
  parameters : s.params.ok

/-- A state is safe when the next step does not fault. -/
def Safe (s : State) : Prop := ∀ f : Fault, step s ≠ .fault f

end Sys2Proof.Machine
end

