-- ==== Sys2Proof/Certificates/Slice0/Obligations.lean ====
section
/-! DEFINITION. The statements about the block. Each docstring names the rules it formalises. A conclusion of the form
`exec i s = .next { s with … }` says what the command writes and that nothing else changes. -/

open Sys2Proof Sys2Proof.Machine

/-! ## Words the statements use -/

/-- The command rows of spec/opcode_table.json: match and mask. -/
def Sys2Proof.commandRows : List (Word × Word) :=
  [(0x00000000, 0xFFFFFFFF), (0x01000000, 0xFFFFFFFF), (0x02000000, 0xFF000000), (0x03000000, 0xFF00FFFF),
   (0x04000000, 0xFFFF0000), (0x10000000, 0xFFFFFFFF), (0x11000000, 0xFFFFFF00), (0x12000000, 0xFFFFFFFF),
   (0x13000000, 0xFFFFFFFF), (0x14000000, 0xFFFFFFFF), (0x15000000, 0xFFFFFFFF)] ++
  [(0x20000000, 0xFFFFFFFF), (0x21000000, 0xFFFFFFFF), (0x22000000, 0xFFFFFFFF), (0x23000000, 0xFFFFFFFF),
   (0x24000000, 0xFFFFFFFF), (0x30000000, 0xFFFFFFFF), (0x31000000, 0xFFFFFFFF), (0x40000000, 0xFFFFFFFF),
   (0x41000000, 0xFFFFFFFF), (0x50000000, 0xFFFFFFFF)]

/-- The `l` bytes at the cursor `i` agree with those `d` back, within the lookahead and the data (rule R138). -/
def Sys2Proof.Machine.AgreesFor (b : List Byte) (i d l : Nat) : Prop :=
  l ≤ 18 ∧ i + l ≤ b.length ∧ ∀ j < l, b[i - d + j]? = b[i + j]?

/-- The pattern `10101010` stands at index `p` (rule R231). -/
def Sys2Proof.Machine.SyncAt (bits : List Bit) (p : Nat) : Prop :=
  p + 8 ≤ bits.length ∧ (bits.drop p).take 8 = [true, false, true, false, true, false, true, false]

/-- What a command leaves that ends with `RangeError`: `RESULT = 7`, `ERR` bit 7, and no other change (rules R40, R282). -/
def Sys2Proof.Machine.outOfRange (s : State) : Outcome := .next { s with result := 7, err := s.err ||| 0x0080 }

/-- The ideal sample of rule R168: the sum over the channels `c < N` of `A·cos(2π·F·n/44100 + PHI)`. -/
noncomputable def Sys2Proof.Machine.idealSlotSample (s : State) (n : Nat) : ℝ :=
  ((activeChannels s.n).map fun c =>
    let m := ((s.syms.get c)[s.slotIdx.toNat]?).getD 0
    let f : Int := s.carrierHz c
    ((s.effPower / (s.n : Rat) : Rat) : ℝ) *
      (if s.k = 1 then toneReal (if m = 1 then f + 100 else f - 100) 0 n
       else toneReal f ((m : Rat) / 2 ^ s.k) n)).sum

/-- The chord of rule R174: the unmodulated carriers. -/
noncomputable def Sys2Proof.Machine.idealChordSample (s : State) (n : Nat) : ℝ :=
  ((activeChannels s.n).map fun c =>
    ((s.effPower / (s.n : Rat) : Rat) : ℝ) * toneReal (s.carrierHz c : Int) 0 n).sum

/-- The projection of rule R212 in real numbers. -/
noncomputable def Sys2Proof.Machine.idealProjection (i q : ℝ) (k m : Nat) : ℝ :=
  i * Real.cos (2 * Real.pi * (m : ℝ) / 2 ^ k) + q * Real.sin (2 * Real.pi * (m : ℝ) / 2 ^ k)

/-! ## Encodings -/

/-- Decoding the code of a well-formed instruction gives it back, every operand at every value (rules R80, R81, R86 to
R89). -/
def Obligations.DecodeInvertsEncode : Prop :=
  ∀ i : Instr, i.wellFormed = true → decode (encode i) = .ok i

/-- A code that decodes is the code of the instruction it decodes to, and that instruction is well-formed: one meaning for
each code, and one code for each meaning (rules R80 to R82, R86 to R89). -/
def Obligations.EncodeInvertsDecode : Prop :=
  ∀ (c : Code) (i : Instr), decode c = .ok i → i.wellFormed = true ∧ encode i = c

/-- Words written out from the table of rule R81 and from vectors V-ENC. -/
def Obligations.TableWordsDecodeAsWritten : Prop :=
  decodeCommand 0x00000000 = .ok .nop ∧ decodeCommand 0x02030002 = .ok (.csrw 0x03 2) ∧
  decodeCommand 0x03050000 = .ok (.csrr 0x05) ∧ decodeCommand 0x040007D0 = .ok (.ldcal 2000) ∧
  decodeCommand 0x11000048 = .ok (.crcStep 0x48) ∧ decodeCommand 0x20000000 = .ok .ilv ∧
  decodeCommand 0x31000000 = .ok .demIq ∧ decodeCommand 0x40000000 = .ok .syncStep ∧
  decodeCommand 0x50000000 = .ok .frame ∧ decodeCommand 0x03050001 = .error .reservedField ∧
  decodeCommand 0x16000000 = .error .unknownOpcode ∧
  decode (.token [0xFF, 0x00, 0x02, 0x08]) = .ok (.lzMatch 2 8) ∧ decode (.token [0xFF, 0, 0, 1]) = .ok .lzEscape ∧
  decode (.header [0, 0, 1, 0]) = .ok (.lzHeader 256) ∧ decode (.token [0xFF, 0, 0, 2]) = .error .badEscape

/-- Rule R82: a word is legal exactly when a row of the table matches it, and every other word ends with `IllegalCommand`,
sets `ERR` bit 1 and changes nothing else. -/
def Obligations.WordsOutsideTheTableAreIllegal : Prop :=
  ∀ w : Word,
    ((∃ i, decodeCommand w = .ok i) ↔ ∃ row ∈ commandRows, w &&& row.2 = row.1) ∧
    ∀ (s : State) (moves : List HostMove), s.lzRun = none → s.host = .command w :: moves →
      (∀ row ∈ commandRows, w &&& row.2 ≠ row.1) →
      step s = .next { s with host := moves, result := 1, err := s.err ||| 0x0002 }

/-- Rule R98 and R87 to R89: a token is four bytes when its first byte is 0xFF and one byte otherwise. -/
def Obligations.FirstByteTellsTheTokenLength : Prop :=
  ∀ (z rest : List Byte) (it : LzItem), decodeToken z = .ok (it, rest) →
    z = it.bytes ++ rest ∧ it.bytes.length = if z.head? = some 0xFF then 4 else 1

/-! ## The step -/

/-- A step with a decodable command word at the front of the host's moves is that command at the state after the word is
taken (rules R14, R110). -/
def Obligations.StepRunsTheDecodedCommand : Prop :=
  ∀ (s : State) (w : Word) (moves : List HostMove) (i : Instr), s.lzRun = none → s.host = .command w :: moves →
    decodeCommand w = .ok i → step s = exec i { s with host := moves }

/-- While a stream is run item by item, a step runs the next item at the state after its bytes; a stream that has none
ends with `CorruptStream` and an empty `OB` (rules R140, R141). The item view of the decoder is the model's (log entry 8). -/
def Obligations.StepRunsTheNextStreamItem : Prop :=
  ∀ (s : State) (r : LzRun), s.lzRun = some r →
    (∀ it r', lzFetch r = .ok (it, r') → step s = exec it.toInstr { s with lzRun := some r' }) ∧
    (∀ e, lzFetch r = .error e →
      step s = .next { s with ob := [], lzRun := none, result := 4, err := s.err ||| 0x0010 })

/-- Rules R68, R311: what the host's accesses do, and that the block waits when there is no move. Taking more elements than
there are takes all (log entry 10); a write of more elements than a buffer of finite capacity can hold is no move of the
host (log entry 3). -/
def Obligations.HostMovesChangeWhatTheyName : Prop :=
  ∀ (s : State) (moves : List HostMove), s.lzRun = none →
    (s.host = [] → step s = .next s) ∧
    (∀ l, s.host = .putIb l :: moves → step s =
      if s.params.capacities.ib.allows l.length then .next { s with host := moves, ib := l }
      else .refused .notAHostMove) ∧
    (∀ l, s.host = .putTxBits l :: moves → step s =
      if s.params.capacities.txBits.allows l.length then .next { s with host := moves, txBits := l }
      else .refused .notAHostMove) ∧
    (∀ l, s.host = .putWin l :: moves → step s =
      if s.params.capacities.win.allows l.length then .next { s with host := moves, win := l }
      else .refused .notAHostMove) ∧
    (∀ q, s.host = .setSnrIn q :: moves → step s = .next { s with host := moves, snrIn := q }) ∧
    (∀ l, s.host = .appendRxBits l :: moves → step s =
      if s.params.capacities.rxBits.allows (s.rxBits.length + l.length) then
        .next { s with host := moves, rxBits := s.rxBits ++ l }
      else .refused .notAHostMove) ∧
    (∀ n, s.host = .takeSamples n :: moves →
      step s = .next { s with host := moves, samples := s.samples.drop n }) ∧
    (∀ n, s.host = .takePktQ n :: moves →
      step s = .next { s with host := moves, pktQ := s.pktQ.drop n })

/-- Rules R44, R68: the host's write of `SPEC` is 4096 magnitudes, and each bin then reads as the magnitude given for it;
the cells stay in canonical form. A list of another length is no move of the host. -/
def Obligations.SpectrumWriteSetsEveryBin : Prop :=
  ∀ (s : State) (moves : List HostMove) (l : List Byte), s.lzRun = none → s.host = .putSpec l :: moves →
    (l.length = 4096 → ∃ m, step s = .next { s with host := moves, spec := m } ∧ Memory.wf m = true ∧
      ∀ k, Memory.read m k = l.getD k 0) ∧
    (l.length ≠ 4096 → step s = .refused .notAHostMove)

/-! ## Configuration and system commands -/

/-- Rule R111. -/
def Obligations.NopWritesResultOnly : Prop :=
  decodeCommand 0x00000000 = .ok .nop ∧ ∀ s : State, exec .nop s = .next { s with result := 0 }

/-- Rules R112, R310: `RESET` and the reset input make the same transition, to the reset state; the parameters the block was
built with and the host's further moves are no state of the block (log entry 2). -/
def Obligations.ResetRestoresTheResetState : Prop :=
  decodeCommand 0x01000000 = .ok .reset ∧
  (∀ s : State, exec .reset s = .next { State.reset with params := s.params, host := s.host }) ∧
  ∀ (s : State) (moves : List HostMove), s.lzRun = none → s.host = .resetInput :: moves →
    step s = .next { State.reset with params := s.params, host := moves }

/-- Rule R48: the table of reset values. -/
def Obligations.ResetValuesAreTheTable : Prop :=
  let z := State.reset
  z.numChannels = 0 ∧ z.channelSpacingHz = 0 ∧ z.symbolDurationMs = 0 ∧ z.bitsPerSymbol = 0 ∧
  z.useBinaryPayload = 0 ∧ z.signalThreshold = 80 ∧ z.adaptivePowerEn = 0 ∧ z.power = 1 / 10 ∧ z.snrIn = 15 ∧
  z.statusWord = 0 ∧ z.err = 0 ∧ z.result = 0 ∧ z.rdata = 0 ∧ z.crc = 0xFFFF ∧ z.sum = 0 ∧
  z.slotIdx = 0 ∧ z.numSlots = 0 ∧ (∀ c, z.carrier.get c = 0) ∧ z.calValid = false ∧ z.syncState = .hunting ∧
  z.ib = [] ∧ z.ob = [] ∧ z.txBits = [] ∧ (∀ c, z.stream.get c = []) ∧ (∀ c, z.syms.get c = []) ∧
  z.samples = [] ∧ z.win = [] ∧ z.rxBits = [] ∧ z.pktBuf = [] ∧ z.pktQ = [] ∧
  (∀ k, Memory.read z.spec k = 0) ∧ ∀ c, z.dec.get c = none

/-- Rules R24 to R30, R38, R113: for each number, the legal values and what a legal write changes; every other value is
`RangeError`, every other number `IllegalCommand`, and then nothing but `RESULT` and `ERR` changes. -/
def Obligations.CsrwWritesLegalValuesOnly : Prop :=
  (∀ (a : Byte) (v : Half), decodeCommand (0x02#8 ++ a ++ v) = .ok (.csrw a v)) ∧
  ∀ (s : State) (v : Half),
    let outOfRange : Outcome := .next { s with result := 7, err := s.err ||| 0x0080 }
    let invalidated : State :=
      { s with calValid := false, ilvValid := false, symValid := false, slotIdx := 0, numSlots := 0, result := 0 }
    (exec (.csrw 0x00 v) s =
      if v.toNat ∈ [4, 8, 12, 16] then .next { invalidated with numChannels := v } else outOfRange) ∧
    (exec (.csrw 0x01 v) s = if 1 ≤ v.toNat then .next { invalidated with channelSpacingHz := v } else outOfRange) ∧
    (exec (.csrw 0x02 v) s = if 1 ≤ v.toNat then .next { invalidated with symbolDurationMs := v } else outOfRange) ∧
    (exec (.csrw 0x03 v) s =
      if v.toNat ∈ [1, 2, 3] then .next { invalidated with bitsPerSymbol := v } else outOfRange) ∧
    (exec (.csrw 0x04 v) s =
      if v.toNat ∈ [0, 1] then .next { s with useBinaryPayload := v, result := 0 } else outOfRange) ∧
    (exec (.csrw 0x05 v) s =
      if v.toNat ≤ 255 then .next { s with signalThreshold := v, result := 0 } else outOfRange) ∧
    (exec (.csrw 0x06 v) s =
      if v.toNat ∈ [0, 1] then .next { s with adaptivePowerEn := v, result := 0 } else outOfRange) ∧
    ∀ a : Byte, 7 ≤ a.toNat → exec (.csrw a v) s = .next { s with result := 1, err := s.err ||| 0x0002 }

/-- Rules R38, R114: the value `RDATA` takes for each number, and that nothing but `RDATA` and `RESULT` changes; `RESULT` is
left alone when it is the register read; an unassigned number is `IllegalCommand`. -/
def Obligations.CsrrLoadsTheNumberedRegister : Prop :=
  (∀ a : Byte, decodeCommand (0x03#8 ++ a ++ 0#16) = .ok (.csrr a)) ∧
  ∀ s : State,
    let loads (a : Byte) (v : Word) : Prop := exec (.csrr a) s = .next { s with rdata := v, result := 0 }
    loads 0x00 (s.numChannels.setWidth 32) ∧ loads 0x01 (s.channelSpacingHz.setWidth 32) ∧
    loads 0x02 (s.symbolDurationMs.setWidth 32) ∧ loads 0x03 (s.bitsPerSymbol.setWidth 32) ∧
    loads 0x04 (s.useBinaryPayload.setWidth 32) ∧ loads 0x05 (s.signalThreshold.setWidth 32) ∧
    loads 0x06 (s.adaptivePowerEn.setWidth 32) ∧ loads 0x07 (s.statusWord.setWidth 32) ∧
    loads 0x08 (s.err.setWidth 32) ∧
    exec (.csrr 0x09) s = .next { s with rdata := s.result.setWidth 32 } ∧
    loads 0x0A (s.crc.setWidth 32) ∧ loads 0x0B (s.sum.setWidth 32) ∧ loads 0x0C s.slotIdx ∧
    loads 0x0D s.numSlots ∧ loads 0x0E s.rdata ∧
    loads 0x0F (BitVec.ofNat 32 (s.symbolDurationMs.toNat * 441 / 10)) ∧
    (∀ c : Fin 16, loads (BitVec.ofNat 8 (0x10 + c.val)) ((s.carrier.get c).setWidth 32)) ∧
    ∀ a : Byte, 0x20 ≤ a.toNat → exec (.csrr a) s = .next { s with result := 1, err := s.err ||| 0x0002 }

/-- Rule R31: the bits of `STATUS` as it reads. -/
def Obligations.StatusBitsAreTheTable : Prop :=
  ∀ s : State,
    (s.statusWord.getLsbD 0 = true ↔ s.syncState = .framed) ∧ s.statusWord.getLsbD 1 = s.calValid ∧
    s.statusWord.getLsbD 2 = s.ilvValid ∧ s.statusWord.getLsbD 3 = s.symValid ∧
    (s.statusWord.getLsbD 4 = true ↔ 0 < s.pktQ.length) ∧ s.statusWord.getLsbD 5 = s.slotYielded ∧
    ∀ i, 6 ≤ i → s.statusWord.getLsbD i = false

/-- Rule R115: `LDCAL` loads the carriers, or ends with `ConfigError` or `NoViableBand` and no other change. -/
def Obligations.LdcalLoadsTheCarriers : Prop :=
  (∀ imm : Half, decodeCommand (0x04#8 ++ 0#8 ++ imm) = .ok (.ldcal imm)) ∧
  ∀ (s : State) (imm : Half),
    let fits := 2000 ≤ imm.toNat ∧ imm.toNat + (s.n - 1) * s.channelSpacingHz.toNat ≤ 10000
    (s.profileOk = false → exec (.ldcal imm) s = .next { s with result := 2, err := s.err ||| 0x0004 }) ∧
    (s.profileOk = true → ¬fits → exec (.ldcal imm) s = .next { s with result := 3, err := s.err ||| 0x0008 }) ∧
    (s.profileOk = true → fits → ∃ x : Vector Half 16,
      exec (.ldcal imm) s = .next { s with carrier := x, calValid := true, result := 0 } ∧
      (∀ c : Fin 16, c.val < s.n → (x.get c).toNat = imm.toNat + c.val * s.channelSpacingHz.toNat) ∧
      ∀ c : Fin 16, s.n ≤ c.val → x.get c = 0)

/-! ## Codec -/

/-- Rules R130, R132, R133. -/
def Obligations.CrcStepIsEightShifts : Prop :=
  decodeCommand 0x10000000 = .ok .crcInit ∧
  (∀ b : Byte, decodeCommand (0x11#8 ++ 0#8 ++ 0#8 ++ b) = .ok (.crcStep b)) ∧
  (∀ h b : Byte, h ≠ 0 → decodeCommand (0x11#8 ++ 0#8 ++ h ++ b) = .error .reservedField) ∧
  ∀ (s : State) (b : Byte),
    exec .crcInit s = .next { s with crc := 0xFFFF, result := 0 } ∧
    exec (.crcStep b) s = .next { s with
      crc := (fun c : Half => if c.getLsbD 0 = true then (c >>> 1) ^^^ 0xA001 else c >>> 1)^[8] (s.crc ^^^ b.setWidth 16)
      result := 0 }

/-- Rule R134: `CRC.BUF` is `CRC.INIT` and then `CRC.STEP` of every byte of `IB` in order; nothing but `CRC` and `RESULT`
changes. -/
def Obligations.CrcBufIsInitThenSteps : Prop :=
  decodeCommand 0x12000000 = .ok .crcBuf ∧
  ∀ s : State, ∃ c : Half, exec .crcBuf s = .next { s with crc := c, result := 0 } ∧
    runAll (.crcInit :: s.ib.map .crcStep) s = exec .crcBuf s

/-- Rules R135, R136. -/
def Obligations.SumBufAddsTheBytes : Prop :=
  decodeCommand 0x13000000 = .ok .sumBuf ∧
  ∀ s : State, ∃ v : Half, exec .sumBuf s = .next { s with sum := v, result := 0 } ∧
    v.toNat = (s.ib.map BitVec.toNat).sum % 65536

/-- Rule R138: the match found is the longest in the window, and the nearest of the longest. -/
def Obligations.LzMatchIsLongestThenNearest : Prop :=
  ∀ (b : List Byte) (i : Nat), i < b.length →
    let f := Sys2Proof.Machine.lzMatch b i
    (f.len = 0 → f.dist = 0) ∧
    (f.len ≠ 0 → 1 ≤ f.dist ∧ f.dist ≤ min 4096 i ∧ AgreesFor b i f.dist f.len) ∧
    (∀ d l, 1 ≤ d → d ≤ min 4096 i → AgreesFor b i d l → l ≤ f.len) ∧
    ∀ d, 1 ≤ d → d < f.dist → ¬AgreesFor b i d f.len

/-- Rules R87 to R89: the tokens the encoder produces are well-formed, their distances 1 to 4096, their lengths 3 to 18. -/
def Obligations.EncoderTokensAreInBounds : Prop :=
  ∀ (b : List Byte) (it : LzItem), it ∈ lzTokensFrom b b.length 0 →
    it.wellFormed = true ∧ (∀ n, it ≠ .header n) ∧
    ∀ d l, it = .copy d l → 1 ≤ d.toNat ∧ d.toNat ≤ 4096 ∧ 3 ≤ l.toNat ∧ l.toNat ≤ 18

/-- Rule R139: `LZ.ENC` replaces `OB` with the length of `IB` in four bytes and then, at each cursor, a match of at least
three bytes, an escape for 0xFF, or the byte itself; an input of 2^32 bytes or more, or a stream that `OB` cannot hold, is
`RangeError`. -/
def Obligations.LzEncParsesGreedily : Prop :=
  decodeCommand 0x14000000 = .ok .lzEnc ∧
  ∀ s : State,
    (2 ^ 32 ≤ s.ib.length ∨ s.params.capacities.ob.allows (lzCompress s.ib).length = false →
      exec .lzEnc s = outOfRange s) ∧
    (s.ib.length < 2 ^ 32 →
      (s.params.capacities.ob.allows (lzCompress s.ib).length = true →
        exec .lzEnc s = .next { s with ob := lzCompress s.ib, result := 0 }) ∧
      ∃ tail : Nat → List Byte,
        lzCompress s.ib = [BitVec.ofNat 8 (s.ib.length / 2 ^ 24), BitVec.ofNat 8 (s.ib.length / 2 ^ 16),
          BitVec.ofNat 8 (s.ib.length / 2 ^ 8), BitVec.ofNat 8 s.ib.length] ++ tail 0 ∧
        (∀ i, s.ib.length ≤ i → tail i = []) ∧
        ∀ (i : Nat) (h : i < s.ib.length),
          let f := Sys2Proof.Machine.lzMatch s.ib i
          tail i =
            if 3 ≤ f.len then
              [0xFF, BitVec.ofNat 8 (f.dist / 256), BitVec.ofNat 8 f.dist, BitVec.ofNat 8 f.len] ++ tail (i + f.len)
            else if s.ib[i] = 0xFF then [0xFF, 0, 0, 1] ++ tail (i + 1)
            else [s.ib[i]] ++ tail (i + 1))

/-- Rules R40, R141: the command `LZ.DEC`; a failure empties `OB`; an output that `OB` cannot hold is `RangeError`. -/
def Obligations.LzDecReplacesOrEmptiesOb : Prop :=
  decodeCommand 0x15000000 = .ok .lzDec ∧
  ∀ s : State,
    (∀ out, lzDecompress s.ib = some out →
      (s.params.capacities.ob.allows out.length = true → exec .lzDec s = .next { s with ob := out, result := 0 }) ∧
      (s.params.capacities.ob.allows out.length = false → exec .lzDec s = outOfRange s)) ∧
    (lzDecompress s.ib = none → exec .lzDec s = .next { s with ob := [], result := 4, err := s.err ||| 0x0010 })

/-- `out'` is `out` with `l` bytes appended, each the byte `d` before it, bytes just written included (rule R140). -/
def Sys2Proof.Machine.CopiedFrom (out out' : List Byte) (d l : Nat) : Prop :=
  out'.length = out.length + l ∧ out'.take out.length = out ∧
    ∀ j < l, out'[out.length + j]? = out'[out.length + j - d]?

/-- Rule R140: `lz_decompress`. The header gives the declared length `n`; `loop n out z` is the decoder with the bytes `out`
written and the input `z` left. Each clause is one branch of the rule's loop. -/
def Obligations.DecoderFollowsTheLoop : Prop :=
  (∀ z : List Byte, z.length < 4 → lzDecompress z = none) ∧
  ∃ loop : Nat → List Byte → List Byte → Option (List Byte),
    (∀ (b0 b1 b2 b3 : Byte) (z : List Byte), lzDecompress (b0 :: b1 :: b2 :: b3 :: z) =
      loop (b0.toNat * 2 ^ 24 + b1.toNat * 2 ^ 16 + b2.toNat * 2 ^ 8 + b3.toNat) [] z) ∧
    ∀ (n : Nat) (out z : List Byte), n < 2 ^ 32 →
      (out.length = n → loop n out z = some out) ∧
      (out.length < n →
        loop n out [] = none ∧
        (∀ b : Byte, b ≠ 0xFF → loop n out (b :: z) = loop n (out ++ [b]) z) ∧
        (z.length < 3 → loop n out (0xFF :: z) = none) ∧
        loop n out (0xFF :: 0 :: 0 :: 1 :: z) = loop n (out ++ [0xFF]) z ∧
        (∀ l : Byte, l ≠ 1 → loop n out (0xFF :: 0 :: 0 :: l :: z) = none) ∧
        ∀ (hi lo l : Byte), hi.toNat * 256 + lo.toNat ≠ 0 →
          (out.length < hi.toNat * 256 + lo.toNat → loop n out (0xFF :: hi :: lo :: l :: z) = none) ∧
          (hi.toNat * 256 + lo.toNat ≤ out.length →
            ∀ out' : List Byte, CopiedFrom out out' (hi.toNat * 256 + lo.toNat) l.toNat →
              loop n out (0xFF :: hi :: lo :: l :: z) = if n < out'.length then none else loop n out' z))

/-- Rule R142: the round trip, for every byte list, bytes 0xFF included. -/
def Obligations.DecompressInvertsCompress : Prop :=
  ∀ b : List Byte, b.length < 2 ^ 32 → lzDecompress (lzCompress b) = some b

/-- The decoder run item by item (rules R47, R140) reaches the state the command `LZ.DEC` gives in one step. The item view
is the model's (log entry 8). -/
def Obligations.ItemRunRefinesLzDec : Prop :=
  ∀ s : State, s.lzRun = none → ∃ k, k ≤ s.ib.length + 1 ∧
    Host.Core.run Sys2Proof.core k { s with lzRun := some (.atHeader s.ib) } = exec .lzDec s

/-- Rules R86, R140: a header sets the declared length of a decoder that stands at its header; a declared length of 0 ends
it with an empty `OB`. -/
def Obligations.HeaderStartsTheDecoder : Prop :=
  ∀ (s : State) (n : Word) (input : List Byte), s.lzRun = some (.atHeader input) →
    exec (.lzHeader n) s =
      if n = 0 then .next { s with ob := [], lzRun := none, result := 0 }
      else .next { s with lzRun := some (.inBody n [] input) }

/-- Rules R87, R89, R140: a literal appends its byte and an escape appends 0xFF; the decoder ends when the declared length
is reached (with `RangeError` where `OB` cannot hold the output), and fails when it is passed. -/
def Obligations.LiteralAndEscapeAppendOneByte : Prop :=
  ∀ (s : State) (declared : Word) (out input : List Byte) (b : Byte), s.lzRun = some (.inBody declared out input) →
    let after (v : Byte) : Outcome :=
      if out.length + 1 < declared.toNat then .next { s with lzRun := some (.inBody declared (out ++ [v]) input) }
      else if out.length + 1 = declared.toNat then
        if s.params.capacities.ob.allows declared.toNat then
          .next { s with ob := out ++ [v], lzRun := none, result := 0 }
        else outOfRange { s with lzRun := none }
      else .next { s with ob := [], lzRun := none, result := 4, err := s.err ||| 0x0010 }
    exec (.lzLiteral b) s = after b ∧ exec .lzEscape s = after 0xFF

/-- Rules R88, R140: a match appends `length` bytes, each equal to the byte `distance` before it, also when it reads bytes
it has just written; a distance beyond the output is `CorruptStream`. -/
def Obligations.MatchCopiesFromTheOutput : Prop :=
  ∀ (s : State) (declared : Word) (out input : List Byte) (d : Half) (l : Byte), d ≠ 0 →
    s.lzRun = some (.inBody declared out input) →
    (out.length < d.toNat →
      exec (.lzMatch d l) s = .next { s with ob := [], lzRun := none, result := 4, err := s.err ||| 0x0010 }) ∧
    (d.toNat ≤ out.length → ∃ out' : List Byte, CopiedFrom out out' d.toNat l.toNat ∧
      exec (.lzMatch d l) s =
        if out'.length < declared.toNat then .next { s with lzRun := some (.inBody declared out' input) }
        else if out'.length = declared.toNat then
          if s.params.capacities.ob.allows declared.toNat then .next { s with ob := out', lzRun := none, result := 0 }
          else outOfRange { s with lzRun := none }
        else .next { s with ob := [], lzRun := none, result := 4, err := s.err ||| 0x0010 })

/-- The model's choice of log entry 8: an item where no decoder stands at it ends as rule R82 says of a word that is no
command. -/
def Obligations.ItemOutsideAStreamIsIllegal : Prop :=
  ∀ (s : State) (n : Word) (b l : Byte) (d : Half), s.lzRun = none →
    let illegal : Outcome := .next { s with result := 1, err := s.err ||| 0x0002 }
    exec (.lzHeader n) s = illegal ∧ exec (.lzLiteral b) s = illegal ∧ exec (.lzMatch d l) s = illegal ∧
    exec .lzEscape s = illegal

/-! ## Modulator -/

/-- Rules R160, R161: `ILV` gives bit `c + j·N` of `TXBITS` to element `j` of stream `c`, zero where there is none; with 2^32
bits or more, or streams that the buffers cannot hold (rule R40), it ends with `RangeError`. -/
def Obligations.IlvDistributesRoundRobin : Prop :=
  decodeCommand 0x20000000 = .ok .ilv ∧
  (∀ s : State, s.profileOk = false → exec .ilv s = .next { s with result := 2, err := s.err ||| 0x0004 }) ∧
  ∀ s : State, s.profileOk = true →
    let p := (s.txBits.length + s.n - 1) / s.n
    (2 ^ 32 ≤ s.txBits.length ∨ s.params.capacities.stream.allows p = false → exec .ilv s = outOfRange s) ∧
    (s.txBits.length < 2 ^ 32 → s.params.capacities.stream.allows p = true → ∃ st : Vector (List Bit) 16,
      exec .ilv s = .next { s with
        stream := st, ilvValid := true, symValid := false, slotIdx := 0, numSlots := 0, result := 0 } ∧
      (∀ c : Fin 16, s.n ≤ c.val → st.get c = []) ∧
      ∀ c : Fin 16, c.val < s.n → (st.get c).length = p ∧
        ∀ j < (st.get c).length, (st.get c).getD j false = s.txBits.getD (c.val + j * s.n) false)

/-- Rules R162, R163: `SYMB` forms each symbol from `K` stream bits, the first the most significant, zeros at the tail; where
a list of symbols is longer than the buffers can hold (rule R40), it ends with `RangeError`. -/
def Obligations.SymbFormsSymbolsMsbFirst : Prop :=
  decodeCommand 0x21000000 = .ok .symb ∧
  (∀ s : State, s.ilvValid = false → exec .symb s = .next { s with result := 2, err := s.err ||| 0x0004 }) ∧
  (∀ s : State, s.ilvValid = true →
    (∃ c : Fin 16, c.val < s.n ∧
      s.params.capacities.syms.allows (((s.stream.get c).length + s.k - 1) / s.k) = false) →
    exec .symb s = outOfRange s) ∧
  ∀ s : State, s.ilvValid = true →
    (∀ c : Fin 16, c.val < s.n →
      s.params.capacities.syms.allows (((s.stream.get c).length + s.k - 1) / s.k) = true) →
    ∃ sy : Vector (List Nat) 16,
    exec .symb s = .next { s with
      syms := sy, numSlots := BitVec.ofNat 32 (((s.stream.get 0).length + s.k - 1) / s.k), slotIdx := 0,
      symValid := true, result := 0 } ∧
    (∀ c : Fin 16, s.n ≤ c.val → sy.get c = []) ∧
    ∀ c : Fin 16, c.val < s.n → (sy.get c).length = ((s.stream.get c).length + s.k - 1) / s.k ∧
      ∀ (i : Nat) (h : i < (sy.get c).length), (sy.get c)[i] < 2 ^ s.k ∧
        ∀ j < s.k, ((sy.get c)[i]).testBit (s.k - 1 - j) = (s.stream.get c).getD (i * s.k + j) false

/-- The buffers `STREAM` and `SYMS` can hold what `ILV` and `SYMB` make of `TXBITS` (rule R40). -/
def Sys2Proof.Machine.RoomForSymbols (s : State) : Prop :=
  let p := (s.txBits.length + s.n - 1) / s.n
  s.params.capacities.stream.allows p = true ∧ s.params.capacities.syms.allows ((p + s.k - 1) / s.k) = true

/-- Rule R164: after `ILV` and `SYMB`, bit `j` of symbol `i` of channel `c` is input bit `(i·K + j)·N + c`, or 0. -/
def Obligations.SymbolBitsCarryTheInputBits : Prop :=
  ∀ s : State, s.profileOk = true → s.txBits.length < 2 ^ 32 → RoomForSymbols s → ∃ t, runAll [.ilv, .symb] s = .next t ∧
    t.numSlots.toNat = ((s.txBits.length + s.n - 1) / s.n + s.k - 1) / s.k ∧
    s.txBits.length ≤ t.numSlots.toNat * s.k * s.n ∧
    t.numSlots.toNat * s.k * s.n ≤ s.txBits.length + (s.n * s.k - 1) ∧
    ∀ c : Fin 16, c.val < s.n → (t.syms.get c).length = t.numSlots.toNat ∧
      ∀ (i : Nat) (h : i < (t.syms.get c).length), ∀ j < s.k,
        ((t.syms.get c)[i]).testBit (s.k - 1 - j) = s.txBits.getD ((i * s.k + j) * s.n + c.val) false

/-- Rules R165 to R169: `MOD.SLOT` appends the quantised ideal samples of the slot and counts it; with no slot left it is
`Idle`, and without room in `SAMPLES` (rule R40) it ends with `RangeError`. -/
def Obligations.ModSlotAppendsTheIdealSlot : Prop :=
  decodeCommand 0x22000000 = .ok .modSlot ∧
  (∀ s : State, s.symValid = false ∨ s.calValid = false →
    exec .modSlot s = .next { s with result := 2, err := s.err ||| 0x0004 }) ∧
  ∀ s : State, s.symValid = true → s.calValid = true →
    (s.numSlots.toNat ≤ s.slotIdx.toNat → exec .modSlot s = .next { s with result := 6 }) ∧
    (s.slotIdx.toNat < s.numSlots.toNat → s.k ∈ [1, 2, 3] →
      (∀ c : Fin 16, c.val < s.n → s.slotIdx.toNat < (s.syms.get c).length) →
      (s.params.capacities.samples.allows (s.samples.length + s.symbolDurationMs.toNat * 441 / 10) = false →
        exec .modSlot s = outOfRange s) ∧
      (s.params.capacities.samples.allows (s.samples.length + s.symbolDurationMs.toNat * 441 / 10) = true →
      ∃ ideal : List Sample,
        exec .modSlot s = .next { s with
          samples := s.samples ++ ideal.map (quantise s.params.quantiser), slotIdx := s.slotIdx + 1, result := 0 } ∧
        ideal.length = s.symbolDurationMs.toNat * 441 / 10 ∧
        ∀ (n : Nat) (h : n < ideal.length), Sample.toReal ideal[n] = idealSlotSample s n))

/-- Rules R167, R181: each tone has amplitude `eff_power / N`, so a sample of a slot is at most `eff_power`, which lies
between `MIN_POWER` and `MAX_POWER`. -/
def Obligations.SlotSamplesStayWithinPower : Prop :=
  ∀ s : State, Inv s → s.params.minPower ≤ s.effPower ∧ s.effPower ≤ s.params.maxPower ∧
    (∀ y ∈ chord s.amplitude s.slotTones s.ns, ∀ tone ∈ y, tone.amp = s.effPower / (s.n : Rat)) ∧
    ∀ y ∈ chord s.amplitude s.slotTones s.ns, |Sample.toReal y| ≤ ((s.effPower : Rat) : ℝ)

/-- Rules R174, R175: `MOD.PRE` appends three chords of 6615 samples with 2205 samples of silence between them; without room
in `SAMPLES` (rule R40) it ends with `RangeError`. -/
def Obligations.ModPreAppendsThePreamble : Prop :=
  decodeCommand 0x23000000 = .ok .modPre ∧
  (∀ s : State, s.calValid = false → exec .modPre s = .next { s with result := 2, err := s.err ||| 0x0004 }) ∧
  (∀ s : State, s.calValid = true → s.params.capacities.samples.allows (s.samples.length + 24255) = false →
    exec .modPre s = outOfRange s) ∧
  ∀ s : State, s.calValid = true → s.params.capacities.samples.allows (s.samples.length + 24255) = true →
    ∃ ideal : List Sample,
    exec .modPre s = .next { s with samples := s.samples ++ ideal.map (quantise s.params.quantiser), result := 0 } ∧
    ideal.length = 24255 ∧
    ∀ (n : Nat) (h : n < ideal.length), Sample.toReal ideal[n] =
      if n % 8820 < 6615 then idealChordSample s (n % 8820) else 0

/-- The net effect of `MOD.RUN` (rule R171), the buffers having room (rule R40): the slots of the symbols that `ILV` and
`SYMB` leave in `SYMS`, in order, sample by sample; and no slot is left, so that one more `MOD.SLOT` is `Idle`. That the
final `RESULT` is 0 is the model's reading (log entry 16, DEDUCED): rule R171 repeats `MOD.SLOT` `NUM_SLOTS` times, while
rule R85's "until it returns `Idle`", taken to issue that one more, would leave 6. -/
def Obligations.ModRunEmitsEverySlot : Prop :=
  ∀ s : State, Inv s → s.calValid = true → s.txBits.length < 2 ^ 32 → RoomForSymbols s →
    let slots := ((s.txBits.length + s.n - 1) / s.n + s.k - 1) / s.k
    s.params.capacities.samples.allows (s.samples.length + slots * s.ns) = true → ∃ (t : State) (ideal : List Sample),
    modRun s = .next t ∧ (∃ u, runAll [.ilv, .symb] s = .next u ∧ t.syms = u.syms) ∧
    t.numSlots.toNat = slots ∧ t.slotIdx = t.numSlots ∧ t.result = 0 ∧ exec .modSlot t = .next { t with result := 6 } ∧
    t.samples = s.samples ++ ideal.map (quantise s.params.quantiser) ∧ ideal.length = t.numSlots.toNat * s.ns ∧
    ∀ (n : Nat) (h : n < ideal.length),
      Sample.toReal ideal[n] = idealSlotSample { t with slotIdx := BitVec.ofNat 32 (n / s.ns) } (n % s.ns)

/-- Rules R181, R182, R186: `PWR.UPD`. -/
def Obligations.PwrUpdStepsAndClamps : Prop :=
  decodeCommand 0x24000000 = .ok .pwrUpd ∧
  ∀ s : State,
    (s.adaptivePowerEn = 0 → exec .pwrUpd s = .next { s with result := 6 } ∧ s.effPower = 1 / 10) ∧
    (s.adaptivePowerEn ≠ 0 →
      exec .pwrUpd s = .next { s with
        power :=
          if 13 < s.snrIn ∧ s.snrIn < 17 then s.power
          else if s.snrIn < 15 then min s.params.maxPower (max s.params.minPower (s.power * (11 / 10)))
          else min s.params.maxPower (max s.params.minPower (s.power * (9 / 10)))
        result := 0 }) ∧
    (s.adaptivePowerEn = 1 → s.effPower = s.power)

/-! ## Demodulator -/

/-- Rule R201: `bin_of` is the nearest bin, a tie going up, and below 4096 for every frequency the block can use. -/
def Obligations.BinOfIsTheNearestBin : Prop :=
  ∀ f : Int, 2 * 44100 * binOf f - 44100 ≤ 2 * 8192 * f ∧ 2 * 8192 * f < 2 * 44100 * binOf f + 44100 ∧
    (1900 ≤ f → f ≤ 10100 → 0 ≤ binOf f ∧ binOf f < 4096)

/-- Rules R202, R203, R205: `DEM.TICK` decides every channel by its two bins, appends the decided bits in channel order, and
is `Idle` when every channel is silent; without room in `RXBITS` (rule R40) it ends with `RangeError`. -/
def Obligations.DemTickDecidesAndAppends : Prop :=
  decodeCommand 0x30000000 = .ok .demTick ∧
  (∀ s : State, s.profileOk = false ∨ s.calValid = false ∨ s.k ≠ 1 →
    exec .demTick s = .next { s with result := 2, err := s.err ||| 0x0004 }) ∧
  ∀ s : State, s.profileOk = true → s.calValid = true → s.k = 1 →
    (∀ c : Fin 16, c.val < s.n → 2000 ≤ s.carrierHz c ∧ s.carrierHz c ≤ 10000) →
    ∃ dec : Vector Decision 16,
      (∀ c : Fin 16, s.n ≤ c.val → dec.get c = none) ∧
      (∀ c : Fin 16, c.val < s.n →
        let m0 := (Memory.read s.spec (binOf ((s.carrierHz c : Int) - 100)).toNat).toNat
        let m1 := (Memory.read s.spec (binOf ((s.carrierHz c : Int) + 100)).toNat).toNat
        dec.get c = if max m0 m1 < s.signalThreshold.toNat then none else if m1 > m0 then some 1 else some 0) ∧
      ((∀ c : Fin 16, c.val < s.n → dec.get c = none) →
        exec .demTick s = .next { s with dec := dec, slotYielded := false, result := 6 }) ∧
      (¬(∀ c : Fin 16, c.val < s.n → dec.get c = none) →
        let bits := (activeChannels s.n).filterMap fun c => (dec.get c).map (· == 1)
        (s.params.capacities.rxBits.allows (s.rxBits.length + bits.length) = true →
          exec .demTick s = .next { s with
            dec := dec, slotYielded := true, result := 0, rxBits := s.rxBits ++ bits }) ∧
        (s.params.capacities.rxBits.allows (s.rxBits.length + bits.length) = false → exec .demTick s = outOfRange s))

/-- Rules R160, R162 and R204, the order of bits that rules R206 and R216 rest on: reading the slots made by `ILV` and `SYMB` one after another
with every channel deciding the symbol sent gives the input bits and then zeros. -/
def Obligations.DeinterleaveInvertsTheModulator : Prop :=
  ∀ s t : State, s.profileOk = true → s.n ∈ [4, 8, 12, 16] → s.txBits.length < 2 ^ 32 → RoomForSymbols s →
    runAll [.ilv, .symb] s = .next t →
    ((List.range t.numSlots.toNat).flatMap fun i =>
      (deinterleaveSlot (perChannel s.n none fun c => (t.syms.get c)[i]?) s.n s.k).getD []) =
    s.txBits ++ List.replicate (t.numSlots.toNat * s.k * s.n - s.txBits.length) false

/-- Rules R204, R215: `DEM.IQ` takes the decision of every channel, appends the bits of the deciding channels bit plane by bit
plane, and is `Idle` when every channel is silent; without room in `RXBITS` (rule R40) it ends with `RangeError`. -/
def Obligations.DemIqDecidesAndAppends : Prop :=
  decodeCommand 0x31000000 = .ok .demIq ∧
  (∀ s : State, s.profileOk = false ∨ s.calValid = false ∨ (s.k ≠ 2 ∧ s.k ≠ 3) ∨ s.win.length ≠ s.ns →
    exec .demIq s = .next { s with result := 2, err := s.err ||| 0x0004 }) ∧
  ∀ s : State, s.profileOk = true → s.calValid = true → s.k = 2 ∨ s.k = 3 → s.win.length = s.ns →
    ∃ dec : Vector Decision 16,
      (∀ c : Fin 16, s.n ≤ c.val → dec.get c = none) ∧
      (∀ c : Fin 16, c.val < s.n → dec.get c = Correlation.decide
        ⟨correlateI s.win (s.carrierHz c), correlateQ s.win (s.carrierHz c)⟩ s.params.pskMinAmpl s.ns s.k) ∧
      ((∀ c : Fin 16, c.val < s.n → dec.get c = none) →
        exec .demIq s = .next { s with dec := dec, slotYielded := false, result := 6 }) ∧
      (¬(∀ c : Fin 16, c.val < s.n → dec.get c = none) →
        let bits := (List.range s.k).flatMap fun j =>
          (activeChannels s.n).filterMap fun c => (dec.get c).map fun m => m.testBit (s.k - 1 - j)
        (s.params.capacities.rxBits.allows (s.rxBits.length + bits.length) = true →
          exec .demIq s = .next { s with
            dec := dec, slotYielded := true, result := 0, rxBits := s.rxBits ++ bits }) ∧
        (s.params.capacities.rxBits.allows (s.rxBits.length + bits.length) = false → exec .demIq s = outOfRange s))

/-- Rule R211: the exact correlation sums are the real sums of the rule. -/
def Obligations.CorrelationsAreTheRealSums : Prop :=
  ∀ (win : List Sample) (f : Nat),
    Sample.toReal (correlateI win f) = correlationI win f ∧ Sample.toReal (correlateQ win f) = correlationQ win f

/-- The canonical form of a sample is the same number; so a sample whose canonical form is empty is 0 (the exact arithmetic
of log entry 4). -/
def Obligations.CanonicalFormKeepsTheNumber : Prop :=
  ∀ x : Sample, Sample.toReal x.canon = Sample.toReal x ∧ (x.isZero = true → Sample.toReal x = 0)

/-- Rule R212: the decision is silent exactly below the amplitude; the point decided has the largest projection, and is the
least such point. The samples and the threshold may be any real numbers, the open ones included (log entries 4 and 7). -/
def Obligations.PskDecisionIsTheLeastLargestProjection : Prop :=
  ∀ (i q minAmpl : Sample) (ns k : Nat), 0 < ns → k = 2 ∨ k = 3 → 0 ≤ Sample.toReal minAmpl →
    let I := Sample.toReal i
    let Q := Sample.toReal q
    (Correlation.decide ⟨i, q⟩ minAmpl ns k = none ↔ (2 / (ns : ℝ)) * Real.sqrt (I ^ 2 + Q ^ 2) < Sample.toReal minAmpl) ∧
    ∀ m, Correlation.decide ⟨i, q⟩ minAmpl ns k = some m → m < 2 ^ k ∧
      (∀ m' < 2 ^ k, idealProjection I Q k m' ≤ idealProjection I Q k m) ∧
      ∀ m' < m, idealProjection I Q k m' < idealProjection I Q k m

/-! ## Synchronizer and framer -/

/-- Rules R231, R232, R239 in `Hunting`: the leftmost pattern locks; without one a stream of more than 1000 bits is cut to
its last 100; otherwise `Idle`. -/
def Obligations.HuntingLocksOnTheLeftmostPattern : Prop :=
  decodeCommand 0x40000000 = .ok .syncStep ∧
  ∀ s : State, s.syncState = .hunting →
    (∀ p, SyncAt s.rxBits p → (∀ q < p, ¬SyncAt s.rxBits q) →
      exec .syncStep s = .next { s with rxBits := s.rxBits.drop (p + 8), syncState := .framed, result := 0 }) ∧
    ((∀ p, ¬SyncAt s.rxBits p) → 1000 < s.rxBits.length →
      exec .syncStep s = .next { s with rxBits := s.rxBits.drop (s.rxBits.length - 100), result := 0 }) ∧
    ((∀ p, ¬SyncAt s.rxBits p) → s.rxBits.length ≤ 1000 → exec .syncStep s = .next { s with result := 6 })

/-- Rules R233 to R235, R238, R239 in `Framed`: deliver (`RangeError` without room in `PKTQ`, rule R40), else overflow, else
take one byte, else `Idle`. -/
def Obligations.FramedDeliversOverflowsOrAssembles : Prop :=
  ∀ s : State, s.syncState = .framed →
    (deliverable s.params.terminator s.pktBuf = true →
      (s.params.capacities.pktQ.allows (s.pktQ.length + 1) = true → exec .syncStep s = .next { s with
        pktQ := s.pktQ ++ [s.pktBuf], pktBuf := [], syncState := .hunting, result := 0 }) ∧
      (s.params.capacities.pktQ.allows (s.pktQ.length + 1) = false → exec .syncStep s = outOfRange s)) ∧
    (deliverable s.params.terminator s.pktBuf = false → 5000 < s.pktBuf.length → exec .syncStep s = .next { s with
      pktBuf := [], syncState := .hunting, result := 5, err := s.err ||| 0x0020 }) ∧
    (deliverable s.params.terminator s.pktBuf = false → s.pktBuf.length ≤ 5000 → 8 ≤ s.rxBits.length →
      ∃ b : Byte, (∀ j < 8, b.getLsbD (7 - j) = s.rxBits.getD j false) ∧ exec .syncStep s = .next { s with
        pktBuf := s.pktBuf ++ [b], rxBits := s.rxBits.drop 8, result := 0 }) ∧
    (deliverable s.params.terminator s.pktBuf = false → s.pktBuf.length ≤ 5000 → s.rxBits.length < 8 →
      exec .syncStep s = .next { s with result := 6 })

/-- Rules R236, R237, R91: when a buffer is deliverable, and what the default terminator is. -/
def Obligations.DeliverableIsNulOrTaggedRecord : Prop :=
  ∀ (t : Config.Terminator) (buf : List Byte),
    (deliverable t buf = true ↔
      (0 : Byte) ∈ buf ∨ (10 < buf.length ∧
        ∃ tag ∈ [[0x4D, 0x45, 0x54, 0x41, 0x3A], [0x44, 0x41, 0x54, 0x41, 0x3A], [0x45, 0x4E, 0x44, 0x3A]],
          ∃ p, (buf.drop p).take tag.length = tag ∧ recordTerminated t buf (p + tag.length) = true)) ∧
    ∀ q, recordTerminated .suffixByte buf q = true ↔ ∃ r, q ≤ r ∧ buf[r]? = some 0x55

/-- Rule R241. -/
def Obligations.SyncRstStartsASession : Prop :=
  decodeCommand 0x41000000 = .ok .syncRst ∧
  ∀ s : State, exec .syncRst s = .next { s with syncState := .hunting, rxBits := [], pktBuf := [], result := 0 }

/-- Rule R240: `SYNC.RUN` ends, with `Idle`, in a state where no transition is enabled. Each packet delivered but the one
`PKTBUF` may already hold takes a pattern of eight bits, so there is room in `PKTQ` for one packet and one more for every
eight bits (rule R40). -/
def Obligations.SyncRunEndsIdle : Prop :=
  ∀ s : State, s.params.capacities.pktQ.allows (s.pktQ.length + s.rxBits.length / 8 + 1) = true → ∃ t, syncRun s = .next t ∧ t.result = 6 ∧
    ((t.syncState = .hunting ∧ (∀ p, ¬SyncAt t.rxBits p) ∧ t.rxBits.length ≤ 1000) ∨
      (t.syncState = .framed ∧ t.rxBits.length < 8 ∧ deliverable t.params.terminator t.pktBuf = false ∧
        t.pktBuf.length ≤ 5000))

/-- Rules R90, R260, R261: `FRAME` writes the prefix, the bytes of the body most significant bit first, and the suffix;
with 2^32 bits or more, or more than `TXBITS` can hold (rule R40), it ends with `RangeError`. -/
def Obligations.FrameWritesPrefixBodySuffix : Prop :=
  decodeCommand 0x50000000 = .ok .frame ∧
  ∀ s : State,
    (2 ^ 32 ≤ 16 + 8 * s.ib.length ∨ s.params.capacities.txBits.allows (16 + 8 * s.ib.length) = false →
      exec .frame s = outOfRange s) ∧
    (16 + 8 * s.ib.length < 2 ^ 32 → s.params.capacities.txBits.allows (16 + 8 * s.ib.length) = true → ∃ f : List Bit, exec .frame s = .next { s with txBits := f, result := 0 } ∧
      f.length = 16 + 8 * s.ib.length ∧
      f.take 8 = [true, false, true, false, true, false, true, false] ∧
      f.drop (8 + 8 * s.ib.length) = [false, true, false, true, false, true, false, true] ∧
      ∀ (i : Nat) (h : i < s.ib.length), ∀ j < 8, f.getD (8 + 8 * i + j) false = (s.ib[i]).getLsbD (7 - j))

/-- Rule R263 under the default terminator: a framed body with no 0x00 and no 0x55 that starts with a tag and has at least
10 bytes is delivered as the body and the suffix byte. The bound of 5000 bytes is the model's (log entry 14): the rule names
none, and a longer body overflows first (rule R238). The zeros after the frame stay, up to 1000 of them; of more the
synchronizer, hunting again, keeps the last 100 (rule R232). `PKTQ` has room (rule R40). -/
def Obligations.FramedBodyIsDelivered : Prop :=
  ∀ (s : State) (body : List Byte) (pad : Nat), s.params.terminator = .suffixByte → s.syncState = .hunting →
    s.pktBuf = [] → s.params.capacities.pktQ.allows (s.pktQ.length + 1) = true → s.rxBits = frameBits body ++ List.replicate pad false →
    10 ≤ body.length → body.length ≤ 5000 → (0 : Byte) ∉ body → (0x55 : Byte) ∉ body →
    (∃ tag ∈ packetTags, tag <+: body) →
    syncRun s = .next { s with
      rxBits := List.replicate (if pad ≤ 1000 then pad else 100) false, pktQ := s.pktQ ++ [body ++ [0x55]], result := 6 }

/-! ## The whole machine -/

/-- The reset state meets the invariant. -/
def Obligations.ResetMeetsTheInvariant : Prop := Inv State.reset

/-- Rule R49 and the invariants beside it: every step keeps them. -/
def Obligations.StepKeepsTheInvariant : Prop :=
  ∀ s t : State, Inv s → step s = .next t → Inv t

/-- Rules R118, R281: under the invariant no command reads outside a buffer, so no step faults, and every instruction ends
in a next state. -/
def Obligations.NothingStopsTheMachine : Prop :=
  ∀ s : State, Inv s → Safe s ∧ ∀ i : Instr, ∃ t, exec i s = .next t

/-- Rule R283: which command can end with which code. A command that fills a buffer of finite capacity can also end with
`RangeError` (rules R40, R282), which the list, made for unbounded buffers, does not name. The last clause, on the four
items of a stream, is no row of the list: it is the model's choice (log entry 8). -/
def Obligations.CommandsEndWithListedCodes : Prop :=
  ∀ (i : Instr) (s t : State), exec i s = .next t →
    let c := s.params.capacities
    let full (b : Config.Capacity) : Prop := b ≠ none ∧ t.result = 7
    match i with
    | .nop | .reset | .crcInit | .crcStep _ | .crcBuf | .sumBuf | .syncRst => t.result = 0
    | .csrw _ _ => t.result = 0 ∨ t.result = 1 ∨ t.result = 7
    | .csrr a => if a = 0x09 then t.result = s.result else t.result = 0 ∨ t.result = 1
    | .ldcal _ => t.result = 0 ∨ t.result = 2 ∨ t.result = 3
    | .lzEnc | .frame => t.result = 0 ∨ t.result = 7
    | .lzDec => t.result = 0 ∨ t.result = 4 ∨ full c.ob
    | .ilv => t.result = 0 ∨ t.result = 2 ∨ t.result = 7
    | .symb => t.result = 0 ∨ t.result = 2 ∨ full c.syms
    | .modPre => t.result = 0 ∨ t.result = 2 ∨ full c.samples
    | .modSlot => t.result = 0 ∨ t.result = 2 ∨ t.result = 6 ∨ full c.samples
    | .demTick | .demIq => t.result = 0 ∨ t.result = 2 ∨ t.result = 6 ∨ full c.rxBits
    | .pwrUpd => t.result = 0 ∨ t.result = 6
    | .syncStep => t.result = 0 ∨ t.result = 5 ∨ t.result = 6 ∨ full c.pktQ
    | .lzHeader _ | .lzLiteral _ | .lzMatch _ _ | .lzEscape =>
      t.result = s.result ∨ t.result = 0 ∨ t.result = 1 ∨ t.result = 4 ∨ full c.ob

/-- Rules R40, R282 on finite capacities: no command leaves more in a buffer than it can hold, unless the buffer is as it was
before; and one that ends with `RangeError` changes nothing but `RESULT` and `ERR` (and `lzRun`, where an item of a stream
ends so). -/
def Obligations.CommandsStayWithinCapacities : Prop :=
  ∀ (i : Instr) (s t : State), exec i s = .next t →
    let c := s.params.capacities
    (t.ob = s.ob ∨ c.ob.allows t.ob.length = true) ∧ (t.txBits = s.txBits ∨ c.txBits.allows t.txBits.length = true) ∧
    (t.stream = s.stream ∨ ∀ k, c.stream.allows (t.stream.get k).length = true) ∧
    (t.syms = s.syms ∨ ∀ k, c.syms.allows (t.syms.get k).length = true) ∧
    (t.samples = s.samples ∨ c.samples.allows t.samples.length = true) ∧
    (t.rxBits.length ≤ s.rxBits.length ∨ c.rxBits.allows t.rxBits.length = true) ∧
    (t.pktQ = s.pktQ ∨ c.pktQ.allows t.pktQ.length = true) ∧
    (i = .reset ∨ t.ib = s.ib ∧ t.win = s.win) ∧
    (t.result = 7 → s.result ≠ 7 → t = { s with result := 7, err := s.err ||| 0x0080, lzRun := t.lzRun })

/-- Rules R32, R286: no instruction but `RESET` clears a bit of `ERR`, and a command that ends sets the bit of the code it
ends with, where that code is an error. (`CSRR 0x09` writes no code; an item that leaves a stream running has not ended.) -/
def Obligations.ErrBitsAreSticky : Prop :=
  ∀ (i : Instr) (s t : State), exec i s = .next t → i ≠ .reset →
    t.err &&& s.err = s.err ∧
    (i = .csrr 0x09 → t.err = s.err) ∧
    (i ≠ .csrr 0x09 → t.lzRun = none →
      t.err = if t.result.toNat ∈ [1, 2, 3, 4, 5, 7] then s.err ||| (1 <<< t.result.toNat) else s.err)

/-- Rule R285: a command that ends with an error writes its code to `RESULT`, sets its `ERR` bit and changes nothing else, but
for the failure of `LZ.DEC`, which empties `OB`, and the overflow of `SYNC.STEP`, which empties `PKTBUF` and goes
`Hunting`; no other command ends with their codes. -/
def Obligations.ErrorsArePrecise : Prop :=
  ∀ (i : Instr) (s t : State), exec i s = .next t → i ≠ .csrr 0x09 → s.lzRun = none →
    (t.result.toNat ∈ [1, 2, 3, 7] → t = { s with result := t.result, err := s.err ||| (1 <<< t.result.toNat) }) ∧
    (t.result = 4 → i = .lzDec ∧ t = { s with ob := [], result := 4, err := s.err ||| 0x0010 }) ∧
    (t.result = 5 → i = .syncStep ∧
      t = { s with pktBuf := [], syncState := .hunting, result := 5, err := s.err ||| 0x0020 })

/-- Rules R21, R22, R31, R36, R41 to R46: each piece of state is written only by the commands the rules name. -/
def Obligations.StateIsWrittenOnlyByItsWriters : Prop :=
  ∀ (i : Instr) (s t : State), exec i s = .next t → i ≠ .reset →
    t.ib = s.ib ∧ (∀ k, Memory.read t.spec k = Memory.read s.spec k) ∧ t.win = s.win ∧ t.snrIn = s.snrIn ∧
    t.params = s.params ∧ t.host = s.host ∧
    ((∀ a v, i ≠ .csrw a v) →
      t.numChannels = s.numChannels ∧ t.channelSpacingHz = s.channelSpacingHz ∧
      t.symbolDurationMs = s.symbolDurationMs ∧ t.bitsPerSymbol = s.bitsPerSymbol ∧
      t.useBinaryPayload = s.useBinaryPayload ∧ t.signalThreshold = s.signalThreshold ∧
      t.adaptivePowerEn = s.adaptivePowerEn) ∧
    ((∀ f, i ≠ .ldcal f) → t.carrier = s.carrier) ∧
    ((∀ a v, i ≠ .csrw a v) → (∀ f, i ≠ .ldcal f) → t.calValid = s.calValid) ∧
    (i ≠ .crcInit → (∀ b, i ≠ .crcStep b) → i ≠ .crcBuf → t.crc = s.crc) ∧
    (i ≠ .sumBuf → t.sum = s.sum) ∧ (i ≠ .pwrUpd → t.power = s.power) ∧
    ((∀ a, i ≠ .csrr a) → t.rdata = s.rdata) ∧ (i ≠ .frame → t.txBits = s.txBits) ∧
    (i ≠ .lzEnc → i ≠ .lzDec → s.lzRun = none → t.ob = s.ob) ∧
    (s.lzRun = none → t.lzRun = none) ∧
    ((∀ a v, i ≠ .csrw a v) → i ≠ .ilv → t.ilvValid = s.ilvValid) ∧
    ((∀ a v, i ≠ .csrw a v) → i ≠ .ilv → i ≠ .symb → t.symValid = s.symValid ∧ t.numSlots = s.numSlots) ∧
    ((∀ a v, i ≠ .csrw a v) → i ≠ .ilv → i ≠ .symb → i ≠ .modSlot → t.slotIdx = s.slotIdx) ∧
    (i ≠ .ilv → t.stream = s.stream) ∧ (i ≠ .symb → t.syms = s.syms) ∧
    (i ≠ .modSlot → i ≠ .modPre → t.samples = s.samples) ∧
    (i ≠ .demTick → i ≠ .demIq → t.dec = s.dec ∧ t.slotYielded = s.slotYielded) ∧
    (i ≠ .syncStep → i ≠ .syncRst → t.syncState = s.syncState ∧ t.pktBuf = s.pktBuf) ∧
    (i ≠ .syncStep → t.pktQ = s.pktQ) ∧
    (i ≠ .demTick → i ≠ .demIq → i ≠ .syncStep → i ≠ .syncRst → t.rxBits = s.rxBits)
end

