-- ==== Sys2Proof/Laws/State.lean ====
section
/-! SUPPORT. One lemma for each field of State under each named update, so that no proof unfolds a record update. -/

namespace Sys2Proof.Machine

/-! ### `endWith`: How a command ends: `RESULT` and `ERR`. -/

@[simp] theorem State.endWith_numChannels (s : State) (code : ResultCode) :
    (s.endWith code).numChannels = s.numChannels := rfl
@[simp] theorem State.endWith_channelSpacingHz (s : State) (code : ResultCode) :
    (s.endWith code).channelSpacingHz = s.channelSpacingHz := rfl
@[simp] theorem State.endWith_symbolDurationMs (s : State) (code : ResultCode) :
    (s.endWith code).symbolDurationMs = s.symbolDurationMs := rfl
@[simp] theorem State.endWith_bitsPerSymbol (s : State) (code : ResultCode) :
    (s.endWith code).bitsPerSymbol = s.bitsPerSymbol := rfl
@[simp] theorem State.endWith_useBinaryPayload (s : State) (code : ResultCode) :
    (s.endWith code).useBinaryPayload = s.useBinaryPayload := rfl
@[simp] theorem State.endWith_signalThreshold (s : State) (code : ResultCode) :
    (s.endWith code).signalThreshold = s.signalThreshold := rfl
@[simp] theorem State.endWith_adaptivePowerEn (s : State) (code : ResultCode) :
    (s.endWith code).adaptivePowerEn = s.adaptivePowerEn := rfl
@[simp] theorem State.endWith_calValid (s : State) (code : ResultCode) : (s.endWith code).calValid = s.calValid := rfl
@[simp] theorem State.endWith_ilvValid (s : State) (code : ResultCode) : (s.endWith code).ilvValid = s.ilvValid := rfl
@[simp] theorem State.endWith_symValid (s : State) (code : ResultCode) : (s.endWith code).symValid = s.symValid := rfl
@[simp] theorem State.endWith_slotYielded (s : State) (code : ResultCode) :
    (s.endWith code).slotYielded = s.slotYielded := rfl
@[simp] theorem State.endWith_err (s : State) (code : ResultCode) :
    (s.endWith code).err = s.err ||| code.errBit := rfl
@[simp] theorem State.endWith_result (s : State) (code : ResultCode) : (s.endWith code).result = code.word := rfl
@[simp] theorem State.endWith_crc (s : State) (code : ResultCode) : (s.endWith code).crc = s.crc := rfl
@[simp] theorem State.endWith_sum (s : State) (code : ResultCode) : (s.endWith code).sum = s.sum := rfl
@[simp] theorem State.endWith_slotIdx (s : State) (code : ResultCode) : (s.endWith code).slotIdx = s.slotIdx := rfl
@[simp] theorem State.endWith_numSlots (s : State) (code : ResultCode) : (s.endWith code).numSlots = s.numSlots := rfl
@[simp] theorem State.endWith_rdata (s : State) (code : ResultCode) : (s.endWith code).rdata = s.rdata := rfl
@[simp] theorem State.endWith_carrier (s : State) (code : ResultCode) : (s.endWith code).carrier = s.carrier := rfl
@[simp] theorem State.endWith_power (s : State) (code : ResultCode) : (s.endWith code).power = s.power := rfl
@[simp] theorem State.endWith_snrIn (s : State) (code : ResultCode) : (s.endWith code).snrIn = s.snrIn := rfl
@[simp] theorem State.endWith_ib (s : State) (code : ResultCode) : (s.endWith code).ib = s.ib := rfl
@[simp] theorem State.endWith_ob (s : State) (code : ResultCode) : (s.endWith code).ob = s.ob := rfl
@[simp] theorem State.endWith_txBits (s : State) (code : ResultCode) : (s.endWith code).txBits = s.txBits := rfl
@[simp] theorem State.endWith_stream (s : State) (code : ResultCode) : (s.endWith code).stream = s.stream := rfl
@[simp] theorem State.endWith_syms (s : State) (code : ResultCode) : (s.endWith code).syms = s.syms := rfl
@[simp] theorem State.endWith_samples (s : State) (code : ResultCode) : (s.endWith code).samples = s.samples := rfl
@[simp] theorem State.endWith_spec (s : State) (code : ResultCode) : (s.endWith code).spec = s.spec := rfl
@[simp] theorem State.endWith_win (s : State) (code : ResultCode) : (s.endWith code).win = s.win := rfl
@[simp] theorem State.endWith_dec (s : State) (code : ResultCode) : (s.endWith code).dec = s.dec := rfl
@[simp] theorem State.endWith_syncState (s : State) (code : ResultCode) :
    (s.endWith code).syncState = s.syncState := rfl
@[simp] theorem State.endWith_rxBits (s : State) (code : ResultCode) : (s.endWith code).rxBits = s.rxBits := rfl
@[simp] theorem State.endWith_pktBuf (s : State) (code : ResultCode) : (s.endWith code).pktBuf = s.pktBuf := rfl
@[simp] theorem State.endWith_pktQ (s : State) (code : ResultCode) : (s.endWith code).pktQ = s.pktQ := rfl
@[simp] theorem State.endWith_params (s : State) (code : ResultCode) : (s.endWith code).params = s.params := rfl
@[simp] theorem State.endWith_host (s : State) (code : ResultCode) : (s.endWith code).host = s.host := rfl
@[simp] theorem State.endWith_lzRun (s : State) (code : ResultCode) : (s.endWith code).lzRun = s.lzRun := rfl

/-! ### `invalidateProfile`: A profile write: the flags and the slot counters. -/

@[simp] theorem State.invalidateProfile_numChannels (s : State) :
    s.invalidateProfile.numChannels = s.numChannels := rfl
@[simp] theorem State.invalidateProfile_channelSpacingHz (s : State) :
    s.invalidateProfile.channelSpacingHz = s.channelSpacingHz := rfl
@[simp] theorem State.invalidateProfile_symbolDurationMs (s : State) :
    s.invalidateProfile.symbolDurationMs = s.symbolDurationMs := rfl
@[simp] theorem State.invalidateProfile_bitsPerSymbol (s : State) :
    s.invalidateProfile.bitsPerSymbol = s.bitsPerSymbol := rfl
@[simp] theorem State.invalidateProfile_useBinaryPayload (s : State) :
    s.invalidateProfile.useBinaryPayload = s.useBinaryPayload := rfl
@[simp] theorem State.invalidateProfile_signalThreshold (s : State) :
    s.invalidateProfile.signalThreshold = s.signalThreshold := rfl
@[simp] theorem State.invalidateProfile_adaptivePowerEn (s : State) :
    s.invalidateProfile.adaptivePowerEn = s.adaptivePowerEn := rfl
@[simp] theorem State.invalidateProfile_calValid (s : State) : s.invalidateProfile.calValid = false := rfl
@[simp] theorem State.invalidateProfile_ilvValid (s : State) : s.invalidateProfile.ilvValid = false := rfl
@[simp] theorem State.invalidateProfile_symValid (s : State) : s.invalidateProfile.symValid = false := rfl
@[simp] theorem State.invalidateProfile_slotYielded (s : State) :
    s.invalidateProfile.slotYielded = s.slotYielded := rfl
@[simp] theorem State.invalidateProfile_err (s : State) : s.invalidateProfile.err = s.err := rfl
@[simp] theorem State.invalidateProfile_result (s : State) : s.invalidateProfile.result = s.result := rfl
@[simp] theorem State.invalidateProfile_crc (s : State) : s.invalidateProfile.crc = s.crc := rfl
@[simp] theorem State.invalidateProfile_sum (s : State) : s.invalidateProfile.sum = s.sum := rfl
@[simp] theorem State.invalidateProfile_slotIdx (s : State) : s.invalidateProfile.slotIdx = 0 := rfl
@[simp] theorem State.invalidateProfile_numSlots (s : State) : s.invalidateProfile.numSlots = 0 := rfl
@[simp] theorem State.invalidateProfile_rdata (s : State) : s.invalidateProfile.rdata = s.rdata := rfl
@[simp] theorem State.invalidateProfile_carrier (s : State) : s.invalidateProfile.carrier = s.carrier := rfl
@[simp] theorem State.invalidateProfile_power (s : State) : s.invalidateProfile.power = s.power := rfl
@[simp] theorem State.invalidateProfile_snrIn (s : State) : s.invalidateProfile.snrIn = s.snrIn := rfl
@[simp] theorem State.invalidateProfile_ib (s : State) : s.invalidateProfile.ib = s.ib := rfl
@[simp] theorem State.invalidateProfile_ob (s : State) : s.invalidateProfile.ob = s.ob := rfl
@[simp] theorem State.invalidateProfile_txBits (s : State) : s.invalidateProfile.txBits = s.txBits := rfl
@[simp] theorem State.invalidateProfile_stream (s : State) : s.invalidateProfile.stream = s.stream := rfl
@[simp] theorem State.invalidateProfile_syms (s : State) : s.invalidateProfile.syms = s.syms := rfl
@[simp] theorem State.invalidateProfile_samples (s : State) : s.invalidateProfile.samples = s.samples := rfl
@[simp] theorem State.invalidateProfile_spec (s : State) : s.invalidateProfile.spec = s.spec := rfl
@[simp] theorem State.invalidateProfile_win (s : State) : s.invalidateProfile.win = s.win := rfl
@[simp] theorem State.invalidateProfile_dec (s : State) : s.invalidateProfile.dec = s.dec := rfl
@[simp] theorem State.invalidateProfile_syncState (s : State) : s.invalidateProfile.syncState = s.syncState := rfl
@[simp] theorem State.invalidateProfile_rxBits (s : State) : s.invalidateProfile.rxBits = s.rxBits := rfl
@[simp] theorem State.invalidateProfile_pktBuf (s : State) : s.invalidateProfile.pktBuf = s.pktBuf := rfl
@[simp] theorem State.invalidateProfile_pktQ (s : State) : s.invalidateProfile.pktQ = s.pktQ := rfl
@[simp] theorem State.invalidateProfile_params (s : State) : s.invalidateProfile.params = s.params := rfl
@[simp] theorem State.invalidateProfile_host (s : State) : s.invalidateProfile.host = s.host := rfl
@[simp] theorem State.invalidateProfile_lzRun (s : State) : s.invalidateProfile.lzRun = s.lzRun := rfl

/-! ### `afterReset`: Reset: every field of the block, but not the parameters nor the host's moves. -/

@[simp] theorem State.afterReset_numChannels (s : State) : s.afterReset.numChannels = State.reset.numChannels := rfl
@[simp] theorem State.afterReset_channelSpacingHz (s : State) :
    s.afterReset.channelSpacingHz = State.reset.channelSpacingHz := rfl
@[simp] theorem State.afterReset_symbolDurationMs (s : State) :
    s.afterReset.symbolDurationMs = State.reset.symbolDurationMs := rfl
@[simp] theorem State.afterReset_bitsPerSymbol (s : State) :
    s.afterReset.bitsPerSymbol = State.reset.bitsPerSymbol := rfl
@[simp] theorem State.afterReset_useBinaryPayload (s : State) :
    s.afterReset.useBinaryPayload = State.reset.useBinaryPayload := rfl
@[simp] theorem State.afterReset_signalThreshold (s : State) :
    s.afterReset.signalThreshold = State.reset.signalThreshold := rfl
@[simp] theorem State.afterReset_adaptivePowerEn (s : State) :
    s.afterReset.adaptivePowerEn = State.reset.adaptivePowerEn := rfl
@[simp] theorem State.afterReset_calValid (s : State) : s.afterReset.calValid = State.reset.calValid := rfl
@[simp] theorem State.afterReset_ilvValid (s : State) : s.afterReset.ilvValid = State.reset.ilvValid := rfl
@[simp] theorem State.afterReset_symValid (s : State) : s.afterReset.symValid = State.reset.symValid := rfl
@[simp] theorem State.afterReset_slotYielded (s : State) : s.afterReset.slotYielded = State.reset.slotYielded := rfl
@[simp] theorem State.afterReset_err (s : State) : s.afterReset.err = State.reset.err := rfl
@[simp] theorem State.afterReset_result (s : State) : s.afterReset.result = State.reset.result := rfl
@[simp] theorem State.afterReset_crc (s : State) : s.afterReset.crc = State.reset.crc := rfl
@[simp] theorem State.afterReset_sum (s : State) : s.afterReset.sum = State.reset.sum := rfl
@[simp] theorem State.afterReset_slotIdx (s : State) : s.afterReset.slotIdx = State.reset.slotIdx := rfl
@[simp] theorem State.afterReset_numSlots (s : State) : s.afterReset.numSlots = State.reset.numSlots := rfl
@[simp] theorem State.afterReset_rdata (s : State) : s.afterReset.rdata = State.reset.rdata := rfl
@[simp] theorem State.afterReset_carrier (s : State) : s.afterReset.carrier = State.reset.carrier := rfl
@[simp] theorem State.afterReset_power (s : State) : s.afterReset.power = State.reset.power := rfl
@[simp] theorem State.afterReset_snrIn (s : State) : s.afterReset.snrIn = State.reset.snrIn := rfl
@[simp] theorem State.afterReset_ib (s : State) : s.afterReset.ib = State.reset.ib := rfl
@[simp] theorem State.afterReset_ob (s : State) : s.afterReset.ob = State.reset.ob := rfl
@[simp] theorem State.afterReset_txBits (s : State) : s.afterReset.txBits = State.reset.txBits := rfl
@[simp] theorem State.afterReset_stream (s : State) : s.afterReset.stream = State.reset.stream := rfl
@[simp] theorem State.afterReset_syms (s : State) : s.afterReset.syms = State.reset.syms := rfl
@[simp] theorem State.afterReset_samples (s : State) : s.afterReset.samples = State.reset.samples := rfl
@[simp] theorem State.afterReset_spec (s : State) : s.afterReset.spec = State.reset.spec := rfl
@[simp] theorem State.afterReset_win (s : State) : s.afterReset.win = State.reset.win := rfl
@[simp] theorem State.afterReset_dec (s : State) : s.afterReset.dec = State.reset.dec := rfl
@[simp] theorem State.afterReset_syncState (s : State) : s.afterReset.syncState = State.reset.syncState := rfl
@[simp] theorem State.afterReset_rxBits (s : State) : s.afterReset.rxBits = State.reset.rxBits := rfl
@[simp] theorem State.afterReset_pktBuf (s : State) : s.afterReset.pktBuf = State.reset.pktBuf := rfl
@[simp] theorem State.afterReset_pktQ (s : State) : s.afterReset.pktQ = State.reset.pktQ := rfl
@[simp] theorem State.afterReset_params (s : State) : s.afterReset.params = s.params := rfl
@[simp] theorem State.afterReset_host (s : State) : s.afterReset.host = s.host := rfl
@[simp] theorem State.afterReset_lzRun (s : State) : s.afterReset.lzRun = State.reset.lzRun := rfl

/-! ### `lockAt`: H1. -/

@[simp] theorem State.lockAt_numChannels (s : State) (p : Nat) : (s.lockAt p).numChannels = s.numChannels := rfl
@[simp] theorem State.lockAt_channelSpacingHz (s : State) (p : Nat) :
    (s.lockAt p).channelSpacingHz = s.channelSpacingHz := rfl
@[simp] theorem State.lockAt_symbolDurationMs (s : State) (p : Nat) :
    (s.lockAt p).symbolDurationMs = s.symbolDurationMs := rfl
@[simp] theorem State.lockAt_bitsPerSymbol (s : State) (p : Nat) : (s.lockAt p).bitsPerSymbol = s.bitsPerSymbol := rfl
@[simp] theorem State.lockAt_useBinaryPayload (s : State) (p : Nat) :
    (s.lockAt p).useBinaryPayload = s.useBinaryPayload := rfl
@[simp] theorem State.lockAt_signalThreshold (s : State) (p : Nat) :
    (s.lockAt p).signalThreshold = s.signalThreshold := rfl
@[simp] theorem State.lockAt_adaptivePowerEn (s : State) (p : Nat) :
    (s.lockAt p).adaptivePowerEn = s.adaptivePowerEn := rfl
@[simp] theorem State.lockAt_calValid (s : State) (p : Nat) : (s.lockAt p).calValid = s.calValid := rfl
@[simp] theorem State.lockAt_ilvValid (s : State) (p : Nat) : (s.lockAt p).ilvValid = s.ilvValid := rfl
@[simp] theorem State.lockAt_symValid (s : State) (p : Nat) : (s.lockAt p).symValid = s.symValid := rfl
@[simp] theorem State.lockAt_slotYielded (s : State) (p : Nat) : (s.lockAt p).slotYielded = s.slotYielded := rfl
@[simp] theorem State.lockAt_err (s : State) (p : Nat) : (s.lockAt p).err = s.err := rfl
@[simp] theorem State.lockAt_result (s : State) (p : Nat) : (s.lockAt p).result = s.result := rfl
@[simp] theorem State.lockAt_crc (s : State) (p : Nat) : (s.lockAt p).crc = s.crc := rfl
@[simp] theorem State.lockAt_sum (s : State) (p : Nat) : (s.lockAt p).sum = s.sum := rfl
@[simp] theorem State.lockAt_slotIdx (s : State) (p : Nat) : (s.lockAt p).slotIdx = s.slotIdx := rfl
@[simp] theorem State.lockAt_numSlots (s : State) (p : Nat) : (s.lockAt p).numSlots = s.numSlots := rfl
@[simp] theorem State.lockAt_rdata (s : State) (p : Nat) : (s.lockAt p).rdata = s.rdata := rfl
@[simp] theorem State.lockAt_carrier (s : State) (p : Nat) : (s.lockAt p).carrier = s.carrier := rfl
@[simp] theorem State.lockAt_power (s : State) (p : Nat) : (s.lockAt p).power = s.power := rfl
@[simp] theorem State.lockAt_snrIn (s : State) (p : Nat) : (s.lockAt p).snrIn = s.snrIn := rfl
@[simp] theorem State.lockAt_ib (s : State) (p : Nat) : (s.lockAt p).ib = s.ib := rfl
@[simp] theorem State.lockAt_ob (s : State) (p : Nat) : (s.lockAt p).ob = s.ob := rfl
@[simp] theorem State.lockAt_txBits (s : State) (p : Nat) : (s.lockAt p).txBits = s.txBits := rfl
@[simp] theorem State.lockAt_stream (s : State) (p : Nat) : (s.lockAt p).stream = s.stream := rfl
@[simp] theorem State.lockAt_syms (s : State) (p : Nat) : (s.lockAt p).syms = s.syms := rfl
@[simp] theorem State.lockAt_samples (s : State) (p : Nat) : (s.lockAt p).samples = s.samples := rfl
@[simp] theorem State.lockAt_spec (s : State) (p : Nat) : (s.lockAt p).spec = s.spec := rfl
@[simp] theorem State.lockAt_win (s : State) (p : Nat) : (s.lockAt p).win = s.win := rfl
@[simp] theorem State.lockAt_dec (s : State) (p : Nat) : (s.lockAt p).dec = s.dec := rfl
@[simp] theorem State.lockAt_syncState (s : State) (p : Nat) : (s.lockAt p).syncState = .framed := rfl
@[simp] theorem State.lockAt_rxBits (s : State) (p : Nat) : (s.lockAt p).rxBits = s.rxBits.drop (p + 8) := rfl
@[simp] theorem State.lockAt_pktBuf (s : State) (p : Nat) : (s.lockAt p).pktBuf = s.pktBuf := rfl
@[simp] theorem State.lockAt_pktQ (s : State) (p : Nat) : (s.lockAt p).pktQ = s.pktQ := rfl
@[simp] theorem State.lockAt_params (s : State) (p : Nat) : (s.lockAt p).params = s.params := rfl
@[simp] theorem State.lockAt_host (s : State) (p : Nat) : (s.lockAt p).host = s.host := rfl
@[simp] theorem State.lockAt_lzRun (s : State) (p : Nat) : (s.lockAt p).lzRun = s.lzRun := rfl

/-! ### `trim`: H2. -/

@[simp] theorem State.trim_numChannels (s : State) : s.trim.numChannels = s.numChannels := by unfold State.trim; rfl
@[simp] theorem State.trim_channelSpacingHz (s : State) :
    s.trim.channelSpacingHz = s.channelSpacingHz := by unfold State.trim; rfl
@[simp] theorem State.trim_symbolDurationMs (s : State) :
    s.trim.symbolDurationMs = s.symbolDurationMs := by unfold State.trim; rfl
@[simp] theorem State.trim_bitsPerSymbol (s : State) :
    s.trim.bitsPerSymbol = s.bitsPerSymbol := by unfold State.trim; rfl
@[simp] theorem State.trim_useBinaryPayload (s : State) :
    s.trim.useBinaryPayload = s.useBinaryPayload := by unfold State.trim; rfl
@[simp] theorem State.trim_signalThreshold (s : State) :
    s.trim.signalThreshold = s.signalThreshold := by unfold State.trim; rfl
@[simp] theorem State.trim_adaptivePowerEn (s : State) :
    s.trim.adaptivePowerEn = s.adaptivePowerEn := by unfold State.trim; rfl
@[simp] theorem State.trim_calValid (s : State) : s.trim.calValid = s.calValid := by unfold State.trim; rfl
@[simp] theorem State.trim_ilvValid (s : State) : s.trim.ilvValid = s.ilvValid := by unfold State.trim; rfl
@[simp] theorem State.trim_symValid (s : State) : s.trim.symValid = s.symValid := by unfold State.trim; rfl
@[simp] theorem State.trim_slotYielded (s : State) : s.trim.slotYielded = s.slotYielded := by unfold State.trim; rfl
@[simp] theorem State.trim_err (s : State) : s.trim.err = s.err := by unfold State.trim; rfl
@[simp] theorem State.trim_result (s : State) : s.trim.result = s.result := by unfold State.trim; rfl
@[simp] theorem State.trim_crc (s : State) : s.trim.crc = s.crc := by unfold State.trim; rfl
@[simp] theorem State.trim_sum (s : State) : s.trim.sum = s.sum := by unfold State.trim; rfl
@[simp] theorem State.trim_slotIdx (s : State) : s.trim.slotIdx = s.slotIdx := by unfold State.trim; rfl
@[simp] theorem State.trim_numSlots (s : State) : s.trim.numSlots = s.numSlots := by unfold State.trim; rfl
@[simp] theorem State.trim_rdata (s : State) : s.trim.rdata = s.rdata := by unfold State.trim; rfl
@[simp] theorem State.trim_carrier (s : State) : s.trim.carrier = s.carrier := by unfold State.trim; rfl
@[simp] theorem State.trim_power (s : State) : s.trim.power = s.power := by unfold State.trim; rfl
@[simp] theorem State.trim_snrIn (s : State) : s.trim.snrIn = s.snrIn := by unfold State.trim; rfl
@[simp] theorem State.trim_ib (s : State) : s.trim.ib = s.ib := by unfold State.trim; rfl
@[simp] theorem State.trim_ob (s : State) : s.trim.ob = s.ob := by unfold State.trim; rfl
@[simp] theorem State.trim_txBits (s : State) : s.trim.txBits = s.txBits := by unfold State.trim; rfl
@[simp] theorem State.trim_stream (s : State) : s.trim.stream = s.stream := by unfold State.trim; rfl
@[simp] theorem State.trim_syms (s : State) : s.trim.syms = s.syms := by unfold State.trim; rfl
@[simp] theorem State.trim_samples (s : State) : s.trim.samples = s.samples := by unfold State.trim; rfl
@[simp] theorem State.trim_spec (s : State) : s.trim.spec = s.spec := by unfold State.trim; rfl
@[simp] theorem State.trim_win (s : State) : s.trim.win = s.win := by unfold State.trim; rfl
@[simp] theorem State.trim_dec (s : State) : s.trim.dec = s.dec := by unfold State.trim; rfl
@[simp] theorem State.trim_syncState (s : State) : s.trim.syncState = s.syncState := by unfold State.trim; rfl
@[simp] theorem State.trim_rxBits (s : State) :
    s.trim.rxBits = lastBits Config.huntKeep s.rxBits := by unfold State.trim; rfl
@[simp] theorem State.trim_pktBuf (s : State) : s.trim.pktBuf = s.pktBuf := by unfold State.trim; rfl
@[simp] theorem State.trim_pktQ (s : State) : s.trim.pktQ = s.pktQ := by unfold State.trim; rfl
@[simp] theorem State.trim_params (s : State) : s.trim.params = s.params := by unfold State.trim; rfl
@[simp] theorem State.trim_host (s : State) : s.trim.host = s.host := by unfold State.trim; rfl
@[simp] theorem State.trim_lzRun (s : State) : s.trim.lzRun = s.lzRun := by unfold State.trim; rfl

/-! ### `deliver`: F1. -/

@[simp] theorem State.deliver_numChannels (s : State) : s.deliver.numChannels = s.numChannels := rfl
@[simp] theorem State.deliver_channelSpacingHz (s : State) : s.deliver.channelSpacingHz = s.channelSpacingHz := rfl
@[simp] theorem State.deliver_symbolDurationMs (s : State) : s.deliver.symbolDurationMs = s.symbolDurationMs := rfl
@[simp] theorem State.deliver_bitsPerSymbol (s : State) : s.deliver.bitsPerSymbol = s.bitsPerSymbol := rfl
@[simp] theorem State.deliver_useBinaryPayload (s : State) : s.deliver.useBinaryPayload = s.useBinaryPayload := rfl
@[simp] theorem State.deliver_signalThreshold (s : State) : s.deliver.signalThreshold = s.signalThreshold := rfl
@[simp] theorem State.deliver_adaptivePowerEn (s : State) : s.deliver.adaptivePowerEn = s.adaptivePowerEn := rfl
@[simp] theorem State.deliver_calValid (s : State) : s.deliver.calValid = s.calValid := rfl
@[simp] theorem State.deliver_ilvValid (s : State) : s.deliver.ilvValid = s.ilvValid := rfl
@[simp] theorem State.deliver_symValid (s : State) : s.deliver.symValid = s.symValid := rfl
@[simp] theorem State.deliver_slotYielded (s : State) : s.deliver.slotYielded = s.slotYielded := rfl
@[simp] theorem State.deliver_err (s : State) : s.deliver.err = s.err := rfl
@[simp] theorem State.deliver_result (s : State) : s.deliver.result = s.result := rfl
@[simp] theorem State.deliver_crc (s : State) : s.deliver.crc = s.crc := rfl
@[simp] theorem State.deliver_sum (s : State) : s.deliver.sum = s.sum := rfl
@[simp] theorem State.deliver_slotIdx (s : State) : s.deliver.slotIdx = s.slotIdx := rfl
@[simp] theorem State.deliver_numSlots (s : State) : s.deliver.numSlots = s.numSlots := rfl
@[simp] theorem State.deliver_rdata (s : State) : s.deliver.rdata = s.rdata := rfl
@[simp] theorem State.deliver_carrier (s : State) : s.deliver.carrier = s.carrier := rfl
@[simp] theorem State.deliver_power (s : State) : s.deliver.power = s.power := rfl
@[simp] theorem State.deliver_snrIn (s : State) : s.deliver.snrIn = s.snrIn := rfl
@[simp] theorem State.deliver_ib (s : State) : s.deliver.ib = s.ib := rfl
@[simp] theorem State.deliver_ob (s : State) : s.deliver.ob = s.ob := rfl
@[simp] theorem State.deliver_txBits (s : State) : s.deliver.txBits = s.txBits := rfl
@[simp] theorem State.deliver_stream (s : State) : s.deliver.stream = s.stream := rfl
@[simp] theorem State.deliver_syms (s : State) : s.deliver.syms = s.syms := rfl
@[simp] theorem State.deliver_samples (s : State) : s.deliver.samples = s.samples := rfl
@[simp] theorem State.deliver_spec (s : State) : s.deliver.spec = s.spec := rfl
@[simp] theorem State.deliver_win (s : State) : s.deliver.win = s.win := rfl
@[simp] theorem State.deliver_dec (s : State) : s.deliver.dec = s.dec := rfl
@[simp] theorem State.deliver_syncState (s : State) : s.deliver.syncState = .hunting := rfl
@[simp] theorem State.deliver_rxBits (s : State) : s.deliver.rxBits = s.rxBits := rfl
@[simp] theorem State.deliver_pktBuf (s : State) : s.deliver.pktBuf = [] := rfl
@[simp] theorem State.deliver_pktQ (s : State) : s.deliver.pktQ = s.pktQ ++ [s.pktBuf] := rfl
@[simp] theorem State.deliver_params (s : State) : s.deliver.params = s.params := rfl
@[simp] theorem State.deliver_host (s : State) : s.deliver.host = s.host := rfl
@[simp] theorem State.deliver_lzRun (s : State) : s.deliver.lzRun = s.lzRun := rfl

/-! ### `overflow`: F2. -/

@[simp] theorem State.overflow_numChannels (s : State) : s.overflow.numChannels = s.numChannels := rfl
@[simp] theorem State.overflow_channelSpacingHz (s : State) : s.overflow.channelSpacingHz = s.channelSpacingHz := rfl
@[simp] theorem State.overflow_symbolDurationMs (s : State) : s.overflow.symbolDurationMs = s.symbolDurationMs := rfl
@[simp] theorem State.overflow_bitsPerSymbol (s : State) : s.overflow.bitsPerSymbol = s.bitsPerSymbol := rfl
@[simp] theorem State.overflow_useBinaryPayload (s : State) : s.overflow.useBinaryPayload = s.useBinaryPayload := rfl
@[simp] theorem State.overflow_signalThreshold (s : State) : s.overflow.signalThreshold = s.signalThreshold := rfl
@[simp] theorem State.overflow_adaptivePowerEn (s : State) : s.overflow.adaptivePowerEn = s.adaptivePowerEn := rfl
@[simp] theorem State.overflow_calValid (s : State) : s.overflow.calValid = s.calValid := rfl
@[simp] theorem State.overflow_ilvValid (s : State) : s.overflow.ilvValid = s.ilvValid := rfl
@[simp] theorem State.overflow_symValid (s : State) : s.overflow.symValid = s.symValid := rfl
@[simp] theorem State.overflow_slotYielded (s : State) : s.overflow.slotYielded = s.slotYielded := rfl
@[simp] theorem State.overflow_err (s : State) : s.overflow.err = s.err := rfl
@[simp] theorem State.overflow_result (s : State) : s.overflow.result = s.result := rfl
@[simp] theorem State.overflow_crc (s : State) : s.overflow.crc = s.crc := rfl
@[simp] theorem State.overflow_sum (s : State) : s.overflow.sum = s.sum := rfl
@[simp] theorem State.overflow_slotIdx (s : State) : s.overflow.slotIdx = s.slotIdx := rfl
@[simp] theorem State.overflow_numSlots (s : State) : s.overflow.numSlots = s.numSlots := rfl
@[simp] theorem State.overflow_rdata (s : State) : s.overflow.rdata = s.rdata := rfl
@[simp] theorem State.overflow_carrier (s : State) : s.overflow.carrier = s.carrier := rfl
@[simp] theorem State.overflow_power (s : State) : s.overflow.power = s.power := rfl
@[simp] theorem State.overflow_snrIn (s : State) : s.overflow.snrIn = s.snrIn := rfl
@[simp] theorem State.overflow_ib (s : State) : s.overflow.ib = s.ib := rfl
@[simp] theorem State.overflow_ob (s : State) : s.overflow.ob = s.ob := rfl
@[simp] theorem State.overflow_txBits (s : State) : s.overflow.txBits = s.txBits := rfl
@[simp] theorem State.overflow_stream (s : State) : s.overflow.stream = s.stream := rfl
@[simp] theorem State.overflow_syms (s : State) : s.overflow.syms = s.syms := rfl
@[simp] theorem State.overflow_samples (s : State) : s.overflow.samples = s.samples := rfl
@[simp] theorem State.overflow_spec (s : State) : s.overflow.spec = s.spec := rfl
@[simp] theorem State.overflow_win (s : State) : s.overflow.win = s.win := rfl
@[simp] theorem State.overflow_dec (s : State) : s.overflow.dec = s.dec := rfl
@[simp] theorem State.overflow_syncState (s : State) : s.overflow.syncState = .hunting := rfl
@[simp] theorem State.overflow_rxBits (s : State) : s.overflow.rxBits = s.rxBits := rfl
@[simp] theorem State.overflow_pktBuf (s : State) : s.overflow.pktBuf = [] := rfl
@[simp] theorem State.overflow_pktQ (s : State) : s.overflow.pktQ = s.pktQ := rfl
@[simp] theorem State.overflow_params (s : State) : s.overflow.params = s.params := rfl
@[simp] theorem State.overflow_host (s : State) : s.overflow.host = s.host := rfl
@[simp] theorem State.overflow_lzRun (s : State) : s.overflow.lzRun = s.lzRun := rfl

/-! ### `assemble`: F3. -/

@[simp] theorem State.assemble_numChannels (s : State) : s.assemble.numChannels = s.numChannels := rfl
@[simp] theorem State.assemble_channelSpacingHz (s : State) : s.assemble.channelSpacingHz = s.channelSpacingHz := rfl
@[simp] theorem State.assemble_symbolDurationMs (s : State) : s.assemble.symbolDurationMs = s.symbolDurationMs := rfl
@[simp] theorem State.assemble_bitsPerSymbol (s : State) : s.assemble.bitsPerSymbol = s.bitsPerSymbol := rfl
@[simp] theorem State.assemble_useBinaryPayload (s : State) : s.assemble.useBinaryPayload = s.useBinaryPayload := rfl
@[simp] theorem State.assemble_signalThreshold (s : State) : s.assemble.signalThreshold = s.signalThreshold := rfl
@[simp] theorem State.assemble_adaptivePowerEn (s : State) : s.assemble.adaptivePowerEn = s.adaptivePowerEn := rfl
@[simp] theorem State.assemble_calValid (s : State) : s.assemble.calValid = s.calValid := rfl
@[simp] theorem State.assemble_ilvValid (s : State) : s.assemble.ilvValid = s.ilvValid := rfl
@[simp] theorem State.assemble_symValid (s : State) : s.assemble.symValid = s.symValid := rfl
@[simp] theorem State.assemble_slotYielded (s : State) : s.assemble.slotYielded = s.slotYielded := rfl
@[simp] theorem State.assemble_err (s : State) : s.assemble.err = s.err := rfl
@[simp] theorem State.assemble_result (s : State) : s.assemble.result = s.result := rfl
@[simp] theorem State.assemble_crc (s : State) : s.assemble.crc = s.crc := rfl
@[simp] theorem State.assemble_sum (s : State) : s.assemble.sum = s.sum := rfl
@[simp] theorem State.assemble_slotIdx (s : State) : s.assemble.slotIdx = s.slotIdx := rfl
@[simp] theorem State.assemble_numSlots (s : State) : s.assemble.numSlots = s.numSlots := rfl
@[simp] theorem State.assemble_rdata (s : State) : s.assemble.rdata = s.rdata := rfl
@[simp] theorem State.assemble_carrier (s : State) : s.assemble.carrier = s.carrier := rfl
@[simp] theorem State.assemble_power (s : State) : s.assemble.power = s.power := rfl
@[simp] theorem State.assemble_snrIn (s : State) : s.assemble.snrIn = s.snrIn := rfl
@[simp] theorem State.assemble_ib (s : State) : s.assemble.ib = s.ib := rfl
@[simp] theorem State.assemble_ob (s : State) : s.assemble.ob = s.ob := rfl
@[simp] theorem State.assemble_txBits (s : State) : s.assemble.txBits = s.txBits := rfl
@[simp] theorem State.assemble_stream (s : State) : s.assemble.stream = s.stream := rfl
@[simp] theorem State.assemble_syms (s : State) : s.assemble.syms = s.syms := rfl
@[simp] theorem State.assemble_samples (s : State) : s.assemble.samples = s.samples := rfl
@[simp] theorem State.assemble_spec (s : State) : s.assemble.spec = s.spec := rfl
@[simp] theorem State.assemble_win (s : State) : s.assemble.win = s.win := rfl
@[simp] theorem State.assemble_dec (s : State) : s.assemble.dec = s.dec := rfl
@[simp] theorem State.assemble_syncState (s : State) : s.assemble.syncState = s.syncState := rfl
@[simp] theorem State.assemble_rxBits (s : State) : s.assemble.rxBits = s.rxBits.drop 8 := rfl
@[simp] theorem State.assemble_pktBuf (s : State) : s.assemble.pktBuf = s.pktBuf ++ [byteMsb (s.rxBits.take 8)] := rfl
@[simp] theorem State.assemble_pktQ (s : State) : s.assemble.pktQ = s.pktQ := rfl
@[simp] theorem State.assemble_params (s : State) : s.assemble.params = s.params := rfl
@[simp] theorem State.assemble_host (s : State) : s.assemble.host = s.host := rfl
@[simp] theorem State.assemble_lzRun (s : State) : s.assemble.lzRun = s.lzRun := rfl

/-! ### `lzDone`: A decoder that succeeded. -/

@[simp] theorem State.lzDone_numChannels (s : State) (out : List Byte) :
    (s.lzDone out).numChannels = s.numChannels := rfl
@[simp] theorem State.lzDone_channelSpacingHz (s : State) (out : List Byte) :
    (s.lzDone out).channelSpacingHz = s.channelSpacingHz := rfl
@[simp] theorem State.lzDone_symbolDurationMs (s : State) (out : List Byte) :
    (s.lzDone out).symbolDurationMs = s.symbolDurationMs := rfl
@[simp] theorem State.lzDone_bitsPerSymbol (s : State) (out : List Byte) :
    (s.lzDone out).bitsPerSymbol = s.bitsPerSymbol := rfl
@[simp] theorem State.lzDone_useBinaryPayload (s : State) (out : List Byte) :
    (s.lzDone out).useBinaryPayload = s.useBinaryPayload := rfl
@[simp] theorem State.lzDone_signalThreshold (s : State) (out : List Byte) :
    (s.lzDone out).signalThreshold = s.signalThreshold := rfl
@[simp] theorem State.lzDone_adaptivePowerEn (s : State) (out : List Byte) :
    (s.lzDone out).adaptivePowerEn = s.adaptivePowerEn := rfl
@[simp] theorem State.lzDone_calValid (s : State) (out : List Byte) : (s.lzDone out).calValid = s.calValid := rfl
@[simp] theorem State.lzDone_ilvValid (s : State) (out : List Byte) : (s.lzDone out).ilvValid = s.ilvValid := rfl
@[simp] theorem State.lzDone_symValid (s : State) (out : List Byte) : (s.lzDone out).symValid = s.symValid := rfl
@[simp] theorem State.lzDone_slotYielded (s : State) (out : List Byte) :
    (s.lzDone out).slotYielded = s.slotYielded := rfl
@[simp] theorem State.lzDone_err (s : State) (out : List Byte) :
    (s.lzDone out).err = s.err ||| ResultCode.ok.errBit := rfl
@[simp] theorem State.lzDone_result (s : State) (out : List Byte) : (s.lzDone out).result = ResultCode.ok.word := rfl
@[simp] theorem State.lzDone_crc (s : State) (out : List Byte) : (s.lzDone out).crc = s.crc := rfl
@[simp] theorem State.lzDone_sum (s : State) (out : List Byte) : (s.lzDone out).sum = s.sum := rfl
@[simp] theorem State.lzDone_slotIdx (s : State) (out : List Byte) : (s.lzDone out).slotIdx = s.slotIdx := rfl
@[simp] theorem State.lzDone_numSlots (s : State) (out : List Byte) : (s.lzDone out).numSlots = s.numSlots := rfl
@[simp] theorem State.lzDone_rdata (s : State) (out : List Byte) : (s.lzDone out).rdata = s.rdata := rfl
@[simp] theorem State.lzDone_carrier (s : State) (out : List Byte) : (s.lzDone out).carrier = s.carrier := rfl
@[simp] theorem State.lzDone_power (s : State) (out : List Byte) : (s.lzDone out).power = s.power := rfl
@[simp] theorem State.lzDone_snrIn (s : State) (out : List Byte) : (s.lzDone out).snrIn = s.snrIn := rfl
@[simp] theorem State.lzDone_ib (s : State) (out : List Byte) : (s.lzDone out).ib = s.ib := rfl
@[simp] theorem State.lzDone_ob (s : State) (out : List Byte) : (s.lzDone out).ob = out := rfl
@[simp] theorem State.lzDone_txBits (s : State) (out : List Byte) : (s.lzDone out).txBits = s.txBits := rfl
@[simp] theorem State.lzDone_stream (s : State) (out : List Byte) : (s.lzDone out).stream = s.stream := rfl
@[simp] theorem State.lzDone_syms (s : State) (out : List Byte) : (s.lzDone out).syms = s.syms := rfl
@[simp] theorem State.lzDone_samples (s : State) (out : List Byte) : (s.lzDone out).samples = s.samples := rfl
@[simp] theorem State.lzDone_spec (s : State) (out : List Byte) : (s.lzDone out).spec = s.spec := rfl
@[simp] theorem State.lzDone_win (s : State) (out : List Byte) : (s.lzDone out).win = s.win := rfl
@[simp] theorem State.lzDone_dec (s : State) (out : List Byte) : (s.lzDone out).dec = s.dec := rfl
@[simp] theorem State.lzDone_syncState (s : State) (out : List Byte) : (s.lzDone out).syncState = s.syncState := rfl
@[simp] theorem State.lzDone_rxBits (s : State) (out : List Byte) : (s.lzDone out).rxBits = s.rxBits := rfl
@[simp] theorem State.lzDone_pktBuf (s : State) (out : List Byte) : (s.lzDone out).pktBuf = s.pktBuf := rfl
@[simp] theorem State.lzDone_pktQ (s : State) (out : List Byte) : (s.lzDone out).pktQ = s.pktQ := rfl
@[simp] theorem State.lzDone_params (s : State) (out : List Byte) : (s.lzDone out).params = s.params := rfl
@[simp] theorem State.lzDone_host (s : State) (out : List Byte) : (s.lzDone out).host = s.host := rfl
@[simp] theorem State.lzDone_lzRun (s : State) (out : List Byte) : (s.lzDone out).lzRun = none := rfl

/-! ### `lzTooLong`: A decoder whose output does not fit. -/

@[simp] theorem State.lzTooLong_numChannels (s : State) : s.lzTooLong.numChannels = s.numChannels := rfl
@[simp] theorem State.lzTooLong_channelSpacingHz (s : State) :
    s.lzTooLong.channelSpacingHz = s.channelSpacingHz := rfl
@[simp] theorem State.lzTooLong_symbolDurationMs (s : State) :
    s.lzTooLong.symbolDurationMs = s.symbolDurationMs := rfl
@[simp] theorem State.lzTooLong_bitsPerSymbol (s : State) : s.lzTooLong.bitsPerSymbol = s.bitsPerSymbol := rfl
@[simp] theorem State.lzTooLong_useBinaryPayload (s : State) :
    s.lzTooLong.useBinaryPayload = s.useBinaryPayload := rfl
@[simp] theorem State.lzTooLong_signalThreshold (s : State) : s.lzTooLong.signalThreshold = s.signalThreshold := rfl
@[simp] theorem State.lzTooLong_adaptivePowerEn (s : State) : s.lzTooLong.adaptivePowerEn = s.adaptivePowerEn := rfl
@[simp] theorem State.lzTooLong_calValid (s : State) : s.lzTooLong.calValid = s.calValid := rfl
@[simp] theorem State.lzTooLong_ilvValid (s : State) : s.lzTooLong.ilvValid = s.ilvValid := rfl
@[simp] theorem State.lzTooLong_symValid (s : State) : s.lzTooLong.symValid = s.symValid := rfl
@[simp] theorem State.lzTooLong_slotYielded (s : State) : s.lzTooLong.slotYielded = s.slotYielded := rfl
@[simp] theorem State.lzTooLong_err (s : State) : s.lzTooLong.err = s.err ||| ResultCode.rangeError.errBit := rfl
@[simp] theorem State.lzTooLong_result (s : State) : s.lzTooLong.result = ResultCode.rangeError.word := rfl
@[simp] theorem State.lzTooLong_crc (s : State) : s.lzTooLong.crc = s.crc := rfl
@[simp] theorem State.lzTooLong_sum (s : State) : s.lzTooLong.sum = s.sum := rfl
@[simp] theorem State.lzTooLong_slotIdx (s : State) : s.lzTooLong.slotIdx = s.slotIdx := rfl
@[simp] theorem State.lzTooLong_numSlots (s : State) : s.lzTooLong.numSlots = s.numSlots := rfl
@[simp] theorem State.lzTooLong_rdata (s : State) : s.lzTooLong.rdata = s.rdata := rfl
@[simp] theorem State.lzTooLong_carrier (s : State) : s.lzTooLong.carrier = s.carrier := rfl
@[simp] theorem State.lzTooLong_power (s : State) : s.lzTooLong.power = s.power := rfl
@[simp] theorem State.lzTooLong_snrIn (s : State) : s.lzTooLong.snrIn = s.snrIn := rfl
@[simp] theorem State.lzTooLong_ib (s : State) : s.lzTooLong.ib = s.ib := rfl
@[simp] theorem State.lzTooLong_ob (s : State) : s.lzTooLong.ob = s.ob := rfl
@[simp] theorem State.lzTooLong_txBits (s : State) : s.lzTooLong.txBits = s.txBits := rfl
@[simp] theorem State.lzTooLong_stream (s : State) : s.lzTooLong.stream = s.stream := rfl
@[simp] theorem State.lzTooLong_syms (s : State) : s.lzTooLong.syms = s.syms := rfl
@[simp] theorem State.lzTooLong_samples (s : State) : s.lzTooLong.samples = s.samples := rfl
@[simp] theorem State.lzTooLong_spec (s : State) : s.lzTooLong.spec = s.spec := rfl
@[simp] theorem State.lzTooLong_win (s : State) : s.lzTooLong.win = s.win := rfl
@[simp] theorem State.lzTooLong_dec (s : State) : s.lzTooLong.dec = s.dec := rfl
@[simp] theorem State.lzTooLong_syncState (s : State) : s.lzTooLong.syncState = s.syncState := rfl
@[simp] theorem State.lzTooLong_rxBits (s : State) : s.lzTooLong.rxBits = s.rxBits := rfl
@[simp] theorem State.lzTooLong_pktBuf (s : State) : s.lzTooLong.pktBuf = s.pktBuf := rfl
@[simp] theorem State.lzTooLong_pktQ (s : State) : s.lzTooLong.pktQ = s.pktQ := rfl
@[simp] theorem State.lzTooLong_params (s : State) : s.lzTooLong.params = s.params := rfl
@[simp] theorem State.lzTooLong_host (s : State) : s.lzTooLong.host = s.host := rfl
@[simp] theorem State.lzTooLong_lzRun (s : State) : s.lzTooLong.lzRun = none := rfl

/-! ### `lzCorrupt`: A decoder that failed. -/

@[simp] theorem State.lzCorrupt_numChannels (s : State) : s.lzCorrupt.numChannels = s.numChannels := rfl
@[simp] theorem State.lzCorrupt_channelSpacingHz (s : State) :
    s.lzCorrupt.channelSpacingHz = s.channelSpacingHz := rfl
@[simp] theorem State.lzCorrupt_symbolDurationMs (s : State) :
    s.lzCorrupt.symbolDurationMs = s.symbolDurationMs := rfl
@[simp] theorem State.lzCorrupt_bitsPerSymbol (s : State) : s.lzCorrupt.bitsPerSymbol = s.bitsPerSymbol := rfl
@[simp] theorem State.lzCorrupt_useBinaryPayload (s : State) :
    s.lzCorrupt.useBinaryPayload = s.useBinaryPayload := rfl
@[simp] theorem State.lzCorrupt_signalThreshold (s : State) : s.lzCorrupt.signalThreshold = s.signalThreshold := rfl
@[simp] theorem State.lzCorrupt_adaptivePowerEn (s : State) : s.lzCorrupt.adaptivePowerEn = s.adaptivePowerEn := rfl
@[simp] theorem State.lzCorrupt_calValid (s : State) : s.lzCorrupt.calValid = s.calValid := rfl
@[simp] theorem State.lzCorrupt_ilvValid (s : State) : s.lzCorrupt.ilvValid = s.ilvValid := rfl
@[simp] theorem State.lzCorrupt_symValid (s : State) : s.lzCorrupt.symValid = s.symValid := rfl
@[simp] theorem State.lzCorrupt_slotYielded (s : State) : s.lzCorrupt.slotYielded = s.slotYielded := rfl
@[simp] theorem State.lzCorrupt_err (s : State) : s.lzCorrupt.err = s.err ||| ResultCode.corruptStream.errBit := rfl
@[simp] theorem State.lzCorrupt_result (s : State) : s.lzCorrupt.result = ResultCode.corruptStream.word := rfl
@[simp] theorem State.lzCorrupt_crc (s : State) : s.lzCorrupt.crc = s.crc := rfl
@[simp] theorem State.lzCorrupt_sum (s : State) : s.lzCorrupt.sum = s.sum := rfl
@[simp] theorem State.lzCorrupt_slotIdx (s : State) : s.lzCorrupt.slotIdx = s.slotIdx := rfl
@[simp] theorem State.lzCorrupt_numSlots (s : State) : s.lzCorrupt.numSlots = s.numSlots := rfl
@[simp] theorem State.lzCorrupt_rdata (s : State) : s.lzCorrupt.rdata = s.rdata := rfl
@[simp] theorem State.lzCorrupt_carrier (s : State) : s.lzCorrupt.carrier = s.carrier := rfl
@[simp] theorem State.lzCorrupt_power (s : State) : s.lzCorrupt.power = s.power := rfl
@[simp] theorem State.lzCorrupt_snrIn (s : State) : s.lzCorrupt.snrIn = s.snrIn := rfl
@[simp] theorem State.lzCorrupt_ib (s : State) : s.lzCorrupt.ib = s.ib := rfl
@[simp] theorem State.lzCorrupt_ob (s : State) : s.lzCorrupt.ob = [] := rfl
@[simp] theorem State.lzCorrupt_txBits (s : State) : s.lzCorrupt.txBits = s.txBits := rfl
@[simp] theorem State.lzCorrupt_stream (s : State) : s.lzCorrupt.stream = s.stream := rfl
@[simp] theorem State.lzCorrupt_syms (s : State) : s.lzCorrupt.syms = s.syms := rfl
@[simp] theorem State.lzCorrupt_samples (s : State) : s.lzCorrupt.samples = s.samples := rfl
@[simp] theorem State.lzCorrupt_spec (s : State) : s.lzCorrupt.spec = s.spec := rfl
@[simp] theorem State.lzCorrupt_win (s : State) : s.lzCorrupt.win = s.win := rfl
@[simp] theorem State.lzCorrupt_dec (s : State) : s.lzCorrupt.dec = s.dec := rfl
@[simp] theorem State.lzCorrupt_syncState (s : State) : s.lzCorrupt.syncState = s.syncState := rfl
@[simp] theorem State.lzCorrupt_rxBits (s : State) : s.lzCorrupt.rxBits = s.rxBits := rfl
@[simp] theorem State.lzCorrupt_pktBuf (s : State) : s.lzCorrupt.pktBuf = s.pktBuf := rfl
@[simp] theorem State.lzCorrupt_pktQ (s : State) : s.lzCorrupt.pktQ = s.pktQ := rfl
@[simp] theorem State.lzCorrupt_params (s : State) : s.lzCorrupt.params = s.params := rfl
@[simp] theorem State.lzCorrupt_host (s : State) : s.lzCorrupt.host = s.host := rfl
@[simp] theorem State.lzCorrupt_lzRun (s : State) : s.lzCorrupt.lzRun = none := rfl

/-! ### The values the registers' reads are made of -/

@[simp] theorem State.endWith_n (s : State) (code : ResultCode) : (s.endWith code).n = s.n := rfl
@[simp] theorem State.endWith_k (s : State) (code : ResultCode) : (s.endWith code).k = s.k := rfl
@[simp] theorem State.endWith_ns (s : State) (code : ResultCode) : (s.endWith code).ns = s.ns := rfl
@[simp] theorem State.endWith_profileOk (s : State) (code : ResultCode) :
    (s.endWith code).profileOk = s.profileOk := rfl
@[simp] theorem State.endWith_carrierHz (s : State) (code : ResultCode) (c : Fin 16) :
    (s.endWith code).carrierHz c = s.carrierHz c := rfl

/-! ### The codes -/

@[simp] theorem ResultCode.word_ok : ResultCode.ok.word = 0 := rfl
@[simp] theorem ResultCode.word_illegalCommand : ResultCode.illegalCommand.word = 1 := rfl
@[simp] theorem ResultCode.word_configError : ResultCode.configError.word = 2 := rfl
@[simp] theorem ResultCode.word_noViableBand : ResultCode.noViableBand.word = 3 := rfl
@[simp] theorem ResultCode.word_corruptStream : ResultCode.corruptStream.word = 4 := rfl
@[simp] theorem ResultCode.word_bufferOverflow : ResultCode.bufferOverflow.word = 5 := rfl
@[simp] theorem ResultCode.word_idle : ResultCode.idle.word = 6 := rfl
@[simp] theorem ResultCode.word_rangeError : ResultCode.rangeError.word = 7 := rfl
@[simp] theorem ResultCode.errBit_ok : ResultCode.ok.errBit = 0 := rfl
@[simp] theorem ResultCode.errBit_idle : ResultCode.idle.errBit = 0 := rfl
@[simp] theorem ResultCode.errBit_illegalCommand : ResultCode.illegalCommand.errBit = 0x0002 := rfl
@[simp] theorem ResultCode.errBit_configError : ResultCode.configError.errBit = 0x0004 := rfl
@[simp] theorem ResultCode.errBit_noViableBand : ResultCode.noViableBand.errBit = 0x0008 := rfl
@[simp] theorem ResultCode.errBit_corruptStream : ResultCode.corruptStream.errBit = 0x0010 := rfl
@[simp] theorem ResultCode.errBit_bufferOverflow : ResultCode.bufferOverflow.errBit = 0x0020 := rfl
@[simp] theorem ResultCode.errBit_rangeError : ResultCode.rangeError.errBit = 0x0080 := rfl

/-- A code is at most 7 (rule R282, I24). -/
theorem ResultCode.word_le_seven (c : ResultCode) : c.word.toNat ≤ 7 := by cases c <;> decide

/-- No code sets a reserved bit of `ERR` (rule R32, I23). -/
theorem ResultCode.errBit_reserved (c : ResultCode) : c.errBit &&& 0xFF41 = 0 := by cases c <;> decide

end Sys2Proof.Machine
end

