-- ==== Sys2Proof/Laws/Ops.lean ====
section
/-! SUPPORT. What each shared operation can do, said once: how a command ends, the register numbers, the channels, the
cells of `SPEC`, the lists of bits. -/

namespace Sys2Proof.Machine

/-! ## How a command ends -/

theorem finish_next {c : ResultCode} {s t : State} : finish c s = .next t ↔ t = s.endWith c := by
  simp [finish, eq_comm]

theorem State.endWith_ok (s : State) : s.endWith .ok = { s with result := 0 } := by
  simp [State.endWith]

theorem State.endWith_idle (s : State) : s.endWith .idle = { s with result := 6 } := by
  simp [State.endWith]

@[simp] theorem Capacity.allows_none (count : Nat) : Config.Capacity.allows none count = true := rfl

theorem Capacity.allows_some {bound count : Nat} : Config.Capacity.allows (some bound) count = true ↔ count ≤ bound := by
  simp [Config.Capacity.allows]

@[simp] theorem Capacity.allows_zero (c : Config.Capacity) : c.allows 0 = true := by cases c <;> simp [Config.Capacity.allows]

/-- What a buffer can hold, it can hold fewer of. -/
theorem Capacity.allows_of_le {c : Config.Capacity} {a b : Nat} (h : a ≤ b) (hb : c.allows b = true) :
    c.allows a = true := by
  cases c with
  | none => rfl
  | some bound => rw [Capacity.allows_some] at *; exact Nat.le_trans h hb

/-- A buffer that cannot hold everything has a finite capacity. -/
theorem Capacity.ne_none_of_full {c : Config.Capacity} {count : Nat} (h : c.allows count = false) : c ≠ none := by
  rintro rfl; simp at h

/-- What a command that fills a buffer does: it ends well where there is room, else with `RangeError` (rule R40). -/
theorem finishWithin_next {c : Config.Capacity} {count : Nat} {t s u : State} (h : finishWithin c count t s = .next u) :
    (c.allows count = true ∧ u = t.endWith .ok) ∨ (c.allows count = false ∧ u = s.endWith .rangeError) := by
  unfold finishWithin at h
  split at h
  · exact .inl ⟨‹_›, finish_next.1 h⟩
  · exact .inr ⟨Bool.eq_false_iff.2 ‹_›, finish_next.1 h⟩

theorem finishWithin_room {c : Config.Capacity} {count : Nat} {t s : State} (h : c.allows count = true) :
    finishWithin c count t s = .next (t.endWith .ok) := by simp [finishWithin, h, finish]

theorem finishWithin_full {c : Config.Capacity} {count : Nat} {t s : State} (h : c.allows count = false) :
    finishWithin c count t s = .next (s.endWith .rangeError) := by simp [finishWithin, h, finish]

/-- What a command that takes decisions does: `Idle` where every active channel is silent, else the bits appended, or
`RangeError` where `RXBITS` has no room for them. -/
theorem takeDecisions_next {dec : Vector Decision 16} {s t : State} (h : takeDecisions dec s = .next t) :
    (deinterleaveSlot dec s.n s.k = none ∧ t = { s with dec := dec, slotYielded := false }.endWith .idle) ∨
    ∃ bits, deinterleaveSlot dec s.n s.k = some bits ∧
      ((s.params.capacities.rxBits.allows (s.rxBits.length + bits.length) = true ∧
        t = { s with dec := dec, rxBits := s.rxBits ++ bits, slotYielded := true }.endWith .ok) ∨
      (s.params.capacities.rxBits.allows (s.rxBits.length + bits.length) = false ∧ t = s.endWith .rangeError)) := by
  unfold takeDecisions at h
  split at h
  · exact .inl ⟨‹_›, finish_next.1 h⟩
  · exact .inr ⟨_, ‹_›, finishWithin_next h⟩

/-- What an item of a stream does: illegal where no decoder stands at it, else one of the three ends of a pass. -/
theorem runItem_next {it : LzItem} {s t : State} (h : runItem it s = .next t) :
    (s.lzRun.bind (itemEffect it) = none ∧ t = s.endWith .illegalCommand) ∨
    (∃ r, s.lzRun.bind (itemEffect it) = some (.running r) ∧ t = { s with lzRun := some r }) ∨
    (∃ out, s.lzRun.bind (itemEffect it) = some (.done out) ∧
      t = if s.params.capacities.ob.allows out.length then s.lzDone out else s.lzTooLong) ∨
    (s.lzRun.bind (itemEffect it) = some .corrupt ∧ t = s.lzCorrupt) := by
  unfold runItem at h
  split at h
  · exact .inl ⟨‹_›, finish_next.1 h⟩
  all_goals simp only [Host.Outcome.next.injEq] at h
  · exact .inr (.inl ⟨_, ‹_›, h.symm⟩)
  · exact .inr (.inr (.inl ⟨_, ‹_›, h.symm⟩))
  · exact .inr (.inr (.inr ⟨‹_›, h.symm⟩))

theorem runAll_cons_next {i : Instr} {is : List Instr} {s t : State} :
    runAll (i :: is) s = .next t ↔ ∃ u, exec i s = .next u ∧ runAll is u = .next t := by
  cases h : exec i s <;> simp [runAll, h]

/-! ## Register numbers -/

theorem csrOf_eq_result {a : Byte} : csrOf a = some .result ↔ a = 0x09 := by
  constructor
  · intro h
    unfold csrOf at h
    split at h <;> simp_all
    exact BitVec.eq_of_toNat_eq (by simpa)
  · rintro rfl; rfl

theorem csrOf_unassigned {a : Byte} (h : 0x20 ≤ a.toNat) : csrOf a = none := by
  unfold csrOf
  split <;> first | omega | skip
  simp only [dite_eq_right_iff, reduceCtorEq, imp_false]
  omega

theorem csrOf_carrier (c : Fin 16) : csrOf (BitVec.ofNat 8 (0x10 + c.val)) = some (.carrier c) := by
  revert c; decide

/-! ## Channels -/

theorem mem_activeChannels {n : Nat} {c : Fin 16} : c ∈ activeChannels n ↔ c.val < n := by
  simp [activeChannels]

theorem activeChannels_length {n : Nat} (h : n ≤ 16) : (activeChannels n).length = n := by
  have : ∀ m : Fin 17, (activeChannels m.val).length = m.val := by decide
  exact this ⟨n, by omega⟩

theorem perChannel_get {α : Type} (n : Nat) (rest : α) (f : Fin 16 → α) (c : Fin 16) :
    (perChannel n rest f).get c = if c.val < n then f c else rest := by
  simp [perChannel, Vector.get_eq_getElem]

theorem perChannel_active {α : Type} {n : Nat} (rest : α) (f : Fin 16 → α) {c : Fin 16} (h : c.val < n) :
    (perChannel n rest f).get c = f c := by simp [perChannel_get, h]

theorem perChannel_unused {α : Type} {n : Nat} (rest : α) (f : Fin 16 → α) {c : Fin 16} (h : n ≤ c.val) :
    (perChannel n rest f).get c = rest := by simp [perChannel_get, Nat.not_lt.2 h]

/-- What the sixteen lists hold fits where the lists of the active channels do (rule R40). -/
theorem perChannel_allows {α : Type} {n : Nat} {f : Fin 16 → List α} {cap : Config.Capacity}
    (h : ∀ c : Fin 16, c.val < n → cap.allows (f c).length = true) (c : Fin 16) :
    cap.allows ((perChannel n [] f).get c).length = true := by
  rw [perChannel_get]
  split
  · exact h c ‹_›
  · simp

/-- `ceil(a / b)` is the least number whose `b`-fold is at least `a`. -/
theorem ceilDiv_le_iff {a b k : Nat} (hb : 0 < b) : ceilDiv a b ≤ k ↔ a ≤ k * b := by
  rw [ceilDiv, ← Nat.lt_succ_iff, Nat.div_lt_iff_lt_mul hb, Nat.succ_mul]
  omega

theorem lt_ceilDiv_iff {a b k : Nat} (hb : 0 < b) : k < ceilDiv a b ↔ k * b < a := by
  have := ceilDiv_le_iff (a := a) (k := k) hb
  omega

theorem ceilDiv_le_self (a b : Nat) : ceilDiv a b ≤ a := by
  rcases Nat.eq_zero_or_pos b with rfl | hb
  · simp [ceilDiv]
  · rw [ceilDiv_le_iff hb]; exact Nat.le_mul_of_pos_right a hb

/-! ## The lengths of what a command makes -/

@[simp] theorem interleaveStream_length (bits : List Bit) (n c : Nat) :
    (interleaveStream bits n c).length = ceilDiv bits.length n := by simp [interleaveStream]

@[simp] theorem symbolize_length (stream : List Bit) (k : Nat) : (symbolize stream k).length = ceilDiv stream.length k := by
  simp [symbolize]

@[simp] theorem chord_length (amplitude : Rat) (tones : List ToneSpec) (count : Nat) :
    (chord amplitude tones count).length = count := by simp [chord]

@[simp] theorem State.slotSamples_length (s : State) : s.slotSamples.length = s.ns := by simp [State.slotSamples]

@[simp] theorem State.preamble_length (s : State) : s.preamble.length = preambleLength := by
  simp only [State.preamble, List.length_append, chord_length, List.length_replicate, preambleLength]
  omega

theorem le_foldl_max (l : List Nat) (a : Nat) : a ≤ l.foldl max a ∧ ∀ x ∈ l, x ≤ l.foldl max a := by
  induction l generalizing a with
  | nil => simp
  | cons y l ih =>
    obtain ⟨hmax, hrest⟩ := ih (max a y)
    refine ⟨(Nat.le_max_left a y).trans hmax, fun x hx => ?_⟩
    rcases List.mem_cons.1 hx with rfl | hx
    · exact (Nat.le_max_right a x).trans hmax
    · exact hrest x hx

theorem foldl_max_le {l : List Nat} {a b : Nat} (ha : a ≤ b) (h : ∀ x ∈ l, x ≤ b) : l.foldl max a ≤ b := by
  induction l generalizing a with
  | nil => exact ha
  | cons y l ih =>
    exact ih (Nat.max_le.2 ⟨ha, h y List.mem_cons_self⟩) fun x hx => h x (List.mem_cons_of_mem y hx)

/-- The symbols of every active channel fit where the most of them do. -/
theorem allows_longestSyms {s : State} {cap : Config.Capacity} : cap.allows s.longestSyms = true ↔
    ∀ c : Fin 16, c.val < s.n → cap.allows (ceilDiv (s.stream.get c).length s.k) = true := by
  constructor
  · intro h c hc
    exact Capacity.allows_of_le
      ((le_foldl_max _ 0).2 _ (List.mem_map.2 ⟨c, mem_activeChannels.2 hc, rfl⟩)) h
  · intro h
    cases cap with
    | none => rfl
    | some bound =>
      rw [Capacity.allows_some]
      refine foldl_max_le (Nat.zero_le _) fun x hx => ?_
      obtain ⟨c, hc, rfl⟩ := List.mem_map.1 hx
      exact Capacity.allows_some.1 (h c (mem_activeChannels.1 hc))

/-! ## The cells of `SPEC` -/

theorem Memory.read_cellsFrom (l : List Byte) (k bin : Nat) :
    Memory.read (Memory.cellsFrom k l) bin = if k ≤ bin then l.getD (bin - k) 0 else 0 := by
  induction l generalizing k with
  | nil => simp [Memory.cellsFrom, Memory.read]
  | cons v vs ih =>
    by_cases hb : k = bin
    · subst hb
      by_cases hv : v = 0
      · subst hv; simp [Memory.cellsFrom, ih]
      · simp only [Memory.cellsFrom, if_neg hv, Memory.read, if_true]; simp
    · have step : (if k + 1 ≤ bin then vs.getD (bin - (k + 1)) 0 else 0) =
          if k ≤ bin then (v :: vs).getD (bin - k) 0 else 0 := by
        by_cases hk : k < bin
        · obtain ⟨d, rfl⟩ := Nat.exists_eq_add_of_lt hk
          simp [show k + d + 1 - k = d + 1 by omega, show k + d + 1 - (k + 1) = d by omega,
            show k ≤ k + d + 1 by omega]
        · simp [show ¬k + 1 ≤ bin by omega, show ¬k ≤ bin by omega]
      by_cases hv : v = 0
      · simp only [Memory.cellsFrom, hv, if_true, ih]; subst hv; exact step
      · simp only [Memory.cellsFrom, hv, if_false, Memory.read, hb, ih]; exact step

theorem Memory.head_cellsFrom {l : List Byte} {k : Nat} {c : Host.Cell} (h : (Memory.cellsFrom k l).head? = some c) :
    k ≤ c.1 := by
  induction l generalizing k with
  | nil => simp [Memory.cellsFrom] at h
  | cons v vs ih =>
    by_cases hv : v = 0
    · simp only [Memory.cellsFrom, hv, if_true] at h
      exact Nat.le_of_succ_le (ih h)
    · simp only [Memory.cellsFrom, hv, if_false, List.head?_cons, Option.some.injEq] at h
      subst h; exact Nat.le_refl k

/-- The host's write of the spectrum keeps the canonical form. -/
theorem Memory.wf_cellsFrom (l : List Byte) (k : Nat) (h : k + l.length ≤ 4096) :
    Memory.wf (Memory.cellsFrom k l) = true := by
  induction l generalizing k with
  | nil => rfl
  | cons v vs ih =>
    have ih := ih (k + 1) (by simp at h; omega)
    by_cases hv : v = 0
    · simpa only [Memory.cellsFrom, hv, if_true] using ih
    · simp only [Memory.cellsFrom, hv, if_false]
      rcases hm : Memory.cellsFrom (k + 1) vs with _ | ⟨⟨k', v'⟩, m⟩
      · simp only [List.length_cons] at h
        simp only [Memory.wf, Bool.and_eq_true, bne_iff_ne]
        exact ⟨decide_eq_true (show k < 4096 by omega), hv⟩
      · have := Memory.head_cellsFrom (l := vs) (k := k + 1) (c := (k', v')) (by simp [hm])
        rw [hm] at ih
        simp only [Memory.wf, ih, Bool.and_eq_true, decide_eq_true_eq, bne_iff_ne, and_true]
        exact ⟨this, hv⟩

/-! ## Bits and bytes -/

theorem bitsMsb_length (b : Byte) : (bitsMsb b).length = 8 := by simp [bitsMsb]

theorem bitsMsb_getD (b : Byte) {j : Nat} (h : j < 8) : (bitsMsb b).getD j false = b.getLsbD (7 - j) := by
  simp [bitsMsb, h]

theorem flatMap_bitsMsb_length (bytes : List Byte) : (bytes.flatMap bitsMsb).length = 8 * bytes.length := by
  induction bytes with
  | nil => rfl
  | cons b bs ih => simp [bitsMsb_length, ih]; omega

/-- A field formed most significant bit first: its bits are the bits given, and it is below `2^k`. -/
theorem fieldMsb_spec (k : Nat) (bit : Nat → Bit) :
    fieldMsb k bit < 2 ^ k ∧ ∀ j < k, (fieldMsb k bit).testBit (k - 1 - j) = bit j := by
  induction k generalizing bit with
  | zero => simp [fieldMsb]
  | succ k ih =>
    have hstep : fieldMsb (k + 1) bit = 2 ^ k * bitNat (bit 0) + fieldMsb k fun j => bit (j + 1) := by
      have : ∀ j : Nat, k - 1 - j = k - (j + 1) := by omega
      simp only [fieldMsb, List.range_succ_eq_map, List.map_cons, List.map_map, Function.comp_def, this,
        List.sum_cons, Nat.add_sub_cancel, Nat.sub_zero, Nat.mul_comm, Nat.succ_eq_add_one]
    obtain ⟨hlt, hbits⟩ := ih fun j => bit (j + 1)
    rw [hstep]
    constructor
    · have hb : bitNat (bit 0) ≤ 1 := by unfold bitNat; split <;> omega
      calc _ < 2 ^ k * bitNat (bit 0) + 2 ^ k := by omega
        _ ≤ 2 ^ k * 1 + 2 ^ k := by gcongr
        _ = 2 ^ (k + 1) := by rw [pow_succ]; omega
    · intro j hj
      rw [Nat.testBit_two_pow_mul_add _ hlt]
      rcases j with _ | j
      · have h : ¬k + 1 - 1 - 0 < k := by omega
        rw [if_neg h]
        cases bit 0 <;> simp [bitNat]
      · have h : k + 1 - 1 - (j + 1) < k := by omega
        rw [if_pos h, show k + 1 - 1 - (j + 1) = k - 1 - j by omega]
        exact hbits j (by omega)

theorem byteMsb_getLsbD (bits : List Bit) {j : Nat} (h : j < 8) :
    (byteMsb bits).getLsbD (7 - j) = bits.getD j false := by
  have := fieldMsb_spec 8 fun k => bits.getD k false
  simp only [byteMsb, BitVec.getLsbD_ofNat, show 7 - j < 8 by omega, decide_true, Bool.true_and]
  exact this.2 j h

@[simp] theorem frameBits_length (body : List Byte) : (frameBits body).length = 16 + 8 * body.length := by
  simp only [frameBits, List.length_append, flatMap_bitsMsb_length, Config.syncPattern, Config.suffixPattern,
    List.length_cons, List.length_nil]
  omega

/-- A byte serialised and assembled again is the byte. -/
theorem byteMsb_bitsMsb (b : Byte) (rest : List Bit) : byteMsb (bitsMsb b ++ rest) = b := by
  apply BitVec.eq_of_getLsbD_eq
  intro i hi
  have h := byteMsb_getLsbD (bitsMsb b ++ rest) (j := 7 - i) (by omega)
  rw [show 7 - (7 - i) = i by omega] at h
  have h8 : 7 - i < (bitsMsb b).length := by rw [bitsMsb_length]; omega
  rw [h, List.getD_append _ _ _ _ h8, bitsMsb_getD b (by omega), show 7 - (7 - i) = i by omega]

/-- Two bytes joined, the more significant first (rules R10, R62). -/
theorem toNat_join2 (hi lo : Byte) : (hi ++ lo : Half).toNat = hi.toNat * 256 + lo.toNat := by
  rw [BitVec.toNat_append, ← Nat.shiftLeft_add_eq_or_of_lt lo.isLt, Nat.shiftLeft_eq]

/-- Four bytes joined, the most significant first (rules R10, R62). -/
theorem toNat_join4 (b0 b1 b2 b3 : Byte) : (b0 ++ b1 ++ b2 ++ b3 : Word).toNat =
    ((b0.toNat * 256 + b1.toNat) * 256 + b2.toNat) * 256 + b3.toNat := by
  rw [BitVec.toNat_append, ← Nat.shiftLeft_add_eq_or_of_lt b3.isLt, Nat.shiftLeft_eq,
    BitVec.toNat_append, ← Nat.shiftLeft_add_eq_or_of_lt b2.isLt, Nat.shiftLeft_eq, toNat_join2]

end Sys2Proof.Machine
end

