-- ==== Sys2Proof/Laws/Codec.lean ====
section
/-! SUPPORT. The codec's helper functions: the matcher's comparison and scan, the decoder's copy, the encoder's tokens. -/

namespace Sys2Proof.Machine

/-! ## The matcher -/

/-- `commonLength` is the longest common beginning within its limit. -/
theorem le_commonLength {limit l : Nat} {xs ys : List Byte} : l ≤ commonLength limit xs ys ↔
    l ≤ limit ∧ l ≤ xs.length ∧ l ≤ ys.length ∧ ∀ j < l, xs[j]? = ys[j]? := by
  induction limit generalizing l xs ys with
  | zero => simp [commonLength]; intro h; subst h; simp
  | succ limit ih =>
    rcases xs with _ | ⟨x, xs⟩
    · simp [commonLength]; exact ⟨by rintro rfl; simp, fun h => h.2.1⟩
    rcases ys with _ | ⟨y, ys⟩
    · simp [commonLength]; exact ⟨by rintro rfl; simp, fun h => h.2.2.1⟩
    rcases l with _ | l
    · simp
    by_cases hxy : x = y
    · subst hxy
      simp only [commonLength, if_true, Nat.add_le_add_iff_right, ih, List.length_cons]
      refine and_congr_right fun _ => and_congr_right fun _ => and_congr_right fun _ => ⟨fun h j hj => ?_, fun h j hj => ?_⟩
      · rcases j with _ | j
        · simp
        · simpa using h j (by omega)
      · simpa using h (j + 1) (by omega)
    · simp only [commonLength, hxy, if_false, Nat.le_zero, Nat.succ_ne_zero, false_iff]
      rintro ⟨-, -, -, h⟩
      exact hxy (by simpa using h 0 (by omega))

/-- `matchLength` is the longest agreement within the lookahead and the data (rule R138). -/
theorem le_matchLength {b : List Byte} {i d l : Nat} (hd : d ≤ i) (hi : i ≤ b.length) :
    l ≤ matchLength b i d ↔ l ≤ 18 ∧ i + l ≤ b.length ∧ ∀ j < l, b[i - d + j]? = b[i + j]? := by
  simp only [matchLength, le_commonLength, List.length_drop, List.getElem?_drop, Config.lzLookahead]
  constructor
  · rintro ⟨h1, -, h2, h⟩; exact ⟨by omega, by omega, h⟩
  · rintro ⟨h1, h2, h⟩; exact ⟨by omega, by omega, by omega, h⟩

/-- What a scan of `count` distances from `d` upward ends with: the candidate it began with, or one of the distances
scanned, in both cases with a length nothing scanned exceeds, and the first scanned distance that has that length. -/
theorem lzScan_spec (b : List Byte) (i count d : Nat) (best : LzFound) :
    let f := lzScan b i count d best
    best.len ≤ f.len ∧ (∀ d', d ≤ d' → d' < d + count → matchLength b i d' ≤ f.len) ∧
    (f = best ∨ (d ≤ f.dist ∧ f.dist < d + count ∧ f.len = matchLength b i f.dist ∧ best.len < f.len ∧
      ∀ d', d ≤ d' → d' < f.dist → matchLength b i d' < f.len)) := by
  induction count generalizing d best with
  | zero => exact ⟨Nat.le_refl _, by intros; omega, .inl rfl⟩
  | succ count ih =>
    obtain ⟨h1, h2, h3⟩ := ih (d + 1) (if best.len < matchLength b i d then ⟨d, matchLength b i d⟩ else best)
    simp only [lzScan]
    split at h1 <;> rename_i hb <;> simp only [hb, if_true, if_false] at h2 h3 ⊢
    · simp only at h1
      refine ⟨by omega, fun d' h h' => ?_, .inr ?_⟩
      · rcases Nat.eq_or_lt_of_le h with rfl | h
        · exact h1
        · exact h2 d' h (by omega)
      · rcases h3 with h3 | ⟨a1, a2, a3, a4, a5⟩
        · rw [h3]; exact ⟨Nat.le_refl d, by dsimp only; omega, rfl, hb, fun d' h h' => by dsimp only at h'; omega⟩
        · refine ⟨by omega, by omega, a3, Nat.lt_trans hb a4, fun d' h h' => ?_⟩
          rcases Nat.eq_or_lt_of_le h with rfl | h
          · exact a4
          · exact a5 d' h h'
    · refine ⟨h1, fun d' h h' => ?_, ?_⟩
      · rcases Nat.eq_or_lt_of_le h with rfl | h
        · omega
        · exact h2 d' h (by omega)
      · rcases h3 with h3 | ⟨a1, a2, a3, a4, a5⟩
        · exact .inl h3
        · refine .inr ⟨by omega, by omega, a3, a4, fun d' h h' => ?_⟩
          rcases Nat.eq_or_lt_of_le h with rfl | h
          · omega
          · exact a5 d' h h'

/-! ## The decoder's copy -/

theorem lzCopy_length (d l : Nat) (out : List Byte) : (lzCopy d l out).length = out.length + l := by
  induction l generalizing out with
  | zero => rfl
  | succ l ih => simp [lzCopy, ih]; omega

theorem prefix_lzCopy (d l : Nat) (out : List Byte) : out <+: lzCopy d l out := by
  induction l generalizing out with
  | zero => exact List.prefix_refl _
  | succ l ih => exact (List.prefix_append _ _).trans (ih _)

/-- Each byte copied is the byte `d` before it, also where that byte was copied itself. -/
theorem lzCopy_getElem? {d l j : Nat} {out : List Byte} (hd : 1 ≤ d) (hout : d ≤ out.length) (hj : j < l) :
    (lzCopy d l out)[out.length + j]? = (lzCopy d l out)[out.length + j - d]? := by
  induction l generalizing out j with
  | zero => omega
  | succ l ih =>
    have hlen : (out ++ [out.getD (out.length - d) 0]).length = out.length + 1 := by simp
    have hp := prefix_lzCopy d l (out ++ [out.getD (out.length - d) 0])
    obtain ⟨rest, hrest⟩ := hp
    rcases j with _ | j
    · simp only [lzCopy, Nat.add_zero]
      rw [← hrest, List.append_assoc, List.getElem?_append_right (Nat.le_refl _),
        List.getElem?_append_left (show out.length - d < out.length by omega)]
      simp [List.getD_eq_getElem?_getD, List.getElem?_eq_getElem (show out.length - d < out.length by omega)]
    · have := ih (out := out ++ [out.getD (out.length - d) 0]) (j := j) (by rw [hlen]; omega) (by omega)
      rw [hlen] at this
      simpa [lzCopy, Nat.add_assoc, Nat.add_comm 1 j] using this

/-! ## The items -/

/-- Running a command changes `lzRun` only through an item. -/
theorem itemEffect_none (it : LzItem) (s : State) (h : s.lzRun = none) :
    runItem it s = finish .illegalCommand s := by simp [runItem, h]

/-- A token moves the encoder's cursor. -/
theorem lzTokenAt_pos (b : List Byte) (i : Nat) : 1 ≤ (lzTokenAt b i).2 := by
  unfold lzTokenAt Config.lzMinMatch
  dsimp only
  by_cases h : 3 ≤ (lzMatch b i).len
  · rw [if_pos h]; exact Nat.le_trans (by decide) h
  · rw [if_neg h]; split <;> exact Nat.le_refl 1

/-- Any fuel that reaches the end gives the same tokens. -/
theorem lzTokensFrom_fuel (b : List Byte) (f g i : Nat) (hf : b.length ≤ f + i) (hg : b.length ≤ g + i) :
    lzTokensFrom b f i = lzTokensFrom b g i := by
  induction f generalizing g i with
  | zero => cases g <;> simp [lzTokensFrom]; omega
  | succ f ih =>
    rcases g with _ | g
    · simp [lzTokensFrom]; omega
    · have := lzTokenAt_pos b i
      simp only [lzTokensFrom, ih g (i + (lzTokenAt b i).2) (by omega) (by omega)]

/-- The encoder's loop, without its fuel. -/
theorem lzTokensFrom_step (b : List Byte) (i : Nat) : lzTokensFrom b b.length i =
    if i < b.length then (lzTokenAt b i).1 :: lzTokensFrom b b.length (i + (lzTokenAt b i).2) else [] := by
  have := lzTokenAt_pos b i
  rw [lzTokensFrom_fuel b b.length (b.length + 1) i (by omega) (by omega), lzTokensFrom]

/-- Every item read is at least one byte. -/
theorem decodeToken_length {z rest : List Byte} {it : LzItem} (h : decodeToken z = .ok (it, rest)) :
    rest.length < z.length := by
  rcases z with _ | ⟨b, z⟩
  · simp [decodeToken] at h
  · simp only [decodeToken] at h
    split at h
    · unfold decodeMarked at h
      repeat' split at h
      all_goals simp at h
      all_goals obtain ⟨-, rfl⟩ := h; simp; omega
    · simp at h; obtain ⟨-, rfl⟩ := h; simp

end Sys2Proof.Machine
end

