-- ==== Sys2Proof/Laws/Exact.lean ====
section
/-! SUPPORT. The exact operations on samples are the operations on the real numbers they stand for. -/

namespace Sys2Proof

/-- The cosine of a whole number of arcs. -/
noncomputable def arcCos (k : Int) : ℝ := Real.cos (2 * Real.pi * (k : ℝ) / 88200)

/-- The sine of a whole number of arcs. -/
noncomputable def arcSin (k : Int) : ℝ := Real.sin (2 * Real.pi * (k : ℝ) / 88200)

/-- The product of open reals. -/
noncomputable def opensReal (opens : List Nat) : ℝ := (opens.map openReal).prod

@[simp] theorem opensReal_nil : opensReal [] = 1 := rfl

theorem opensReal_append (a b : List Nat) : opensReal (a ++ b) = opensReal a * opensReal b := by simp [opensReal]

theorem Tone.toReal_eq (t : Tone) : t.toReal = (t.amp : ℝ) * arcCos t.arc * opensReal t.opens := by
  simp [Tone.toReal, arcCos, opensReal]

/-- Whole turns do not matter. -/
theorem arcCos_add_turns (k m : Int) : arcCos (k + 88200 * m) = arcCos k := by
  have : 2 * Real.pi * ((k + 88200 * m : Int) : ℝ) / 88200 = 2 * Real.pi * (k : ℝ) / 88200 + m * (2 * Real.pi) := by
    push_cast; ring
  rw [arcCos, this, Real.cos_add_int_mul_two_pi, arcCos]

theorem arcCos_arcOf (k : Int) : arcCos (arcOf k) = arcCos k := by
  have h : (arcOf k : Int) = k % 88200 := by
    simp only [arcOf, turnArcs]
    exact Int.toNat_of_nonneg (Int.emod_nonneg _ (by norm_num))
  rw [h, ← arcCos_add_turns (k % 88200) (k / 88200), Int.emod_add_mul_ediv]

theorem arcCos_natMod (k : Nat) : arcCos ((k % turnArcs : Nat) : Int) = arcCos k := by
  rw [← arcCos_arcOf (k : Int)]
  congr 1

/-- A sine is the cosine a quarter turn earlier. -/
theorem arcCos_quarter (k : Int) : arcCos (k - 22050) = arcSin k := by
  have : 2 * Real.pi * ((k - 22050 : Int) : ℝ) / 88200 = 2 * Real.pi * (k : ℝ) / 88200 - Real.pi / 2 := by
    push_cast; ring
  rw [arcCos, this, Real.cos_sub_pi_div_two, arcSin]

/-- The product of two cosines. -/
theorem arcCos_mul (a b : Int) : arcCos a * arcCos b = (arcCos (a + b) + arcCos (a - b)) / 2 := by
  have h1 : 2 * Real.pi * ((a + b : Int) : ℝ) / 88200 = 2 * Real.pi * (a : ℝ) / 88200 + 2 * Real.pi * (b : ℝ) / 88200 := by
    push_cast; ring
  have h2 : 2 * Real.pi * ((a - b : Int) : ℝ) / 88200 = 2 * Real.pi * (a : ℝ) / 88200 - 2 * Real.pi * (b : ℝ) / 88200 := by
    push_cast; ring
  rw [arcCos, arcCos, arcCos, arcCos, h1, h2, Real.cos_add, Real.cos_sub]
  ring

namespace Sample

@[simp] theorem toReal_nil : toReal [] = 0 := rfl

theorem toReal_cons (t : Tone) (x : Sample) : toReal (t :: x) = (t.amp : ℝ) * arcCos t.arc * opensReal t.opens + toReal x := by
  rw [← Tone.toReal_eq]; rfl

theorem toReal_append (x y : Sample) : toReal (x ++ y) = toReal x + toReal y := by simp [toReal]

theorem toReal_add (x y : Sample) : toReal (x.add y) = toReal x + toReal y := toReal_append x y

theorem toReal_scale (q : Rat) (x : Sample) : toReal (x.scale q) = (q : ℝ) * toReal x := by
  induction x with
  | nil => simp [scale]
  | cons t x ih =>
    have : Sample.scale q (t :: x) = ⟨q * t.amp, t.arc, t.opens⟩ :: Sample.scale q x := rfl
    rw [this, toReal_cons, ih, toReal_cons]; push_cast; ring

theorem toReal_neg (x : Sample) : toReal x.neg = -toReal x := by rw [neg, toReal_scale]; push_cast; ring

theorem toReal_sub (x y : Sample) : toReal (x.sub y) = toReal x - toReal y := by
  rw [sub, toReal_add, toReal_neg]; ring

theorem toReal_ofRat (q : Rat) : toReal (ofRat q) = (q : ℝ) := by
  unfold ofRat
  split
  · simp [*]
  · simp [toReal_cons, arcCos]

theorem toReal_mulCos (x : Sample) (k : Int) : toReal (x.mulCos k) = toReal x * arcCos k := by
  induction x with
  | nil => simp [mulCos]
  | cons t x ih =>
    have hcons : Sample.mulCos (t :: x) k = ⟨t.amp / 2, arcOf (t.arc + k), t.opens⟩ ::
        ⟨t.amp / 2, arcOf (t.arc - k), t.opens⟩ :: Sample.mulCos x k := rfl
    have hmul := arcCos_mul t.arc k
    rw [hcons, toReal_cons, toReal_cons, ih, toReal_cons, arcCos_arcOf, arcCos_arcOf]
    push_cast
    linear_combination -(t.amp : ℝ) * opensReal t.opens * hmul

theorem toReal_mulSin (x : Sample) (k : Int) : toReal (x.mulSin k) = toReal x * arcSin k := by
  rw [mulSin, toReal_mulCos, arcCos_quarter]

theorem toReal_mulOpens (x : Sample) (opens : List Nat) : toReal (x.mulOpens opens) = toReal x * opensReal opens := by
  induction x with
  | nil => simp [mulOpens]
  | cons t x ih =>
    have : Sample.mulOpens (t :: x) opens = ⟨t.amp, t.arc, t.opens ++ opens⟩ :: Sample.mulOpens x opens := rfl
    rw [this, toReal_cons, ih, toReal_cons, opensReal_append]; ring

theorem toReal_mul (x y : Sample) : toReal (x.mul y) = toReal x * toReal y := by
  induction y with
  | nil => simp [mul]
  | cons t y ih =>
    have : Sample.mul x (t :: y) = ((x.mulCos t.arc).scale t.amp).mulOpens t.opens ++ Sample.mul x y := rfl
    rw [this, toReal_append, toReal_mulOpens, toReal_scale, toReal_mulCos, ih, toReal_cons]; ring

/-- A sample's terms may be parted. -/
theorem toReal_filter (x : Sample) (p : Tone → Bool) :
    toReal (x.filter p) + toReal (x.filter fun t => !p t) = toReal x := by
  induction x with
  | nil => simp
  | cons t x ih => cases h : p t <;> simp [h, toReal_cons, ← ih] <;> ring

end Sample

/-! ## Collecting like terms -/

/-- Adding to a table adds the term whose arc has `above` as its high bits and those of `k` as its low ones. -/
theorem ArcTable.toReal_add (k : Nat) (a : Rat) (bits above : Nat) (t : ArcTable) :
    Sample.toReal ((t.add k a bits).terms above bits) =
      Sample.toReal (t.terms above bits) + (a : ℝ) * arcCos ((above * 2 ^ bits + k % 2 ^ bits : Nat) : Int) := by
  induction bits generalizing above t with
  | zero =>
    have h0 : ∀ q : Rat, Sample.toReal (if q = 0 then [] else [⟨q, above, []⟩]) = (q : ℝ) * arcCos above := by
      intro q
      split
      · simp [*]
      · simp [Sample.toReal_cons]
    rcases t with _ | ⟨r, l, o⟩
    · simp [ArcTable.add, ArcTable.terms, ArcTable.root, h0, Nat.mod_one]
    · simp only [ArcTable.add, ArcTable.terms, ArcTable.root, h0, pow_zero, Nat.mod_one, mul_one, add_zero]
      push_cast; ring
  | succ b ih =>
    have hz : Sample.toReal (t.terms above (b + 1)) =
        Sample.toReal (t.zeros.terms (2 * above) b) + Sample.toReal (t.ones.terms (2 * above + 1) b) := by
      rcases t with _ | ⟨r, l, o⟩
      · simp [ArcTable.terms, ArcTable.zeros, ArcTable.ones]
      · simp [ArcTable.terms, ArcTable.zeros, ArcTable.ones, Sample.toReal_append]
    have hmod : k % 2 ^ (b + 1) = (if k.testBit b then 2 ^ b else 0) + k % 2 ^ b := by
      rw [Nat.mod_pow_succ, Nat.testBit_eq_decide_div_mod_eq, Nat.add_comm]
      rcases Nat.mod_two_eq_zero_or_one (k / 2 ^ b) with h | h <;> simp [h]
    rw [hz, hmod]
    by_cases hk : k.testBit b = true
    · simp only [ArcTable.add, hk, if_true, ArcTable.terms, Sample.toReal_append, ih]
      rw [show (2 * above + 1) * 2 ^ b + k % 2 ^ b = above * 2 ^ (b + 1) + (2 ^ b + k % 2 ^ b) by ring]
      ring
    · simp only [ArcTable.add, hk, Bool.false_eq_true, if_false, ArcTable.terms, Sample.toReal_append, ih]
      rw [show 2 * above * 2 ^ b + k % 2 ^ b = above * 2 ^ (b + 1) + (0 + k % 2 ^ b) by ring]
      ring

/-- Collecting closed terms in a table keeps the number. -/
theorem ArcTable.toReal_foldl (y : Sample) (hy : ∀ t ∈ y, t.closed = true) (t : ArcTable) :
    Sample.toReal ((y.foldl (fun t tone => t.add (tone.arc % turnArcs) tone.amp arcBits) t).terms 0 arcBits) =
      Sample.toReal (t.terms 0 arcBits) + Sample.toReal y := by
  induction y generalizing t with
  | nil => simp
  | cons tone y ih =>
    have hopens : tone.opens = [] := List.isEmpty_iff.1 (hy tone List.mem_cons_self)
    have hlt : tone.arc % turnArcs % 2 ^ arcBits = tone.arc % turnArcs :=
      Nat.mod_eq_of_lt (lt_trans (Nat.mod_lt _ (by decide)) (by decide))
    rw [List.foldl_cons, ih fun u hu => hy u (List.mem_cons_of_mem _ hu), ArcTable.toReal_add, hlt, Nat.zero_mul,
      Nat.zero_add, arcCos_natMod, Sample.toReal_cons, hopens, opensReal_nil]
    ring

/-- Collecting like terms keeps the number. -/
theorem Sample.toReal_collect (x : Sample) : Sample.toReal x.collect = Sample.toReal x := by
  rw [Sample.collect, Sample.toReal_append, ArcTable.toReal_foldl _ (fun t ht => (List.mem_filter.1 ht).2)]
  simp [ArcTable.terms, ← Sample.toReal_filter x Tone.closed]

/-! ## Open reals -/

/-- Every real number has a whole part and binary digits, so an open real may be any real number (rules R12, R44, R214). -/
theorem every_real_has_digits (r : ℝ) : ∃ (whole : Int) (digit : Nat → Bool),
    r = (whole : ℝ) + Real.ofDigits fun j => if digit j then (1 : Fin 2) else 0 := by
  refine ⟨⌊r⌋, fun j => decide (Real.digits (Int.fract r) 2 j = 1), ?_⟩
  have hdigit : (fun j => if decide (Real.digits (Int.fract r) 2 j = 1) = true then (1 : Fin 2) else 0) =
      Real.digits (Int.fract r) 2 := by
    funext j
    generalize Real.digits (Int.fract r) 2 j = d
    revert d; decide
  rw [hdigit, Real.ofDigits_digits (by norm_num) ⟨Int.fract_nonneg r, Int.fract_lt_one r⟩, Int.floor_add_fract]

/-- The first `p` digits of an open real leave less than the last of them. -/
theorem openReal_sub_digits (index p : Nat) : 0 ≤ openReal index - (openDigits index p : ℝ) / 2 ^ p ∧
    openReal index - (openDigits index p : ℝ) / 2 ^ p ≤ 1 / 2 ^ p := by
  let d : Nat → Fin 2 := fun j => if Config.openDigit index j then 1 else 0
  have hsum : (openDigits index p : ℝ) / 2 ^ p =
      (Config.openWhole index : ℝ) + ∑ j ∈ Finset.range p, Real.ofDigitsTerm d j := by
    induction p with
    | zero => simp [openDigits]
    | succ p ih =>
      have hterm : Real.ofDigitsTerm d p = (if Config.openDigit index p then 1 else 0 : ℝ) * (2 ^ (p + 1))⁻¹ := by
        cases h : Config.openDigit index p <;> simp [Real.ofDigitsTerm, d, h]
      rw [Finset.sum_range_succ, hterm, ← add_assoc, ← ih, openDigits]
      push_cast
      cases Config.openDigit index p <;> simp <;> field_simp <;> ring
  have htail := Real.ofDigits_eq_sum_add_ofDigits d p
  have hval : openReal index - (openDigits index p : ℝ) / 2 ^ p =
      ((2 : ℝ) ^ p)⁻¹ * Real.ofDigits fun j => d (j + p) := by
    rw [hsum, openReal]
    push_cast at htail
    linear_combination htail
  have h0 := Real.ofDigits_nonneg fun j => d (j + p)
  have h1 := Real.ofDigits_le_one fun j => d (j + p)
  rw [hval, one_div]
  exact ⟨by positivity, mul_le_of_le_one_right (by positivity) h1⟩

/-! ## The sign -/

/-- A sign the search finds is the sign of one of the intervals tried. -/
theorem searchSign_some {approx : Nat → Interval} {p : Nat} {o : Ordering} (h : searchSign approx p = some o) :
    ∃ k, (approx (2 ^ k * p)).sign = some o := by
  refine searchSign.partial_correctness approx (fun p o => ∃ k, (approx (2 ^ k * p)).sign = some o) ?_ p o h
  intro search ih p o h
  split at h
  · exact ⟨0, by simp_all⟩
  · obtain ⟨k, hk⟩ := ih _ _ h
    exact ⟨k + 1, by rw [← hk, pow_succ, mul_assoc]⟩

/-- Where the search finds no sign, no interval tried has one. -/
theorem searchSign_none {approx : Nat → Interval} {p : Nat} (h : searchSign approx p = none) (k : Nat) :
    (approx (2 ^ k * p)).sign = none := by
  induction k generalizing p with
  | zero => rw [searchSign] at h; split at h <;> simp_all
  | succ k ih =>
    rw [searchSign] at h
    split at h
    · simp at h
    · rw [← ih h, pow_succ, mul_assoc]

/-- The interval encloses the number. -/
def Interval.Encloses (i : Interval) (v : ℝ) : Prop := |v - (i.mid : ℝ)| ≤ (i.rad : ℝ)

/-- An interval's sign is the sign of every number it encloses. -/
theorem Interval.sign_compares {i : Interval} {v : ℝ} {o : Ordering} (hv : i.Encloses v) (h : i.sign = some o) :
    o.Compares v 0 := by
  have hv := abs_le.1 hv
  unfold Interval.sign at h
  split at h
  · have : (i.rad : ℝ) < i.mid := by exact_mod_cast ‹i.rad < i.mid›
    obtain rfl := Option.some.inj h
    show v > 0
    linarith [hv.1]
  · split at h
    · have : (i.mid : ℝ) < -i.rad := by exact_mod_cast ‹i.mid < -i.rad›
      obtain rfl := Option.some.inj h
      show v < 0
      linarith [hv.2]
    · simp at h

/-- An interval without a sign is no farther from 0 than it is wide. -/
theorem Interval.abs_le_of_sign_none {i : Interval} {v : ℝ} (hv : i.Encloses v) (h : i.sign = none) :
    |v| ≤ 2 * (i.rad : ℝ) := by
  have hv := abs_le.1 hv
  unfold Interval.sign at h
  split at h
  · simp at h
  · split at h
    · simp at h
    · have h1 : (i.mid : ℝ) ≤ i.rad := by exact_mod_cast not_lt.1 ‹¬i.rad < i.mid›
      have h2 : -(i.rad : ℝ) ≤ i.mid := by exact_mod_cast not_lt.1 ‹¬i.mid < -i.rad›
      exact abs_le.2 ⟨by linarith [hv.1], by linarith [hv.2]⟩

theorem ratAbs_eq (q : Rat) : ratAbs q = |q| := by
  unfold ratAbs
  split
  · exact (abs_of_neg ‹_›).symm
  · exact (abs_of_nonneg (not_lt.1 ‹_›)).symm

theorem Interval.encloses_point (q : Rat) : (Interval.point q).Encloses (q : ℝ) := by simp [Encloses, point]

theorem Interval.encloses_add {i j : Interval} {v w : ℝ} (hv : i.Encloses v) (hw : j.Encloses w) :
    (i.add j).Encloses (v + w) := by
  have h : v + w - ((i.add j).mid : ℝ) = (v - i.mid) + (w - j.mid) := by simp only [add]; push_cast; ring
  rw [Encloses, h]
  refine (abs_add_le _ _).trans ?_
  simpa only [add, Rat.cast_add] using add_le_add hv hw

theorem Interval.encloses_scale (q : Rat) {i : Interval} {v : ℝ} (hv : i.Encloses v) :
    (i.scale q).Encloses ((q : ℝ) * v) := by
  have h : (q : ℝ) * v - ((i.scale q).mid : ℝ) = q * (v - i.mid) := by simp only [scale]; push_cast; ring
  rw [Encloses, h, abs_mul]
  simpa only [scale, ratAbs_eq, Rat.cast_mul, Rat.cast_abs] using mul_le_mul_of_nonneg_left hv (abs_nonneg _)

theorem Interval.encloses_mul {i j : Interval} {v w : ℝ} (hv : i.Encloses v) (hw : j.Encloses w) :
    (i.mul j).Encloses (v * w) := by
  have h : v * w - ((i.mul j).mid : ℝ) = i.mid * (w - j.mid) + j.mid * (v - i.mid) + (v - i.mid) * (w - j.mid) := by
    simp only [mul]; push_cast; ring
  rw [Encloses, h]
  refine (abs_add_le _ _).trans (le_trans (add_le_add_left (abs_add_le _ _) _) ?_)
  rw [abs_mul, abs_mul, abs_mul]
  have hr : 0 ≤ (i.rad : ℝ) := (abs_nonneg _).trans hv
  simp only [mul, ratAbs_eq]
  push_cast
  exact add_le_add (add_le_add (mul_le_mul_of_nonneg_left hw (abs_nonneg _)) (mul_le_mul_of_nonneg_left hv (abs_nonneg _)))
    (mul_le_mul hv hw (abs_nonneg _) hr)

/-- The interval of an open real encloses it. -/
theorem openInterval_encloses (p index : Nat) : (openInterval p index).Encloses (openReal index) := by
  obtain ⟨h0, h1⟩ := openReal_sub_digits index p
  simp only [Interval.Encloses, openInterval]
  push_cast
  rwa [abs_of_nonneg h0]

/-- What the sign of a number is, where the intervals enclose it and shrink to it, and the exact test for 0 is right. -/
theorem signWith_compares {approx : Nat → Interval} {exact : Unit → Sample} {v : ℝ}
    (hencl : ∀ k, (approx (2 ^ k * 64)).Encloses v)
    (hrad : Filter.Tendsto (fun k => ((approx (2 ^ k * 64)).rad : ℝ)) Filter.atTop (nhds 0))
    (hzero : (exact ()).isZero = true → v = 0) : (signWith approx exact).Compares v 0 := by
  have h64 := hencl 0
  rw [pow_zero, one_mul] at h64
  unfold signWith
  cases hsign : (approx 64).sign with
  | some o => exact Interval.sign_compares h64 hsign
  | none =>
    cases hz : (exact ()).isZero with
    | true => exact hzero hz
    | false =>
      cases h : searchSign approx 128 with
      | some o =>
        obtain ⟨k, hk⟩ := searchSign_some h
        exact Interval.sign_compares (hencl (k + 1)) (by rw [pow_succ, mul_assoc]; exact hk)
      | none =>
        have hle : ∀ k, |v| ≤ 2 * ((approx (2 ^ (k + 1) * 64)).rad : ℝ) := fun k =>
          Interval.abs_le_of_sign_none (hencl (k + 1)) (by rw [pow_succ, mul_assoc]; exact searchSign_none h k)
        have hlim := ((hrad.comp (Filter.tendsto_add_atTop_nat 1)).const_mul 2)
        rw [mul_zero] at hlim
        exact abs_nonpos_iff.1 (ge_of_tendsto' hlim hle)

end Sys2Proof
end

