-- ==== Sys2Proof/Laws/Invariant.lean ====
section
/-! SUPPORT. Facts the invariant rests on: what a configured profile holds, how a command's end keeps the invariant, the
bounds of the power controller, the constraints on the parameters. -/

namespace Sys2Proof.Machine

/-- A configured profile holds legal values (rule R39). -/
theorem profile_values {s : State} (h : RegistersLegal s) (hp : s.profileOk = true) :
    s.n ∈ [4, 8, 12, 16] ∧ s.k ∈ [1, 2, 3] ∧ 1 ≤ s.channelSpacingHz.toNat ∧ 1 ≤ s.symbolDurationMs.toNat := by
  have ne : ∀ x : Half, (x != 0) = true → x.toNat ≠ 0 := by
    intro x hx h0
    have : x = 0 := BitVec.eq_of_toNat_eq h0
    subst this; simp at hx
  simp only [State.profileOk, Bool.and_eq_true] at hp
  obtain ⟨⟨⟨h1, h2⟩, h3⟩, h4⟩ := hp
  have := ne _ h1; have := ne _ h2; have := ne _ h3; have := ne _ h4
  have hn := h.numChannels; have hk := h.bitsPerSymbol
  simp only [List.mem_cons, List.not_mem_nil, or_false] at hn hk ⊢
  simp only [State.n, State.k]
  omega

theorem and_or_zero {x y m : Half} (hx : x &&& m = 0) (hy : y &&& m = 0) : (x ||| y) &&& m = 0 := by
  have : (x ||| y) &&& m = (x &&& m) ||| (y &&& m) := by
    ext i; simp only [BitVec.getElem_and, BitVec.getElem_or]; cases x[i] <;> cases y[i] <;> cases m[i] <;> rfl
  rw [this, hx, hy]; rfl

theorem ResultCode.word_le (c : ResultCode) : c.word.toNat ≤ 7 := by cases c <;> decide

/-- A command's end keeps the invariant. -/
theorem Inv.endWith {s : State} {c : ResultCode} (h : Inv s) : Inv (s.endWith c) := by
  refine ⟨⟨h.registers.1, h.registers.2, h.registers.3, h.registers.4, h.registers.5⟩, fun hc => ?_, fun hi => ?_,
    fun hs => ?_, h.slots, h.hunting, h.packet, ?_, h.power, and_or_zero h.errBits c.errBit_reserved, c.word_le, h.spectrum,
    h.parameters⟩
  · obtain ⟨a, b, c, d, e⟩ := h.calibration hc; exact ⟨a, b, c, d, e⟩
  · obtain ⟨a, b, c, d⟩ := h.streams hi; exact ⟨a, b, c, d⟩
  · obtain ⟨a, b, c, d⟩ := h.symbols hs; exact ⟨a, b, c, d⟩
  · obtain ⟨a, b, c, d, e, f, g, i, j⟩ := h.capacities; exact ⟨a, b, c, d, e, f, g, i, j⟩

/-- The power controller stays between its bounds (rule R182). -/
theorem pwrNext_mem {p : Config.Params} (hp : p.ok) {x : Rat} (snr : Rat) (h : p.minPower ≤ x ∧ x ≤ p.maxPower) :
    p.minPower ≤ pwrNext p.minPower p.maxPower x snr ∧ pwrNext p.minPower p.maxPower x snr ≤ p.maxPower := by
  have hle : p.minPower ≤ p.maxPower := le_trans hp.2.1 hp.2.2.1
  unfold pwrNext clampPower
  split
  · exact h
  · split <;> exact ⟨le_min hle (le_max_left _ _), min_le_left _ _⟩

theorem fixedPower_eq : Config.fixedPower = 1 / 10 := by
  rw [show Config.fixedPower = mkRat 1 10 from rfl, Rat.mkRat_eq_div]; norm_num

/-- The parameters at reset meet the constraints of rule R7. -/
theorem reference_ok : Config.Params.reference.ok := by
  have h10 : (0 : Rat) < Config.fixedPower := by rw [fixedPower_eq]; norm_num
  have hmil : 0 ≤ Sample.toReal Config.Params.reference.pskMinAmpl := by
    rw [show Config.Params.reference.pskMinAmpl = [⟨mkRat 1 1000, 0, []⟩] from rfl, Rat.mkRat_eq_div, Sample.toReal_cons]
    simp [arcCos]
  refine ⟨?_, ?_, ?_, hmil⟩ <;> simp only [Config.Params.reference, Config.minPower, Config.maxPower] <;> split
  · exact (‹_› : _ ∧ _).1
  · exact h10
  · exact (‹_› : _ ∧ _).2
  · exact le_refl _
  · assumption
  · exact le_refl _

end Sys2Proof.Machine
end

