-- ==== Sys2Proof/Laws/PerInstr.lean ====
section
/-! SUPPORT. One lemma for each instruction: its code has the form that its row of spec/opcode_table.json gives it. -/

namespace Sys2Proof.Laws.CodeForm

/-- The match and the mask of a command's row; none for the items of a compressed stream. -/
def rowOf : Instr → Option (Word × Word)
  | .nop => some (0x00000000, 0xFFFFFFFF)
  | .reset => some (0x01000000, 0xFFFFFFFF)
  | .csrw _ _ => some (0x02000000, 0xFF000000)
  | .csrr _ => some (0x03000000, 0xFF00FFFF)
  | .ldcal _ => some (0x04000000, 0xFFFF0000)
  | .crcInit => some (0x10000000, 0xFFFFFFFF)
  | .crcStep _ => some (0x11000000, 0xFFFFFF00)
  | .crcBuf => some (0x12000000, 0xFFFFFFFF)
  | .sumBuf => some (0x13000000, 0xFFFFFFFF)
  | .lzEnc => some (0x14000000, 0xFFFFFFFF)
  | .lzDec => some (0x15000000, 0xFFFFFFFF)
  | .ilv => some (0x20000000, 0xFFFFFFFF)
  | .symb => some (0x21000000, 0xFFFFFFFF)
  | .modSlot => some (0x22000000, 0xFFFFFFFF)
  | .modPre => some (0x23000000, 0xFFFFFFFF)
  | .pwrUpd => some (0x24000000, 0xFFFFFFFF)
  | .demTick => some (0x30000000, 0xFFFFFFFF)
  | .demIq => some (0x31000000, 0xFFFFFFFF)
  | .syncStep => some (0x40000000, 0xFFFFFFFF)
  | .syncRst => some (0x41000000, 0xFFFFFFFF)
  | .frame => some (0x50000000, 0xFFFFFFFF)
  | .lzHeader _ => none
  | .lzLiteral _ => none
  | .lzMatch _ _ => none
  | .lzEscape => none

/-- The code of the instruction is a command word that its row matches, or a header of four bytes, or a token that is four
bytes long when it begins with 0xFF and one byte long otherwise (rules R80, R81, R86 to R89, R98). -/
def Statement (i : Instr) : Prop :=
  (∃ w row, encode i = .command w ∧ rowOf i = some row ∧ w &&& row.2 = row.1) ∨
  (∃ b, encode i = .header b ∧ rowOf i = none ∧ b.length = 4) ∨
  ∃ b, encode i = .token b ∧ rowOf i = none ∧
    (i.wellFormed = true → b.length = if b.head? = some 0xFF then 4 else 1)

theorem nop : Statement .nop := .inl ⟨_, _, rfl, rfl, by decide⟩

theorem reset : Statement .reset := .inl ⟨_, _, rfl, rfl, by decide⟩

theorem csrw (a : Byte) (imm : Half) : Statement (.csrw a imm) := by
  refine .inl ⟨_, _, rfl, rfl, ?_⟩
  apply BitVec.eq_of_getLsbD_eq
  intro i hi
  simp only [commandWord, BitVec.getLsbD_and, BitVec.getLsbD_append]
  interval_cases i <;> simp

theorem csrr (a : Byte) : Statement (.csrr a) := by
  refine .inl ⟨_, _, rfl, rfl, ?_⟩
  apply BitVec.eq_of_getLsbD_eq
  intro i hi
  simp only [commandWord, BitVec.getLsbD_and, BitVec.getLsbD_append]
  interval_cases i <;> simp

theorem ldcal (imm : Half) : Statement (.ldcal imm) := by
  refine .inl ⟨_, _, rfl, rfl, ?_⟩
  apply BitVec.eq_of_getLsbD_eq
  intro i hi
  simp only [commandWord, BitVec.getLsbD_and, BitVec.getLsbD_append]
  interval_cases i <;> simp

theorem crcInit : Statement .crcInit := .inl ⟨_, _, rfl, rfl, by decide⟩

theorem crcStep (b : Byte) : Statement (.crcStep b) := by
  refine .inl ⟨_, _, rfl, rfl, ?_⟩
  apply BitVec.eq_of_getLsbD_eq
  intro i hi
  simp only [commandWord, BitVec.getLsbD_and, BitVec.getLsbD_append]
  interval_cases i <;> simp

theorem crcBuf : Statement .crcBuf := .inl ⟨_, _, rfl, rfl, by decide⟩

theorem sumBuf : Statement .sumBuf := .inl ⟨_, _, rfl, rfl, by decide⟩

theorem lzEnc : Statement .lzEnc := .inl ⟨_, _, rfl, rfl, by decide⟩

theorem lzDec : Statement .lzDec := .inl ⟨_, _, rfl, rfl, by decide⟩

theorem ilv : Statement .ilv := .inl ⟨_, _, rfl, rfl, by decide⟩

theorem symb : Statement .symb := .inl ⟨_, _, rfl, rfl, by decide⟩

theorem modSlot : Statement .modSlot := .inl ⟨_, _, rfl, rfl, by decide⟩

theorem modPre : Statement .modPre := .inl ⟨_, _, rfl, rfl, by decide⟩

theorem pwrUpd : Statement .pwrUpd := .inl ⟨_, _, rfl, rfl, by decide⟩

theorem demTick : Statement .demTick := .inl ⟨_, _, rfl, rfl, by decide⟩

theorem demIq : Statement .demIq := .inl ⟨_, _, rfl, rfl, by decide⟩

theorem syncStep : Statement .syncStep := .inl ⟨_, _, rfl, rfl, by decide⟩

theorem syncRst : Statement .syncRst := .inl ⟨_, _, rfl, rfl, by decide⟩

theorem frame : Statement .frame := .inl ⟨_, _, rfl, rfl, by decide⟩

theorem lzHeader (n : Word) : Statement (.lzHeader n) := .inr (.inl ⟨_, rfl, rfl, rfl⟩)

theorem lzLiteral (b : Byte) : Statement (.lzLiteral b) := by
  refine .inr (.inr ⟨_, rfl, rfl, fun h => ?_⟩)
  have hb : b ≠ 255#8 := by simpa [Instr.wellFormed, Config.lzMarker] using h
  simp [LzItem.bytes, hb]

theorem lzMatch (d : Half) (l : Byte) : Statement (.lzMatch d l) := .inr (.inr ⟨_, rfl, rfl, fun _ => rfl⟩)

theorem lzEscape : Statement .lzEscape := .inr (.inr ⟨_, rfl, rfl, fun _ => rfl⟩)

end Sys2Proof.Laws.CodeForm
end

