-- ==== Sys2Proof/Laws/Sync.lean ====
section
/-! SUPPORT. The synchronizer's search for the pattern and its test of a packet's end. -/

namespace Sys2Proof.Machine

theorem drop_take_succ {α : Type} (b : α) (l : List α) (p n : Nat) :
    ((b :: l).drop (p + 1)).take n = (l.drop p).take n := rfl

/-- `find_sync` finds the first index where the pattern stands whole (rule R231). -/
theorem findSync_eq_some {bits : List Bit} {p : Nat} : findSync bits = some p ↔
    ((bits.drop p).take 8 = Config.syncPattern ∧ ∀ q < p, (bits.drop q).take 8 ≠ Config.syncPattern) := by
  induction bits generalizing p with
  | nil => simp [findSync, Config.syncPattern]
  | cons b bits ih =>
    by_cases h : (b :: bits).take 8 = Config.syncPattern
    · simp only [findSync, h, if_true, Option.some.injEq]
      constructor
      · rintro rfl; exact ⟨h, fun q hq => by omega⟩
      · rintro ⟨-, hq⟩
        rcases Nat.eq_zero_or_pos p with hp | hp
        · exact hp.symm
        · exact absurd h (hq 0 hp)
    · simp only [findSync, if_neg h, Option.map_eq_some_iff, ih]
      constructor
      · rintro ⟨q, ⟨h1, h2⟩, rfl⟩
        refine ⟨h1, fun r hr => ?_⟩
        rcases r with _ | r
        · exact h
        · exact h2 r (by omega)
      · rintro ⟨h1, h2⟩
        rcases p with _ | p
        · exact absurd h1 h
        · exact ⟨p, ⟨h1, fun q hq => h2 (q + 1) (by omega)⟩, rfl⟩

theorem findSync_eq_none {bits : List Bit} :
    findSync bits = none ↔ ∀ p, (bits.drop p).take 8 ≠ Config.syncPattern := by
  induction bits with
  | nil => simp [findSync, Config.syncPattern]
  | cons b bits ih =>
    by_cases h : (b :: bits).take 8 = Config.syncPattern
    · simp only [findSync, h, if_true, reduceCtorEq, false_iff, not_forall, not_not]
      exact ⟨0, h⟩
    · simp only [findSync, if_neg h, Option.map_eq_none_iff, ih]
      constructor
      · intro hp p
        rcases p with _ | p
        · exact h
        · exact hp p
      · exact fun hp p => hp (p + 1)

/-- The pattern found lies inside the stream. -/
theorem findSync_inside {bits : List Bit} {p : Nat} (h : findSync bits = some p) : p + 8 ≤ bits.length := by
  have := congrArg List.length (findSync_eq_some.1 h).1
  simp [Config.syncPattern] at this
  omega

/-- A tag found from index `p` on (rule R236). -/
theorem tagTerminatedFrom_iff {t : Config.Terminator} {buf tag rest : List Byte} {p : Nat} (ht : tag ≠ []) :
    tagTerminatedFrom t buf tag p rest = true ↔
      ∃ r, (rest.drop r).take tag.length = tag ∧ recordTerminated t buf (p + r + tag.length) = true := by
  induction rest generalizing p with
  | nil => simp [tagTerminatedFrom]; intro h; exact absurd h ht
  | cons b rest ih =>
    simp only [tagTerminatedFrom, Bool.or_eq_true, Bool.and_eq_true, beq_iff_eq, ih]
    constructor
    · rintro (⟨h1, h2⟩ | ⟨r, h1, h2⟩)
      · exact ⟨0, h1, h2⟩
      · exact ⟨r + 1, h1, by rwa [show p + (r + 1) = p + 1 + r by omega]⟩
    · rintro ⟨r, h1, h2⟩
      rcases r with _ | r
      · exact .inl ⟨h1, h2⟩
      · exact .inr ⟨r, h1, by rwa [show p + 1 + r = p + (r + 1) by omega]⟩

/-- A byte 0x55 stands at or after the index `q` (rule R237). -/
theorem suffixTerminated_iff {buf : List Byte} {q : Nat} :
    suffixTerminated buf q = true ↔ ∃ r, q ≤ r ∧ buf[r]? = some 0x55 := by
  simp only [suffixTerminated, List.contains_iff_mem, List.mem_iff_getElem?, List.getElem?_drop]
  constructor
  · rintro ⟨i, h⟩; exact ⟨q + i, by omega, h⟩
  · rintro ⟨r, hr, h⟩; exact ⟨r - q, by rwa [show q + (r - q) = r by omega]⟩

end Sys2Proof.Machine
end

