-- ==== Sys2Proof/Tests/Slice0.lean ====
section
/-! SUPPORT. The model's own tests: words written out from the spec's encodings, one-step tests with the results of
95_test_vectors.md and of the rules' examples, and for every obligation with hypotheses a concrete case that meets them. -/

namespace Sys2Proof.Tests

open Sys2Proof.Machine

/-! ## Decoding: words written out from rules R80, R81, R86 to R89 (op in bits 31:24, a in 23:16, imm in 15:0) -/

theorem test_decode_nop : decodeCommand 0x00000000 = .ok .nop := by decide
theorem test_decode_reset : decodeCommand 0x01000000 = .ok .reset := by decide
theorem test_decode_csrw : decodeCommand 0x02030002 = .ok (.csrw 0x03 2) := by decide
theorem test_decode_csrw_high : decodeCommand 0x0205FFFF = .ok (.csrw 0x05 65535) := by decide
theorem test_decode_csrr : decodeCommand 0x031F0000 = .ok (.csrr 0x1F) := by decide
theorem test_decode_ldcal : decodeCommand 0x040007D0 = .ok (.ldcal 2000) := by decide
theorem test_decode_crcInit : decodeCommand 0x10000000 = .ok .crcInit := by decide
theorem test_decode_crcStep : decodeCommand 0x11000048 = .ok (.crcStep 0x48) := by decide
theorem test_decode_crcBuf : decodeCommand 0x12000000 = .ok .crcBuf := by decide
theorem test_decode_sumBuf : decodeCommand 0x13000000 = .ok .sumBuf := by decide
theorem test_decode_lzEnc : decodeCommand 0x14000000 = .ok .lzEnc := by decide
theorem test_decode_lzDec : decodeCommand 0x15000000 = .ok .lzDec := by decide
theorem test_decode_ilv : decodeCommand 0x20000000 = .ok .ilv := by decide
theorem test_decode_symb : decodeCommand 0x21000000 = .ok .symb := by decide
theorem test_decode_modSlot : decodeCommand 0x22000000 = .ok .modSlot := by decide
theorem test_decode_modPre : decodeCommand 0x23000000 = .ok .modPre := by decide
theorem test_decode_pwrUpd : decodeCommand 0x24000000 = .ok .pwrUpd := by decide
theorem test_decode_demTick : decodeCommand 0x30000000 = .ok .demTick := by decide
theorem test_decode_demIq : decodeCommand 0x31000000 = .ok .demIq := by decide
theorem test_decode_syncStep : decodeCommand 0x40000000 = .ok .syncStep := by decide
theorem test_decode_syncRst : decodeCommand 0x41000000 = .ok .syncRst := by decide
theorem test_decode_frame : decodeCommand 0x50000000 = .ok .frame := by decide
theorem test_decode_lzHeader : decode (.header [0x00, 0x00, 0x01, 0x02]) = .ok (.lzHeader 258) := by decide
theorem test_decode_lzLiteral : decode (.token [0x41]) = .ok (.lzLiteral 0x41) := by decide
theorem test_decode_lzMatch : decode (.token [0xFF, 0x01, 0x02, 0x08]) = .ok (.lzMatch 258 8) := by decide
theorem test_decode_lzEscape : decode (.token [0xFF, 0x00, 0x00, 0x01]) = .ok .lzEscape := by decide

/-- The illegal rows of V-ENC, and each way a token can be wrong. -/
theorem test_decode_refuses :
    ([0x03050001, 0x040107D0, 0x11000100, 0x20000001, 0x22010000].map decodeCommand =
      List.replicate 5 (.error .reservedField)) ∧
    ([0x05000000, 0x16000000, 0x25000000, 0x32000000, 0x42000000, 0x51000000, 0x60000000, 0xFF000000].map decodeCommand =
      List.replicate 8 (.error .unknownOpcode)) ∧
    decode (.token [0xFF, 0, 0, 2]) = .error .badEscape ∧ decode (.token [0xFF, 0, 1]) = .error .truncatedToken ∧
    decode (.token []) = .error .exhausted ∧ decode (.token [0x41, 0x42]) = .error .trailingBytes ∧
    decode (.header [0, 0, 0]) = .error .shortHeader := by decide

/-- An ill-formed term for each check of WellFormed: the check refuses it, and its code decodes to no such instruction. -/
theorem test_wellFormed_refuses :
    (Instr.lzLiteral 0xFF).wellFormed = false ∧ (Instr.lzMatch 0 1).wellFormed = false ∧
    decode (encode (.lzLiteral 0xFF)) = .error .truncatedToken ∧ decode (encode (.lzMatch 0 1)) = .ok .lzEscape := by
  decide

/-- The opcode table's numbers: a command, a token of one byte, a token of four, and a word that is none of them. -/
theorem test_decodeTableWord :
    decodeTableWord 32 0x040007D0 = some (.ldcal 2000) ∧ decodeTableWord 8 0x41 = some (.lzLiteral 0x41) ∧
    decodeTableWord 32 0xFF000208 = some (.lzMatch 2 8) ∧ decodeTableWord 32 0xFF000001 = some .lzEscape ∧
    decodeTableWord 32 0x16000000 = none := by decide

/-! ## States -/

/-- A field of the state an instruction ends in. -/
def after {α : Type} (i : Instr) (s : State) (f : State → α) : Option α :=
  match exec i s with
  | .next t => some (f t)
  | .fault _ => none
  | .refused _ => none

/-- A field of the state a step ends in. -/
def afterStep {α : Type} (s : State) (f : State → α) : Option α :=
  match step s with
  | .next t => some (f t)
  | .fault _ => none
  | .refused _ => none

/-- Profile `N = 4`, spacing 400, 1 ms, `K`; carriers 2000, 2400, 2800, 3200. -/
def calibrated (k : Half) : State :=
  { State.reset with
    numChannels := 4, channelSpacingHz := 400, symbolDurationMs := 1, bitsPerSymbol := k
    carrier := carriersFrom 2000 4 400, calValid := true }

/-- One slot of the symbols 2, 0, 3, 2 under QPSK, the streams they came from, and the adaptive power on. -/
def demo : State :=
  { calibrated 2 with
    adaptivePowerEn := 1, ilvValid := true, symValid := true, numSlots := 1
    stream := perChannel 4 [] fun c => if c.val = 1 then [false, false] else if c.val = 2 then [true, true] else [true, false]
    syms := perChannel 4 [] fun c => if c.val = 1 then [0] else if c.val = 2 then [3] else [2] }

/-- A state with a result, an error and a packet. -/
def dirty : State := { demo with crc := 1, err := 4, pktQ := [[1]] }

/-- A spectrum with the given bins at the given magnitudes. -/
def tuned (spec : Memory) : State := { calibrated 1 with spec := spec }

/-- A state whose buffers hold at most `bound` elements each (rule R40). -/
def cramped (bound : Nat) (s : State) : State :=
  let c := some bound
  { s with params := { s.params with capacities := ⟨c, c, c, c, c, c, c, c, c⟩ } }

def framedWith (buf : List Byte) (bits : List Bit) : State :=
  { State.reset with syncState := .framed, pktBuf := buf, rxBits := bits }

def inBody (declared : Word) (out : List Byte) : State := { State.reset with lzRun := some (.inBody declared out []) }

/-! ## One step of each instruction -/

theorem test_nop : after .nop { State.reset with result := 4, err := 0x10 } (fun t => (t.result, t.err)) = some (0, 0x10) := by
  decide

/-- V-CFG 12. -/
theorem test_reset : after .reset dirty
    (fun t => (t.statusWord, t.crc, t.err, t.signalThreshold, t.pktQ.length)) = some (0, 0xFFFF, 0, 80, 0) := by decide

/-- V-CFG 2, 4, 6: legal and illegal values; a profile write invalidates, a threshold write does not. -/
theorem test_csrw :
    after (.csrw 0x00 4) State.reset (fun t => (t.numChannels, t.result)) = some (4, 0) ∧
    after (.csrw 0x00 5) State.reset (fun t => (t.numChannels, t.result, t.err)) = some (0, 7, 0x0080) ∧
    after (.csrw 0x05 256) State.reset (fun t => (t.signalThreshold, t.result)) = some (80, 7) ∧
    after (.csrw 0x07 0) State.reset (fun t => (t.result, t.err)) = some (1, 0x0002) ∧
    after (.csrw 0x01 400) demo (fun t => (t.statusWord, t.numSlots, t.carrierHz 3)) = some (0, 0, 3200) ∧
    after (.csrw 0x05 100) demo (fun t => (t.statusWord, t.numSlots)) = some (0x000E, 1) := by decide

/-- V-CFG 1, 5, 8, 11. -/
theorem test_csrr :
    after (.csrr 0x05) State.reset State.rdata = some 80 ∧ after (.csrr 0x0A) State.reset State.rdata = some 0xFFFF ∧
    after (.csrr 0x13) demo State.rdata = some 3200 ∧ after (.csrr 0x14) demo State.rdata = some 0 ∧
    after (.csrr 0x0F) { State.reset with symbolDurationMs := 65535 } State.rdata = some 2890093 ∧
    after (.csrr 0x09) { State.reset with result := 2 } (fun t => (t.rdata, t.result)) = some (2, 2) ∧
    after (.csrr 0x20) State.reset (fun t => (t.rdata, t.result)) = some (0, 1) := by decide

/-- V-CFG 7, 9. -/
theorem test_ldcal :
    after (.ldcal 2000) State.reset (fun t => (t.result, t.err)) = some (2, 0x0004) ∧
    after (.ldcal 8800) (calibrated 1) (fun t => (t.carrierHz 0, t.carrierHz 3, t.carrierHz 4, t.result)) =
      some (8800, 10000, 0, 0) ∧
    after (.ldcal 8801) (calibrated 1) (fun t => (t.carrierHz 0, t.result, t.err)) = some (2000, 3, 0x0008) ∧
    after (.ldcal 1999) (calibrated 1) State.result = some 3 := by decide

theorem test_crcInit : after .crcInit { State.reset with crc := 7 } State.crc = some 0xFFFF := by decide

/-- Rule R133's example, and S1. -/
theorem test_crcStep : after (.crcStep 0x48) State.reset State.crc = some 0x76BF ∧
    after (.crcStep 0x65) { State.reset with crc := 0x76BF } State.crc = some 0x9BF7 := by decide

/-- V-CRC: "Hello" and "123456789". -/
theorem test_crcBuf :
    after .crcBuf { State.reset with ib := [0x48, 0x65, 0x6C, 0x6C, 0x6F], crc := 0 } State.crc = some 0xF377 ∧
    crc16 [0x31, 0x32, 0x33, 0x34, 0x35, 0x36, 0x37, 0x38, 0x39] = 0x4B37 := by decide +kernel

/-- V-SUM: "Hello", and 258 bytes of FF wrap. -/
theorem test_sumBuf :
    after .sumBuf { State.reset with ib := [0x48, 0x65, 0x6C, 0x6C, 0x6F] } State.sum = some 0x01F4 ∧
    checksum (List.replicate 258 0xFF) = 0x00FE := by
  refine ⟨by decide, ?_⟩
  simp only [checksum, List.map_replicate, List.sum_replicate, smul_eq_mul]
  decide

/-- V-LZE: a match that runs past the cursor, a tie that the nearest wins, an escape and a match of FF. -/
theorem test_lzEnc :
    after .lzEnc { State.reset with ib := [0x41, 0x42, 0x41, 0x42, 0x41, 0x42, 0x41, 0x42, 0x41, 0x42] } State.ob =
      some [0, 0, 0, 0x0A, 0x41, 0x42, 0xFF, 0, 2, 8] ∧
    after .lzEnc { State.reset with
        ib := [0x61, 0x62, 0x63, 0x64, 0x58, 0x61, 0x62, 0x63, 0x64, 0x59, 0x61, 0x62, 0x63, 0x64] } State.ob =
      some [0, 0, 0, 0x0E, 0x61, 0x62, 0x63, 0x64, 0x58, 0xFF, 0, 5, 4, 0x59, 0xFF, 0, 5, 4] ∧
    after .lzEnc { State.reset with ib := [0xFF, 0xFF, 0xFF, 0xFF] } State.ob =
      some [0, 0, 0, 4, 0xFF, 0, 0, 1, 0xFF, 0, 1, 3] := by decide +kernel

/-- V-LZD: each fault of rule R140. -/
theorem test_lzDec_faults :
    [[0, 0, 0], [0, 0, 0, 2, 0x41], [0, 0, 0, 2, 0x41, 0xFF, 0], [0, 0, 0, 1, 0xFF, 0, 0, 2],
      [0, 0, 0, 3, 0x41, 0xFF, 0x10, 0, 1], [0, 0, 0, 2, 0x41, 0xFF, 0, 1, 5]].map
      (fun z => after .lzDec { State.reset with ib := z, ob := [9] } fun t => (t.ob, t.result, t.err)) =
    List.replicate 6 (some ([], 4, 0x0010)) := by decide

/-- V-LZD: the streams that decode. -/
theorem test_lzDec :
    [[0, 0, 0, 0, 0xFF], [0, 0, 0, 1, 0x41, 0x42, 0x43], [0, 0, 0, 2, 0xFF, 0, 0, 1, 0xFF, 0, 0, 1],
      [0, 0, 0, 5, 0x41, 0xFF, 0, 1, 0, 0xFF, 0, 1, 4]].map
      (fun z => after .lzDec { State.reset with ib := z } State.ob) =
    [some [], some [0x41], some [0xFF, 0xFF], some [0x41, 0x41, 0x41, 0x41, 0x41]] := by decide

/-- V-ILV: `10110010`, `N = 4`. -/
theorem test_ilv :
    after .ilv { calibrated 1 with txBits := [true, false, true, true, false, false, true, false] }
      (fun t => (t.stream.get 0, t.stream.get 1, t.stream.get 2, t.stream.get 3, t.statusWord)) =
    some ([true, false], [false, false], [true, true], [true, false], 0x0006) := by decide

/-- V-SYM: `10101` with `K = 2`. -/
theorem test_symb :
    after .symb { calibrated 2 with ilvValid := true, stream := perChannel 4 [] fun _ => [true, false, true, false, true] }
      (fun t => (t.syms.get 0, t.numSlots, t.statusWord)) = some ([2, 2, 2], 3, 0x000E) := by decide

/-- V-MOD row 4: the phases 180°, 0°, 270°, 180° at sample 0, in arcs; 44 samples in 1 ms; the slot is counted. -/
theorem test_modSlot :
    after .modSlot demo (fun t => ((t.samples.headD []).map Tone.arc, t.samples.length, t.slotIdx)) =
      some ([44100, 0, 66150, 44100], 44, 1) ∧
    after .modSlot demo (fun t => ((t.samples.headD []).map Tone.amp)) =
      some [1 / 40, 1 / 40, 1 / 40, 1 / 40] := by decide +kernel

/-- Rule R174: 24,255 samples; the second chord begins with the sample 0 of the first. -/
theorem test_modPre_silence :
    (calibrated 1).preamble[6615]? = some [] ∧
    ((calibrated 1).preamble[8821]?.map fun y => y.map Tone.arc) = some [4000, 4800, 5600, 6400] := by decide +kernel

theorem test_modPre : after .modPre (calibrated 1) State.result = some 0 ∧ (calibrated 1).preamble.length = 24255 := by
  refine ⟨by decide, ?_⟩
  simp only [State.preamble, chord, List.length_append, List.length_map, List.length_range, List.length_replicate]
  rfl

/-- V-PWR: 10 dB, and a difference of exactly 2 dB; with the clamp of `MAX_POWER = 3/25`. -/
theorem test_pwrUpd :
    pwrNext (1 / 1000) 1 (1 / 10) 10 = 11 / 100 ∧ pwrNext (1 / 1000) 1 (121 / 1000) 13 = 1331 / 10000 ∧
    pwrNext (1 / 1000) 1 (121 / 1000) 14 = 121 / 1000 ∧ pwrNext (1 / 1000) 1 (1331 / 10000) 17 = 11979 / 100000 ∧
    pwrNext (1 / 1000) (3 / 25) (11 / 100) 10 = 3 / 25 := by decide +kernel

theorem test_pwrUpd_off : after .pwrUpd State.reset (fun t => (t.result, t.err)) = some (6, 0) := by decide

/-- V-TICK: rows 2 and 4. -/
theorem test_demTick :
    after .demTick (tuned [(390, 200), (427, 200), (539, 200), (576, 200)]) (fun t => (t.rxBits, t.result, t.statusWord)) =
      some ([true, false, true, false], 0, 0x0022) ∧
    after .demTick (tuned [(353, 80), (390, 80), (427, 79), (464, 79), (502, 80), (539, 81), (576, 255), (613, 254)])
      (fun t => (t.rxBits, t.dec.get 1)) = some ([false, true, false], none) := by decide

/-- V-TICK: one below the threshold; a PSK profile. -/
theorem test_demTick_idle :
    after .demTick (tuned [(353, 79)]) (fun t => (t.rxBits, t.result)) = some ([], 6) ∧
    after .demTick (calibrated 2) State.result = some 2 := by decide

/-- V-IQ: the four correlation values of the table, the tie at 45°, the 8-PSK point there, and the threshold met exactly. -/
theorem test_pskDecide :
    [Correlation.mk [⟨-441 / 40, 0, []⟩] [], ⟨[⟨441 / 40, 0, []⟩], []⟩, ⟨[], [⟨-441 / 40, 0, []⟩]⟩, ⟨[⟨1, 0, []⟩], [⟨1, 0, []⟩]⟩].map
      (fun z => z.decide [⟨1 / 1000, 0, []⟩] 882 2) = [some 2, some 0, some 3, some 0] ∧
    (Correlation.mk [⟨1, 0, []⟩] [⟨1, 0, []⟩]).decide [⟨1 / 1000, 0, []⟩] 882 3 = some 1 ∧
    (Correlation.mk [⟨1, 0, []⟩] []).decide [⟨1 / 441, 0, []⟩] 882 2 = some 0 ∧
    (Correlation.mk [⟨1, 0, []⟩] []).decide [⟨1 / 440, 0, []⟩] 882 2 = none := by decide +kernel

/-- V-IQ: a window of zeros is silent; a window of another length is `ConfigError`. -/
theorem test_demIq :
    after .demIq { calibrated 2 with win := List.replicate 44 [] } (fun t => (t.result, t.rxBits)) = some (6, []) ∧
    after .demIq { calibrated 2 with win := List.replicate 43 [] } State.result = some 2 := by decide +kernel

/-- Rule R239's example: the pattern at index 2, then one byte. -/
theorem test_syncStep :
    after .syncStep { State.reset with
        rxBits := [false, true, true, false, true, false, true, false, true, false, false, true, false, false, false, true,
          false, true] } (fun t => (t.syncState, t.rxBits, t.result)) =
      some (.framed, [false, true, false, false, false, true, false, true], 0) ∧
    after .syncStep (framedWith [] [false, true, false, false, false, true, false, true]) (fun t => (t.pktBuf, t.rxBits)) =
      some ([0x45], []) := by decide

/-- Rule R236: `END:COMPLETE` and the suffix byte is delivered, `END:OK` and the suffix byte is not. -/
theorem test_syncStep_deliver :
    after .syncStep (framedWith [0x45, 0x4E, 0x44, 0x3A, 0x43, 0x4F, 0x4D, 0x50, 0x4C, 0x45, 0x54, 0x45, 0x55] [])
      (fun t => (t.syncState, t.pktQ.length, t.pktBuf, t.statusWord)) = some (.hunting, 1, [], 0x0010) ∧
    after .syncStep (framedWith [0x45, 0x4E, 0x44, 0x3A, 0x4F, 0x4B, 0x55] []) (fun t => (t.syncState, t.result)) =
      some (.framed, 6) := by decide

theorem test_syncRst : after .syncRst (framedWith [1] [true]) (fun t => (t.syncState, t.pktBuf, t.rxBits)) =
    some (.hunting, [], []) := by decide

/-- V-FRM: the empty body, and the first body byte of `END:OK`. -/
theorem test_frame :
    after .frame State.reset State.txBits = some [true, false, true, false, true, false, true, false,
      false, true, false, true, false, true, false, true] ∧
    after .frame { State.reset with ib := [0x45] } (fun t => (t.txBits.drop 8).take 8) =
      some [false, true, false, false, false, true, false, true] := by decide

/-- The items of a stream, each at the decoder it can meet (rule R140). -/
theorem test_lzItems :
    after (.lzHeader 2) { State.reset with lzRun := some (.atHeader []) } State.lzRun = some (some (.inBody 2 [] [])) ∧
    after (.lzLiteral 0x41) (inBody 2 []) State.lzRun = some (some (.inBody 2 [0x41] [])) ∧
    after .lzEscape (inBody 2 [0x41]) (fun t => (t.ob, t.lzRun, t.result)) = some ([0x41, 0xFF], none, 0) ∧
    after (.lzMatch 2 3) (inBody 9 [0x41, 0x42]) State.lzRun =
      some (some (.inBody 9 [0x41, 0x42, 0x41, 0x42, 0x41] [])) ∧
    after (.lzMatch 3 3) (inBody 9 [0x41, 0x42]) (fun t => (t.ob, t.result, t.err)) = some ([], 4, 0x0010) := by decide

/-- Rule R40: a command that would exceed a finite capacity ends with `RangeError`; one that just fits ends well. -/
theorem test_capacity :
    after .frame (cramped 15 State.reset) (fun t => (t.txBits, t.result, t.err)) = some ([], 7, 0x0080) ∧
    after .frame (cramped 16 State.reset) (fun t => (t.txBits.length, t.result)) = some (16, 0) ∧
    after .syncStep (cramped 0 (framedWith [0] [])) (fun t => (t.pktQ, t.pktBuf, t.result)) = some ([], [0], 7) ∧
    after .syncStep (cramped 1 (framedWith [0] [])) (fun t => (t.pktQ, t.result)) = some ([[0]], 0) ∧
    after .demTick (cramped 3 (tuned [(390, 200), (427, 200), (539, 200), (576, 200)]))
      (fun t => (t.rxBits, t.dec.get 0, t.result)) = some ([], none, 7) ∧
    after .lzDec (cramped 1 { State.reset with ib := [0, 0, 0, 2, 0x41, 0x42], ob := [9] }) (fun t => (t.ob, t.result)) =
      some ([9], 7) := by decide

/-- Rule R211 with real samples: the number the host gave as an open real stands in the sums by itself, scaled. -/
theorem test_open_reals :
    correlateI [[⟨1, 0, []⟩, ⟨2, 0, [3]⟩]] 2000 = [⟨1, 0, []⟩, ⟨1, 0, [3]⟩, ⟨1, 0, [3]⟩] ∧
    Sample.mul [⟨1, 0, [3]⟩] [⟨1, 0, [3]⟩] = [⟨1 / 2, 0, [3, 3]⟩, ⟨1 / 2, 0, [3, 3]⟩] := by decide +kernel

/-! ## The fetch -/

/-- The word placed is the one the next step runs: a command, a token. -/
theorem test_withFetchWord :
    afterStep (State.reset.withFetchWord 32 0x11000048) State.crc = some 0x76BF ∧
    afterStep (State.reset.withFetchWord 8 0x41) State.lzRun =
      some (some (.inBody 0xFFFFFFFF [0x41] [])) ∧
    afterStep (State.reset.withFetchWord 32 0xFF000001) State.lzRun =
      some (some (.inBody 0xFFFFFFFF [0xFF] [])) ∧
    afterStep (State.reset.withFetchWord 32 0x16000000) (fun t => (t.result, t.err)) = some (1, 0x0002) := by decide

/-! ## Witnesses: a concrete case that meets the hypotheses of each obligation, clause by clause

The names are those of the obligations. -/

theorem witness_DecodeInvertsEncode :
    (Instr.lzMatch 1 255).wellFormed = true ∧ (Instr.lzLiteral 0xFE).wellFormed = true ∧
    (Instr.csrw 0xFF 65535).wellFormed = true := by decide

theorem witness_EncodeInvertsDecode :
    decode (.command 0x110000FF) = .ok (.crcStep 0xFF) ∧ decode (.token [0xFF, 0xFF, 0xFF, 0]) = .ok (.lzMatch 65535 0) ∧
    decode (.header [0xFF, 0xFF, 0xFF, 0xFF]) = .ok (.lzHeader 0xFFFFFFFF) := by decide

theorem witness_WordsOutsideTheTableAreIllegal :
    ∃ (s : State) (w : Word), s.lzRun = none ∧ s.host = .command w :: [] ∧ ∀ row ∈ commandRows, w &&& row.2 ≠ row.1 :=
  ⟨{ State.reset with host := [.command 0x00000001] }, 0x00000001, rfl, rfl, by unfold commandRows; simp⟩

theorem witness_FirstByteTellsTheTokenLength :
    decodeToken [0xFE, 0xFF] = .ok (.literal 0xFE, [0xFF]) ∧ decodeToken [0xFF, 0, 1, 0, 7] = .ok (.copy 1 0, [7]) := by
  decide

theorem witness_StepRunsTheDecodedCommand : ∃ (s : State) (w : Word) (i : Instr),
    s.lzRun = none ∧ s.host = .command w :: [] ∧ decodeCommand w = .ok i :=
  ⟨{ State.reset with host := [.command 0x50000000] }, 0x50000000, .frame, rfl, rfl, by decide⟩

/-- A stream with an item, and one without. -/
theorem witness_StepRunsTheNextStreamItem :
    (∃ s : State, s.lzRun = some (.atHeader [0, 0, 0, 1]) ∧
      lzFetch (.atHeader [0, 0, 0, 1]) = .ok (.header 1, .atHeader [])) ∧
    ∃ s : State, s.lzRun = some (.inBody 1 [] []) ∧ lzFetch (.inBody 1 [] []) = .error .exhausted :=
  ⟨⟨{ State.reset with lzRun := some (.atHeader [0, 0, 0, 1]) }, rfl, by decide⟩, ⟨inBody 1 [], rfl, by decide⟩⟩

/-- No move, any move with room for it, and a write of one element where there is room for none. -/
theorem witness_HostMovesChangeWhatTheyName (m : HostMove) :
    (∃ s : State, s.lzRun = none ∧ s.host = []) ∧
    (∃ s : State, s.lzRun = none ∧ s.host = m :: [] ∧ s.params.capacities = .unbounded) ∧
    ∃ s : State, s.lzRun = none ∧ s.host = .putIb [1] :: [] ∧ s.params.capacities.ib.allows 1 = false :=
  ⟨⟨State.reset, rfl, rfl⟩, ⟨{ State.reset with host := [m] }, rfl, rfl, rfl⟩,
    ⟨{ cramped 0 State.reset with host := [.putIb [1]] }, rfl, rfl, rfl⟩⟩

theorem witness_SpectrumWriteSetsEveryBin :
    (∃ (s : State) (l : List Byte), s.lzRun = none ∧ s.host = .putSpec l :: [] ∧ l.length = 4096) ∧
    ∃ (s : State) (l : List Byte), s.lzRun = none ∧ s.host = .putSpec l :: [] ∧ l.length ≠ 4096 := by
  have key (l : List Byte) : ∃ s : State, s.lzRun = none ∧ s.host = .putSpec l :: [] :=
    ⟨{ State.reset with host := [.putSpec l] }, rfl, rfl⟩
  have long : ∃ l : List Byte, l.length = 4096 := by
    generalize 4096 = n
    exact ⟨List.replicate n 1, List.length_replicate⟩
  obtain ⟨l, hl⟩ := long
  obtain ⟨s, h1, h2⟩ := key l
  obtain ⟨t, h3, h4⟩ := key []
  exact ⟨⟨s, l, h1, h2, hl⟩, ⟨t, [], h3, h4, by decide⟩⟩

theorem witness_ResetRestoresTheResetState : ∃ s : State, s.lzRun = none ∧ s.host = .resetInput :: [] :=
  ⟨{ dirty with host := [.resetInput] }, rfl, rfl⟩

/-- The ends of the ranges of register numbers. -/
theorem witness_CsrwAndCsrrNumbers :
    7 ≤ (0x07 : Byte).toNat ∧ 7 ≤ (0xFF : Byte).toNat ∧ 0x20 ≤ (0x20 : Byte).toNat ∧ csrOf 0x1F = some (.carrier 15) ∧
    csrOf 0x20 = none ∧ csrOf 0x10 = some (.carrier 0) ∧ csrOf 0x0F = some .samplesPerSlot := by decide

theorem witness_LdcalLoadsTheCarriers :
    State.reset.profileOk = false ∧ (calibrated 1).profileOk = true ∧
    (2000 ≤ (8800 : Half).toNat ∧ (8800 : Half).toNat + ((calibrated 1).n - 1) * (calibrated 1).channelSpacingHz.toNat ≤ 10000) ∧
    (2000 ≤ (2000 : Half).toNat ∧ (2000 : Half).toNat + ((calibrated 1).n - 1) * (calibrated 1).channelSpacingHz.toNat ≤ 10000) ∧
    ¬(2000 ≤ (8801 : Half).toNat ∧ (8801 : Half).toNat + ((calibrated 1).n - 1) * (calibrated 1).channelSpacingHz.toNat ≤ 10000) := by
  decide

/-- Both outcomes of the matcher: no match at the first cursor, a match with `f.len ≠ 0` and a shorter distance refused. -/
theorem witness_LzMatchIsLongestThenNearest :
    Sys2Proof.Machine.lzMatch [0x41, 0x42] 0 = ⟨0, 0⟩ ∧
    Sys2Proof.Machine.lzMatch [0x41, 0x42, 0x41, 0x42, 0x41] 2 = ⟨2, 3⟩ ∧
    AgreesFor [0x41, 0x42, 0x41, 0x42, 0x41] 2 2 3 ∧ ¬AgreesFor [0x41, 0x42, 0x41, 0x42, 0x41] 2 1 3 := by
  refine ⟨by decide, by decide, ⟨by decide, by decide, by decide⟩, fun h => absurd (h.2.2 0 (by decide)) (by decide)⟩

theorem witness_EncoderTokensAreInBounds :
    LzItem.copy 2 3 ∈ lzTokensFrom [0x41, 0x42, 0x41, 0x42, 0x41] 5 0 ∧
    LzItem.literal 0x41 ∈ lzTokensFrom [0x41, 0x42, 0x41, 0x42, 0x41] 5 0 := by decide

theorem witness_LzEncParsesGreedily :
    (∃ s : State, s.ib.length < 2 ^ 32 ∧ s.params.capacities.ob.allows (lzCompress s.ib).length = true) ∧
    (∃ s : State, s.ib.length < 2 ^ 32 ∧ s.params.capacities.ob.allows (lzCompress s.ib).length = false) ∧
    ∃ s : State, 2 ^ 32 ≤ s.ib.length := by
  refine ⟨⟨cramped 4 State.reset, by decide, by decide⟩, ⟨cramped 3 State.reset, by decide, by decide⟩, ⟨{ State.reset with ib := List.replicate (2 ^ 32) 0 }, ?_⟩⟩
  exact Nat.le_of_eq List.length_replicate.symm

/-- The ends of the ranges the loop's clauses divide: a distance of exactly the output's length, one beyond it. -/
theorem witness_DecoderFollowsTheLoop :
    CopiedFrom [0x41, 0x42] [0x41, 0x42, 0x41] 2 1 ∧ CopiedFrom [0x41] [0x41] 1 0 ∧
    lzDecompress [0, 0, 0, 3, 0x41, 0x42, 0xFF, 0, 2, 1] = some [0x41, 0x42, 0x41] ∧
    lzDecompress [0, 0, 0, 3, 0x41, 0x42, 0xFF, 0, 3, 1] = none ∧ lzDecompress [0, 0, 0, 0] = some [] := by
  refine ⟨⟨rfl, rfl, by decide⟩, ⟨rfl, rfl, by decide⟩, by decide, by decide, by decide⟩

theorem witness_LzDecReplacesOrEmptiesOb :
    (∃ s : State, lzDecompress s.ib = some [0x41] ∧ s.params.capacities.ob.allows 1 = true) ∧
    (∃ s : State, lzDecompress s.ib = some [0x41] ∧ s.params.capacities.ob.allows 1 = false) ∧
    ∃ s : State, lzDecompress s.ib = none :=
  ⟨⟨{ State.reset with ib := [0, 0, 0, 1, 0x41] }, by decide, rfl⟩,
    ⟨cramped 0 { State.reset with ib := [0, 0, 0, 1, 0x41] }, by decide, rfl⟩, ⟨State.reset, by decide⟩⟩

/-- A list with 0xFF goes there and back. -/
theorem witness_DecompressInvertsCompress :
    [0x61, 0xFF, 0xFF, 0xFF, 0xFF, 0x62].length < 2 ^ 32 ∧
    lzDecompress (lzCompress [0x61, 0xFF, 0xFF, 0xFF, 0xFF, 0x62]) = some [0x61, 0xFF, 0xFF, 0xFF, 0xFF, 0x62] := by
  decide +kernel

theorem witness_ItemRunRefinesLzDec : ∃ s : State, s.lzRun = none ∧ s.ib = [0, 0, 0, 1, 0x41] :=
  ⟨{ State.reset with ib := [0, 0, 0, 1, 0x41] }, rfl, rfl⟩

theorem witness_StreamItems :
    (∃ s : State, s.lzRun = some (.atHeader [])) ∧ (∃ s : State, s.lzRun = some (.inBody 2 [] [])) ∧
    ∃ s : State, s.lzRun = some (.inBody 9 [0x41, 0x42] []) ∧ (2 : Half) ≠ 0 ∧ [0x41, 0x42].length < (3 : Half).toNat ∧
      (2 : Half).toNat ≤ [0x41, 0x42].length :=
  ⟨⟨{ State.reset with lzRun := some (.atHeader []) }, rfl⟩, ⟨inBody 2 [], rfl⟩, ⟨inBody 9 [0x41, 0x42], rfl, by decide⟩⟩

theorem witness_ItemOutsideAStreamIsIllegal : State.reset.lzRun = none := rfl

theorem witness_IlvDistributesRoundRobin :
    (∃ s : State, s.profileOk = false) ∧
    (∃ s : State, s.profileOk = true ∧ s.txBits.length < 2 ^ 32 ∧
      s.params.capacities.stream.allows ((s.txBits.length + s.n - 1) / s.n) = true) ∧
    (∃ s : State, s.profileOk = true ∧ s.txBits.length < 2 ^ 32 ∧
      s.params.capacities.stream.allows ((s.txBits.length + s.n - 1) / s.n) = false) ∧
    ∃ s : State, s.profileOk = true ∧ 2 ^ 32 ≤ s.txBits.length := by
  refine ⟨⟨State.reset, by decide⟩, ⟨cramped 1 { calibrated 1 with txBits := [true] }, by decide, by decide, by decide⟩,
    ⟨cramped 0 { calibrated 1 with txBits := [true] }, by decide, by decide, by decide⟩, ⟨{ calibrated 1 with txBits := List.replicate (2 ^ 32) false }, ?_, ?_⟩⟩
  · exact (by decide : (calibrated 1).profileOk = true)
  · exact Nat.le_of_eq List.length_replicate.symm

/-- No streams; streams with just enough room for their symbols; one too little. -/
theorem witness_SymbFormsSymbolsMsbFirst : State.reset.ilvValid = false ∧
    ((cramped 1 demo).ilvValid = true ∧ ∀ c : Fin 16, c.val < (cramped 1 demo).n →
      (cramped 1 demo).params.capacities.syms.allows
        ((((cramped 1 demo).stream.get c).length + (cramped 1 demo).k - 1) / (cramped 1 demo).k) = true) ∧
    (cramped 0 demo).ilvValid = true ∧ ∃ c : Fin 16, c.val < (cramped 0 demo).n ∧
      (cramped 0 demo).params.capacities.syms.allows
        ((((cramped 0 demo).stream.get c).length + (cramped 0 demo).k - 1) / (cramped 0 demo).k) = false := by decide

/-- Five bits on four channels make streams of two bits and, under 8-PSK, one symbol each. -/
theorem witness_SymbolBitsCarryTheInputBits :
    ∃ s : State, s.profileOk = true ∧ s.txBits.length < 2 ^ 32 ∧ s.txBits ≠ [] ∧ RoomForSymbols s :=
  ⟨cramped 2 { calibrated 3 with txBits := [true, true, false, true, true] }, by decide, by decide, by decide, by decide,
    by decide⟩

/-- No slot left, a slot left with its symbols, and one without room for its samples. -/
theorem witness_ModSlotAppendsTheIdealSlot :
    (∃ s : State, s.symValid = false) ∧
    (∃ s : State, s.symValid = true ∧ s.calValid = true ∧ s.numSlots.toNat ≤ s.slotIdx.toNat) ∧
    (demo.symValid = true ∧ demo.calValid = true ∧ demo.slotIdx.toNat < demo.numSlots.toNat ∧ demo.k ∈ [1, 2, 3] ∧
      ∀ c : Fin 16, c.val < demo.n → demo.slotIdx.toNat < (demo.syms.get c).length) ∧
    (cramped 44 demo).params.capacities.samples.allows (demo.samples.length + demo.symbolDurationMs.toNat * 441 / 10) = true ∧
    (cramped 43 demo).params.capacities.samples.allows (demo.samples.length + demo.symbolDurationMs.toNat * 441 / 10) = false :=
  ⟨⟨State.reset, rfl⟩, ⟨{ demo with slotIdx := 1 }, rfl, rfl, by decide⟩, by decide, by decide, by decide⟩

/-- A configured, calibrated and loaded state meets the invariant. -/
theorem demo_inv : Inv demo where
  registers := ⟨by decide, by decide, by decide, by decide, by decide⟩
  calibration := fun _ => ⟨by decide, by decide, by decide, by decide, by decide⟩
  streams := fun _ => ⟨by decide, by decide, by decide, by decide⟩
  symbols := fun _ => ⟨rfl, by decide, by decide, by decide⟩
  slots := by decide
  hunting := fun _ => rfl
  packet := by decide
  capacities := ⟨rfl, rfl, rfl, fun _ => rfl, fun _ => rfl, rfl, rfl, rfl, rfl⟩
  power := by
    have h : demo.power = Config.fixedPower := rfl
    rw [h]
    exact ⟨reference_ok.2.1, reference_ok.2.2.1⟩
  errBits := by decide
  resultCode := by decide
  spectrum := by decide
  parameters := reference_ok

theorem witness_SlotSamplesStayWithinPower : Inv demo ∧ ∃ y, y ∈ chord demo.amplitude demo.slotTones demo.ns := by
  refine ⟨demo_inv, chordSample demo.amplitude demo.slotTones 0, ?_⟩
  exact List.mem_map.2 ⟨0, List.mem_range.2 (by decide), rfl⟩

theorem witness_ModPreAppendsThePreamble : State.reset.calValid = false ∧ demo.calValid = true ∧
    demo.params.capacities.samples.allows (demo.samples.length + 24255) = true ∧
    (cramped 24254 demo).params.capacities.samples.allows (demo.samples.length + 24255) = false := by decide

/-- `demo` with nine bits to send, which make two slots. -/
def loaded : State := { demo with txBits := [true, false, true, true, false, false, true, false, true] }

theorem loaded_inv : Inv loaded where
  registers := ⟨by decide, by decide, by decide, by decide, by decide⟩
  calibration := fun _ => ⟨by decide, by decide, by decide, by decide, by decide⟩
  streams := fun _ => ⟨by decide, by decide, by decide, by decide⟩
  symbols := fun _ => ⟨rfl, by decide, by decide, by decide⟩
  slots := by decide
  hunting := fun _ => rfl
  packet := by decide
  capacities := ⟨rfl, rfl, rfl, fun _ => rfl, fun _ => rfl, rfl, rfl, rfl, rfl⟩
  power := demo_inv.power
  errBits := by decide
  resultCode := by decide
  spectrum := by decide
  parameters := reference_ok

/-- Bits to send, and so slots to emit. -/
theorem witness_ModRunEmitsEverySlot : Inv loaded ∧ loaded.calValid = true ∧ loaded.txBits.length < 2 ^ 32 ∧
    RoomForSymbols loaded ∧ ((loaded.txBits.length + loaded.n - 1) / loaded.n + loaded.k - 1) / loaded.k = 2 ∧
    loaded.params.capacities.samples.allows (loaded.samples.length + 2 * loaded.ns) = true :=
  ⟨loaded_inv, rfl, by decide, ⟨rfl, rfl⟩, by decide, rfl⟩

theorem witness_PwrUpdStepsAndClamps : State.reset.adaptivePowerEn = 0 ∧ demo.adaptivePowerEn ≠ 0 ∧ demo.adaptivePowerEn = 1 := by
  decide

/-- The ends of the range of frequencies (rule R201's values). -/
theorem witness_BinOfIsTheNearestBin : binOf 1900 = 353 ∧ binOf 5000 = 929 ∧ binOf 10100 = 1876 := by decide

/-- Not calibrated, another `K`, every channel silent, one channel deciding at the threshold. -/
theorem witness_DemTickDecidesAndAppends :
    State.reset.profileOk = false ∧ (calibrated 2).k ≠ 1 ∧
    ((calibrated 1).profileOk = true ∧ (calibrated 1).calValid = true ∧ (calibrated 1).k = 1 ∧
      ∀ c : Fin 16, c.val < (calibrated 1).n → 2000 ≤ (calibrated 1).carrierHz c ∧ (calibrated 1).carrierHz c ≤ 10000) ∧
    after .demTick (tuned []) (fun t => (t.dec.get 0, t.result)) = some (none, 6) ∧
    after .demTick (tuned [(353, 80)]) (fun t => (t.dec.get 0, t.result)) = some (some 0, 0) ∧
    after .demTick (cramped 0 (tuned [(353, 80)])) (fun t => (t.dec.get 0, t.result)) = some (none, 7) := by decide

theorem witness_DeinterleaveInvertsTheModulator : ∃ s t : State,
    s.profileOk = true ∧ s.n ∈ [4, 8, 12, 16] ∧ s.txBits.length < 2 ^ 32 ∧ RoomForSymbols s ∧
      runAll [.ilv, .symb] s = .next t :=
  ⟨{ calibrated 2 with txBits := [true, true, false, true, true] }, _, by decide, by decide, by decide, ⟨rfl, rfl⟩, rfl⟩

theorem witness_DemIqDecidesAndAppends :
    State.reset.calValid = false ∧ ((calibrated 1).k ≠ 2 ∧ (calibrated 1).k ≠ 3) ∧ (calibrated 2).win.length ≠ (calibrated 2).ns ∧
    (∃ s : State, s.profileOk = true ∧ s.calValid = true ∧ s.k = 3 ∧ s.win.length = s.ns) ∧
    ∃ s : State, s.profileOk = true ∧ s.calValid = true ∧ s.k = 2 ∧ s.win.length = s.ns ∧
      s.params.capacities.rxBits.allows (s.rxBits.length + 1) = false :=
  ⟨rfl, by decide, by decide,
    ⟨{ calibrated 3 with win := List.replicate 44 [] }, by decide, by decide, by decide, by decide⟩,
    ⟨cramped 0 { calibrated 2 with win := List.replicate 44 [] }, by decide, by decide, by decide, by decide, by decide⟩⟩

theorem witness_CanonicalFormKeepsTheNumber : Sample.isZero [⟨1, 0, []⟩, ⟨1, 44100, []⟩] = true ∧ Sample.isZero [⟨1, 0, []⟩] = false := by
  decide +kernel

/-- A silent channel and a deciding one, with a threshold of 0 and above; a threshold of no known sign is met where it is
not negative, as its square is. -/
theorem witness_PskDecisionIsTheLeastLargestProjection :
    0 ≤ Sample.toReal [⟨1 / 440, 0, []⟩] ∧ 0 ≤ Sample.toReal [⟨1, 0, [0, 0]⟩] ∧ 0 ≤ Sample.toReal [] ∧
    (Correlation.mk [⟨1, 0, []⟩] []).decide [⟨1 / 440, 0, []⟩] 882 2 = none ∧ (Correlation.mk [] []).decide [] 882 3 = some 0 ∧
    (Correlation.mk [] [⟨1, 0, []⟩]).decide [] 1 3 = some 2 := by
  refine ⟨?_, ?_, ?_, by decide +kernel, by decide +kernel, by decide +kernel⟩
  · simp [Sample.toReal_cons, arcCos]
  · simp [Sample.toReal_cons, arcCos, opensReal, mul_self_nonneg]
  · simp

/-- The pattern at index 1; none and more than 1000 bits; none and exactly 1000. -/
theorem witness_HuntingLocksOnTheLeftmostPattern :
    (∃ s : State, s.syncState = .hunting ∧ SyncAt s.rxBits 1 ∧ ∀ q < 1, ¬SyncAt s.rxBits q) ∧
    (∃ s : State, s.syncState = .hunting ∧ (∀ p, ¬SyncAt s.rxBits p) ∧ 1000 < s.rxBits.length) ∧
    ∃ s : State, s.syncState = .hunting ∧ (∀ p, ¬SyncAt s.rxBits p) ∧ s.rxBits.length ≤ 1000 := by
  have none : ∀ n p : Nat, ¬SyncAt (List.replicate n false) p := by
    rintro n p ⟨-, h⟩
    rw [List.drop_replicate, List.take_replicate] at h
    have : true ∈ List.replicate (min 8 (n - p)) false := by rw [h]; decide
    exact absurd (List.eq_of_mem_replicate this) (by decide)
  refine ⟨⟨{ State.reset with rxBits := false :: Config.syncPattern }, rfl, ⟨by decide, by decide⟩, fun q hq h => ?_⟩,
    ⟨{ State.reset with rxBits := List.replicate 1001 false }, rfl, none 1001, ?_⟩,
    ⟨{ State.reset with rxBits := List.replicate 1000 false }, rfl, none 1000, ?_⟩⟩
  · obtain rfl : q = 0 := by omega
    exact absurd h.2 (by decide)
  · exact Nat.lt_of_lt_of_eq (by decide : 1000 < 1001) List.length_replicate.symm
  · exact Nat.le_of_eq List.length_replicate

/-- A buffer of one byte `b ≠ 0x55` and not 0 has no packet's end, however long it is. -/
theorem not_deliverable_replicate (n : Nat) : deliverable .suffixByte (List.replicate n 1) = false := by
  have h0 : (List.replicate n (1 : Byte)).contains 0 = false := by
    rw [Bool.eq_false_iff, ne_eq, List.contains_iff_mem]
    exact fun h => absurd (List.eq_of_mem_replicate h) (by decide)
  have ht : packetTags.any (fun tag => tagTerminatedFrom .suffixByte (List.replicate n 1) tag 0 (List.replicate n 1)) = false := by
    rw [Bool.eq_false_iff, ne_eq, List.any_eq_true]
    rintro ⟨tag, htag, h⟩
    have hne : tag ≠ [] := by rintro rfl; revert htag; decide
    obtain ⟨r, -, h⟩ := (tagTerminatedFrom_iff hne).1 h
    obtain ⟨r, -, h⟩ := suffixTerminated_iff.1 h
    exact absurd (List.eq_of_mem_replicate (List.mem_of_getElem? h)) (by decide)
  simp only [deliverable, h0, ht, Bool.and_false, Bool.or_false]

/-- Deliverable with room and without; 5001 bytes and not; 5000 bytes with 8 bits; with 7 bits. -/
theorem witness_FramedDeliversOverflowsOrAssembles :
    (∃ s : State, s.syncState = .framed ∧ deliverable s.params.terminator s.pktBuf = true ∧
      s.params.capacities.pktQ.allows (s.pktQ.length + 1) = true) ∧
    (∃ s : State, s.syncState = .framed ∧ deliverable s.params.terminator s.pktBuf = true ∧
      s.params.capacities.pktQ.allows (s.pktQ.length + 1) = false) ∧
    (∃ s : State, s.syncState = .framed ∧ deliverable s.params.terminator s.pktBuf = false ∧ 5000 < s.pktBuf.length) ∧
    (∃ s : State, s.syncState = .framed ∧ deliverable s.params.terminator s.pktBuf = false ∧ s.pktBuf.length ≤ 5000 ∧
      8 ≤ s.rxBits.length) ∧
    ∃ s : State, s.syncState = .framed ∧ deliverable s.params.terminator s.pktBuf = false ∧ s.pktBuf.length ≤ 5000 ∧
      s.rxBits.length < 8 := by
  refine ⟨⟨cramped 1 (framedWith [0] []), rfl, by decide, rfl⟩, ⟨cramped 0 (framedWith [0] []), rfl, by decide, rfl⟩,
    ⟨framedWith (List.replicate 5001 1) [], rfl, not_deliverable_replicate _, ?_⟩,
    ⟨framedWith (List.replicate 5000 1) (List.replicate 8 true), rfl, not_deliverable_replicate _, ?_, by decide⟩,
    ⟨framedWith [] (List.replicate 7 true), rfl, by decide, by decide, by decide⟩⟩
  · exact Nat.lt_of_lt_of_eq (by decide : 5000 < 5001) List.length_replicate.symm
  · exact Nat.le_of_eq List.length_replicate

/-- Room for just enough packets: one delivered from a whole pattern and one from `PKTBUF`. -/
theorem witness_SyncRunEndsIdle :
    (cramped 2 (framedWith [0] Config.syncPattern)).params.capacities.pktQ.allows (0 + 8 / 8 + 1) = true := rfl

theorem witness_FrameWritesPrefixBodySuffix :
    (∃ s : State, 16 + 8 * s.ib.length < 2 ^ 32 ∧ s.params.capacities.txBits.allows (16 + 8 * s.ib.length) = true) ∧
    (∃ s : State, s.params.capacities.txBits.allows (16 + 8 * s.ib.length) = false) ∧ ∃ s : State, 2 ^ 32 ≤ 16 + 8 * s.ib.length := by
  obtain ⟨l, hl⟩ : ∃ l : List Byte, l.length = 2 ^ 29 - 2 := ⟨List.replicate (2 ^ 29 - 2) 0, List.length_replicate⟩
  refine ⟨⟨cramped 16 State.reset, by decide, rfl⟩, ⟨cramped 15 State.reset, rfl⟩, ⟨{ State.reset with ib := l }, ?_⟩⟩
  show 2 ^ 32 ≤ 16 + 8 * l.length
  omega

/-- A body of exactly ten bytes, `END:` and six others. -/
theorem witness_FramedBodyIsDelivered : ∃ (s : State) (body : List Byte) (pad : Nat),
    s.params.terminator = .suffixByte ∧ s.syncState = .hunting ∧ s.pktBuf = [] ∧
    s.params.capacities.pktQ.allows (s.pktQ.length + 1) = true ∧
    s.rxBits = frameBits body ++ List.replicate pad false ∧ 10 ≤ body.length ∧ body.length ≤ 5000 ∧
    (0 : Byte) ∉ body ∧ (0x55 : Byte) ∉ body ∧ ∃ tag ∈ packetTags, tag <+: body :=
  ⟨{ State.reset with rxBits := frameBits [0x45, 0x4E, 0x44, 0x3A, 1, 2, 3, 4, 5, 6] ++ List.replicate 3 false },
    [0x45, 0x4E, 0x44, 0x3A, 1, 2, 3, 4, 5, 6], 3, rfl, rfl, rfl, rfl, rfl, by decide, by decide, by decide, by decide,
    [0x45, 0x4E, 0x44, 0x3A], by decide, ⟨[1, 2, 3, 4, 5, 6], rfl⟩⟩

theorem witness_StepKeepsTheInvariant : ∃ s t : State, Inv s ∧ step s = .next t := ⟨demo, _, demo_inv, rfl⟩

theorem witness_NothingStopsTheMachine : Inv demo := demo_inv

/-- An instruction that ends with an error, one that ends well, and one that runs on inside a stream. -/
theorem witness_WholeMachineRules :
    (∃ t, exec .ilv State.reset = .next t ∧ t.result.toNat = 2 ∧ t.lzRun = none) ∧
    (∃ t, exec .lzDec State.reset = .next t ∧ t.result.toNat = 4) ∧ (∃ t, exec .nop State.reset = .next t) ∧
    (∃ t, exec (.csrr 0x09) State.reset = .next t) ∧
    (∃ t, exec .frame (cramped 0 State.reset) = .next t ∧ t.result = 7 ∧ State.reset.result ≠ 7) ∧ ∃ t, exec (.lzLiteral 1) (inBody 2 []) = .next t ∧ t.lzRun ≠ none :=
  ⟨⟨_, rfl, by decide, rfl⟩, ⟨_, rfl, by decide⟩, ⟨_, rfl⟩, ⟨_, rfl⟩,
    ⟨_, rfl, by decide, by decide⟩, ⟨_, rfl, by decide⟩⟩

end Sys2Proof.Tests
end

/-! # The reset table and the invariant (rules R48, R49)

`step` keeps the invariant because every command is an update of one part of the state followed by a command's end. The
rules below say, for each part that a command writes, what the write must respect; each command's proof then names its
update and gives the one fact it owes. -/

namespace Sys2Proof.Machine

/-! ## The reset state -/

/-- Settles O12: the fields are the table's by definition, `POWER` as a fraction and the sixteen-fold ones entry by
entry. -/
theorem resetValuesAreTheTable : Obligations.ResetValuesAreTheTable :=
  ⟨rfl, rfl, rfl, rfl, rfl, rfl, rfl, fixedPower_eq, rfl, rfl, rfl, rfl, rfl, rfl, rfl, rfl, rfl,
    Vector.get_replicate 16 0, rfl, rfl, rfl, rfl, rfl, Vector.get_replicate 16 [], Vector.get_replicate 16 [], rfl, rfl,
    rfl, rfl, rfl, fun _ => rfl, Vector.get_replicate 16 none⟩

/-! ## What each part of the invariant reads

The registers, flags, carriers, streams, symbols and slot counters, which the invariant ties to each other, are the signal
path; the other fields are constrained one by one. -/

/-- `t` with the signal path of `s`. -/
def State.withSignal (t s : State) : State :=
  { t with
    numChannels := s.numChannels, channelSpacingHz := s.channelSpacingHz, symbolDurationMs := s.symbolDurationMs
    bitsPerSymbol := s.bitsPerSymbol, useBinaryPayload := s.useBinaryPayload, signalThreshold := s.signalThreshold
    adaptivePowerEn := s.adaptivePowerEn, calValid := s.calValid, ilvValid := s.ilvValid, symValid := s.symValid
    carrier := s.carrier, stream := s.stream, syms := s.syms, slotIdx := s.slotIdx, numSlots := s.numSlots }

/-- A state with the signal path of one that meets the invariant owes only what is said of the other fields. -/
theorem Inv.of_signal {s t : State} (h : Inv s) (same : t.withSignal s = t)
    (hunting : t.syncState = .hunting → t.pktBuf = []) (packet : t.pktBuf.length ≤ 5001)
    (capacities : WithinCapacities t) (power : t.params.minPower ≤ t.power ∧ t.power ≤ t.params.maxPower)
    (errBits : t.err &&& 0xFF41 = 0) (resultCode : t.result.toNat ≤ 7) (spectrum : Memory.wf t.spec = true)
    (parameters : t.params.ok) : Inv t := by
  rw [← same]
  exact
    { registers := { h.registers with }
      calibration := fun hc => { h.calibration hc with }
      streams := fun hi => { h.streams hi with }
      symbols := fun hs => { h.symbols hs with }
      slots := h.slots
      hunting, packet, power, errBits, resultCode, spectrum, parameters
      capacities := same.symm ▸ capacities }

/-! ## Rules: one update of the state, and what it owes the invariant -/

section
variable {s : State}

/-- The invariant says nothing of these fields. -/
theorem Inv.withUnconstrained (h : Inv s) {crc sum : Half} {rdata : Word} {snr : Rat} {dec : Vector Decision 16}
    {yielded : Bool} {moves : List HostMove} {run : Option LzRun} :
    Inv { s with
      crc := crc, sum := sum, rdata := rdata, snrIn := snr, dec := dec, slotYielded := yielded, host := moves
      lzRun := run } :=
  h.of_signal rfl h.hunting h.packet { h.capacities with } h.power h.errBits h.resultCode h.spectrum h.parameters

theorem Inv.withBuffers (h : Inv s) {ib ob : List Byte} {tx rx : List Bit} {samples win : List Sample}
    (fits : WithinCapacities
      { s with ib := ib, ob := ob, txBits := tx, rxBits := rx, samples := samples, win := win }) :
    Inv { s with ib := ib, ob := ob, txBits := tx, rxBits := rx, samples := samples, win := win } :=
  h.of_signal rfl h.hunting h.packet fits h.power h.errBits h.resultCode h.spectrum h.parameters

theorem Inv.withSync (h : Inv s) {sync : SyncState} {rx : List Bit} {buf : List Byte} {queue : List (List Byte)}
    (hunting : sync = .hunting → buf = []) (packet : buf.length ≤ 5001)
    (rxFits : s.params.capacities.rxBits.allows rx.length = true)
    (queueFits : s.params.capacities.pktQ.allows queue.length = true) :
    Inv { s with syncState := sync, rxBits := rx, pktBuf := buf, pktQ := queue } :=
  h.of_signal rfl hunting packet { h.capacities with rxBits := rxFits, pktQ := queueFits } h.power h.errBits
    h.resultCode h.spectrum h.parameters

theorem Inv.withPower (h : Inv s) {p : Rat} (hp : s.params.minPower ≤ p ∧ p ≤ s.params.maxPower) :
    Inv { s with power := p } :=
  h.of_signal rfl h.hunting h.packet { h.capacities with } hp h.errBits h.resultCode h.spectrum h.parameters

theorem Inv.withSpec (h : Inv s) {spec : Memory} (hspec : Memory.wf spec = true) : Inv { s with spec := spec } :=
  h.of_signal rfl h.hunting h.packet { h.capacities with } h.power h.errBits h.resultCode hspec h.parameters

/-- The registers 0x04 to 0x06 need only be legal. -/
theorem Inv.withOptions (h : Inv s) {bin threshold adaptive : Half}
    (legal : RegistersLegal
      { s with useBinaryPayload := bin, signalThreshold := threshold, adaptivePowerEn := adaptive }) :
    Inv { s with useBinaryPayload := bin, signalThreshold := threshold, adaptivePowerEn := adaptive } :=
  { h with
    registers := legal
    calibration := fun hc => { h.calibration hc with }
    streams := fun hi => { h.streams hi with }
    symbols := fun hs => { h.symbols hs with }
    capacities := { h.capacities with } }

/-- A new profile voids what was made for the old one, so it need only be legal (rule R113). -/
theorem Inv.withProfile (h : Inv s) {n spacing ms k : Half}
    (legal : RegistersLegal
      { s with numChannels := n, channelSpacingHz := spacing, symbolDurationMs := ms, bitsPerSymbol := k }) :
    Inv { s with numChannels := n, channelSpacingHz := spacing, symbolDurationMs := ms, bitsPerSymbol := k
      }.invalidateProfile :=
  { h with
    registers := { legal with }
    calibration := nofun
    streams := nofun
    symbols := nofun
    slots := Nat.le_refl _
    capacities := { h.capacities with } }

theorem Inv.withCarriers (h : Inv s) {carrier : Vector Half 16}
    (holds : CalibrationHolds { s with carrier := carrier, calValid := true }) :
    Inv { s with carrier := carrier, calValid := true } :=
  { h with
    registers := { h.registers with }
    calibration := fun _ => holds
    streams := fun hi => { h.streams hi with }
    symbols := fun hs => { h.symbols hs with }
    capacities := { h.capacities with } }

/-- New streams void the symbols and the slot counters (rule R161). -/
theorem Inv.withStreams (h : Inv s) {stream : Vector (List Bit) 16} (holds : StreamsHold { s with stream := stream })
    (fits : ∀ c, s.params.capacities.stream.allows (stream.get c).length = true) :
    Inv { s with stream := stream, ilvValid := true, symValid := false, slotIdx := 0, numSlots := 0 } :=
  { h with
    registers := { h.registers with }
    calibration := fun hc => { h.calibration hc with }
    streams := fun _ => { holds with }
    symbols := nofun
    slots := Nat.le_refl _
    capacities := { h.capacities with stream := fits } }

/-- New symbols start the slot counter again (rule R163). -/
theorem Inv.withSymbols (h : Inv s) {syms : Vector (List Nat) 16} {slots : Word}
    (holds : SymbolsHold { s with syms := syms, numSlots := slots })
    (fits : ∀ c, s.params.capacities.syms.allows (syms.get c).length = true) :
    Inv { s with syms := syms, numSlots := slots, slotIdx := 0, symValid := true } :=
  { h with
    registers := { h.registers with }
    calibration := fun hc => { h.calibration hc with }
    streams := fun hi => { h.streams hi with }
    symbols := fun _ => { holds with }
    slots := Nat.zero_le _
    capacities := { h.capacities with syms := fits } }

theorem Inv.withSlotIdx (h : Inv s) {idx : Word} (le : idx.toNat ≤ s.numSlots.toNat) : Inv { s with slotIdx := idx } :=
  { h with
    registers := { h.registers with }
    calibration := fun hc => { h.calibration hc with }
    streams := fun hi => { h.streams hi with }
    symbols := fun hs => { h.symbols hs with }
    slots := le
    capacities := { h.capacities with } }

/-- The reset state meets the invariant under all parameters that rule R7 allows. -/
theorem Inv.afterReset (h : s.params.ok) : Inv s.afterReset where
  registers :=
    have legal : RegistersLegal State.reset := ⟨by decide, by decide, by decide, by decide, by decide⟩
    { legal with }
  calibration := nofun
  streams := nofun
  symbols := nofun
  slots := Nat.le_refl _
  hunting _ := rfl
  packet := Nat.zero_le _
  capacities := by constructor <;> simp [State.reset]
  power := ⟨h.2.1, h.2.2.1⟩
  errBits := show State.reset.err &&& 0xFF41 = 0 by decide
  resultCode := Nat.zero_le _
  spectrum := rfl
  parameters := h

end

/-! ## The next state of an outcome

A fault and a refusal owe the invariant nothing: the statement is about steps that answer. -/

/-- If the outcome is a next state, it meets the invariant. -/
def NextMeetsInv (o : Outcome) : Prop := ∀ t, o = .next t → Inv t

section
variable {s t : State}

theorem nextMeetsInv_next (h : Inv t) : NextMeetsInv (.next t) := by
  rintro _ ⟨⟩; exact h

theorem nextMeetsInv_refused {r : Refusal} : NextMeetsInv (.refused r) := by
  rintro _ ⟨⟩

theorem nextMeetsInv_fault {f : Fault} : NextMeetsInv (.fault f) := by
  rintro _ ⟨⟩

theorem nextMeetsInv_finish {code : ResultCode} (h : Inv s) : NextMeetsInv (finish code s) :=
  nextMeetsInv_next h.endWith

theorem nextMeetsInv_finishWithin {c : Config.Capacity} {count : Nat} (h : Inv s)
    (ht : c.allows count = true → Inv t) : NextMeetsInv (finishWithin c count t s) := by
  intro u hu
  obtain ⟨fits, rfl⟩ | ⟨-, rfl⟩ := finishWithin_next hu
  · exact (ht fits).endWith
  · exact h.endWith

theorem nextMeetsInv_hostWrite {c : Config.Capacity} {count : Nat} (ht : c.allows count = true → Inv t) :
    NextMeetsInv (hostWrite c count t) := by
  unfold hostWrite
  split
  · exact nextMeetsInv_next (ht ‹_›)
  · exact nextMeetsInv_refused

end

/-! ## Configuration and system -/

theorem RegistersLegal.writeCsr {s : State} (h : RegistersLegal s) {r : Csr} {v : Half} (hv : r.legal v = true) :
    RegistersLegal (s.writeCsr r v) := by
  cases r with
  | channelSpacingHz | symbolDurationMs => exact { h with }
  | signalThreshold => exact { h with signalThreshold := of_decide_eq_true hv }
  | numChannels =>
    have mem : v.toNat ∈ [0, 4, 8, 12, 16] := by simp [Csr.legal, ← BitVec.toNat_inj] at hv ⊢; omega
    exact { h with numChannels := mem }
  | bitsPerSymbol =>
    have mem : v.toNat ∈ [0, 1, 2, 3] := by simp [Csr.legal, ← BitVec.toNat_inj] at hv ⊢; omega
    exact { h with bitsPerSymbol := mem }
  | useBinaryPayload =>
    have mem : v.toNat ∈ [0, 1] := by simpa [Csr.legal, ← BitVec.toNat_inj] using hv
    exact { h with useBinaryPayload := mem }
  | adaptivePowerEn =>
    have mem : v.toNat ∈ [0, 1] := by simpa [Csr.legal, ← BitVec.toNat_inj] using hv
    exact { h with adaptivePowerEn := mem }
  | status | err | result | crc | sum | slotIdx | numSlots | rdata | samplesPerSlot | carrier => exact h

theorem Inv.writeCsr {s : State} (h : Inv s) {r : Csr} {v : Half} (hv : r.legal v = true) : Inv (s.writeCsr r v) := by
  have legal := h.registers.writeCsr hv
  cases r with
  | numChannels | channelSpacingHz | symbolDurationMs | bitsPerSymbol => exact h.withProfile { legal with }
  | useBinaryPayload | signalThreshold | adaptivePowerEn => exact h.withOptions legal
  | status | err | result | crc | sum | slotIdx | numSlots | rdata | samplesPerSlot | carrier => exact h

theorem bandOk_iff {base n spacing : Nat} :
    bandOk base n spacing = true ↔ 2000 ≤ base ∧ base + (n - 1) * spacing ≤ 10000 := by
  rw [bandOk, Bool.and_eq_true, decide_eq_true_iff, decide_eq_true_iff]
  rfl

theorem carrier_le_of_bandOk {base n spacing c : Nat} (band : bandOk base n spacing = true) (hc : c < n) :
    base + c * spacing ≤ 10000 :=
  calc base + c * spacing ≤ base + (n - 1) * spacing := by gcongr; omega
    _ ≤ 10000 := (bandOk_iff.1 band).2

/-- No carrier of a base frequency that passes the band check is cut off to 16 bits. -/
theorem carriersFrom_hz {base n spacing : Nat} (band : bandOk base n spacing = true) {c : Fin 16} (hc : c.val < n) :
    ((carriersFrom base n spacing).get c).toNat = base + c.val * spacing := by
  have := carrier_le_of_bandOk band hc
  rw [carriersFrom, perChannel_active _ _ hc, BitVec.toNat_ofNat, Nat.mod_eq_of_lt (by omega)]

theorem n_pos {s : State} (h : RegistersLegal s) (profile : s.profileOk = true) : 0 < s.n := by
  obtain ⟨hn, -, -, -⟩ := profile_values h profile
  exact Nat.pos_of_ne_zero fun h0 => by simp [h0] at hn

/-- The carriers `LDCAL` writes are what `CAL_VALID` says (rule R49 (b)). -/
theorem calibrationHolds_carriersFrom {s : State} (h : Inv s) (profile : s.profileOk = true) {base : Nat}
    (band : bandOk base s.n s.channelSpacingHz.toNat = true) : CalibrationHolds
      { s with carrier := carriersFrom base s.n s.channelSpacingHz.toNat, calValid := true } := by
  have hz := fun c : Fin 16 => carriersFrom_hz band (c := c)
  have first : ((carriersFrom base s.n s.channelSpacingHz.toNat).get 0).toNat = base := by
    simpa using hz 0 (n_pos h.registers profile)
  exact {
    profile
    lowest := (bandOk_iff.1 band).1.trans_eq first.symm
    spaced := fun c hc => (hz c hc).trans (congrArg (· + _) first.symm)
    highest := fun c hc => (hz c hc).trans_le (carrier_le_of_bandOk band hc)
    unused := fun c hc => congrArg BitVec.toNat (perChannel_unused _ _ hc) }

theorem execCsrw_keeps_inv {s : State} (h : Inv s) (a : Byte) (imm : Half) : NextMeetsInv (execCsrw a imm s) := by
  unfold execCsrw
  split
  · exact nextMeetsInv_finish h
  · split
    · split
      · exact nextMeetsInv_finish (h.writeCsr ‹_›)
      · exact nextMeetsInv_finish h
    · exact nextMeetsInv_finish h

theorem execCsrr_keeps_inv {s : State} (h : Inv s) (a : Byte) : NextMeetsInv (execCsrr a s) := by
  unfold execCsrr
  split
  · exact nextMeetsInv_finish h
  · exact nextMeetsInv_next h.withUnconstrained
  · exact nextMeetsInv_finish h.withUnconstrained

theorem execLdcal_keeps_inv {s : State} (h : Inv s) (imm : Half) : NextMeetsInv (execLdcal imm s) := by
  unfold execLdcal
  split
  · exact nextMeetsInv_finish h
  · split
    · exact nextMeetsInv_finish h
    · rename_i profile band
      exact nextMeetsInv_finish
        (h.withCarriers (calibrationHolds_carriersFrom h (by simpa using profile) (by simpa using band)))

/-! ## Codec and framer -/

theorem Inv.withOb {s : State} (h : Inv s) {out : List Byte} (fits : s.params.capacities.ob.allows out.length = true) :
    Inv { s with ob := out } :=
  h.withBuffers { h.capacities with ob := fits }

theorem execLzEnc_keeps_inv {s : State} (h : Inv s) : NextMeetsInv (execLzEnc s) := by
  unfold execLzEnc
  split
  · exact nextMeetsInv_finishWithin h h.withOb
  · exact nextMeetsInv_finish h

theorem execLzDec_keeps_inv {s : State} (h : Inv s) : NextMeetsInv (execLzDec s) := by
  unfold execLzDec
  split
  · exact nextMeetsInv_finishWithin h h.withOb
  · exact nextMeetsInv_finish (h.withOb (by simp))

/-- A decoder that fails leaves `OB` empty, which fits every capacity. -/
theorem Inv.lzCorrupt {s : State} (h : Inv s) : Inv s.lzCorrupt :=
  (h.withOb (out := []) (by simp)).withUnconstrained.endWith

theorem runItem_keeps_inv {s : State} (h : Inv s) (it : LzItem) : NextMeetsInv (runItem it s) := by
  intro t ht
  obtain ⟨-, rfl⟩ | ⟨r, -, rfl⟩ | ⟨out, -, rfl⟩ | ⟨-, rfl⟩ := runItem_next ht
  · exact h.endWith
  · exact h.withUnconstrained
  · split
    · exact (h.withOb ‹_›).withUnconstrained.endWith
    · exact h.withUnconstrained.endWith
  · exact h.lzCorrupt

theorem Inv.withTxBits {s : State} (h : Inv s) {bits : List Bit}
    (fits : s.params.capacities.txBits.allows bits.length = true) : Inv { s with txBits := bits } :=
  h.withBuffers { h.capacities with txBits := fits }

theorem execFrame_keeps_inv {s : State} (h : Inv s) : NextMeetsInv (execFrame s) := by
  unfold execFrame
  split
  · exact nextMeetsInv_finishWithin h fun fits => h.withTxBits (by rwa [frameBits_length])
  · exact nextMeetsInv_finish h

/-! ## Modulator -/

/-- The streams `ILV` writes are what `ILV_VALID` says (rule R49 (c)). -/
theorem streamsHold_interleave {s : State} (h : Inv s) (profile : s.profileOk = true)
    (short : s.txBits.length < Config.lengthLimit) : StreamsHold
      { s with stream := perChannel s.n [] fun c => interleaveStream s.txBits s.n c.val } := by
  -- The vector becomes a variable: unification would else compute its entries.
  generalize made : (perChannel s.n [] fun c => interleaveStream s.txBits s.n c.val) = stream
  have length : ∀ c : Fin 16, c.val < s.n → (stream.get c).length = ceilDiv s.txBits.length s.n := fun c hc => by
    rw [← made, perChannel_active _ _ hc, interleaveStream_length]
  have first := length 0 (n_pos h.registers profile)
  exact {
    profile
    common := fun c hc => (length c hc).trans first.symm
    fits := first.trans_lt ((ceilDiv_le_self _ _).trans_lt short)
    unused := fun c hc => made ▸ perChannel_unused _ _ hc }

theorem symbolize_lt {stream : List Bit} {k m : Nat} (hm : m ∈ symbolize stream k) : m < 2 ^ k := by
  obtain ⟨i, -, rfl⟩ := List.mem_map.1 hm
  exact (fieldMsb_spec k _).1

/-- The symbols `SYMB` writes are what `SYM_VALID` says (rule R49 (d)). -/
theorem symbolsHold_symbolize {s : State} (h : Inv s) (valid : s.ilvValid = true) : SymbolsHold
      { s with
        syms := perChannel s.n [] fun c => symbolize (s.stream.get c) s.k
        numSlots := BitVec.ofNat 32 (ceilDiv (s.stream.get 0).length s.k) } := by
  obtain ⟨-, common, short, -⟩ := h.streams valid
  have active : ∀ c : Fin 16, c.val < s.n →
      (perChannel s.n [] fun c => symbolize (s.stream.get c) s.k).get c = symbolize (s.stream.get c) s.k :=
    fun c hc => perChannel_active _ _ hc
  have count : ∀ c : Fin 16, c.val < s.n → (symbolize (s.stream.get c) s.k).length =
      (BitVec.ofNat 32 (ceilDiv (s.stream.get 0).length s.k)).toNat := fun c hc => by
    rw [symbolize_length, common c hc, BitVec.toNat_ofNat, Nat.mod_eq_of_lt ((ceilDiv_le_self _ _).trans_lt short)]
  exact {
    streams := valid
    lengths := fun c hc => (congrArg List.length (active c hc)).trans (count c hc)
    entries := fun c hc m hm => symbolize_lt (stream := s.stream.get c) (active c hc ▸ hm)
    unused := fun c hc => perChannel_unused _ _ hc }

theorem execIlv_keeps_inv {s : State} (h : Inv s) : NextMeetsInv (execIlv s) := by
  unfold execIlv
  split
  · exact nextMeetsInv_finish h
  · split
    · exact nextMeetsInv_finish h
    · rename_i profile long
      refine nextMeetsInv_finishWithin h fun fits =>
        h.withStreams (streamsHold_interleave h (by simpa using profile) (Nat.lt_of_not_le long)) ?_
      exact perChannel_allows fun c _ => by rwa [interleaveStream_length]

theorem execSymb_keeps_inv {s : State} (h : Inv s) : NextMeetsInv (execSymb s) := by
  unfold execSymb
  split
  · exact nextMeetsInv_finish h
  · rename_i valid
    refine nextMeetsInv_finishWithin h fun fits => h.withSymbols (symbolsHold_symbolize h (by simpa using valid)) ?_
    exact perChannel_allows fun c hc => by rw [symbolize_length]; exact allows_longestSyms.1 fits c hc

theorem Inv.withSamples {s : State} (h : Inv s) {samples : List Sample}
    (fits : s.params.capacities.samples.allows samples.length = true) : Inv { s with samples := samples } :=
  h.withBuffers { h.capacities with samples := fits }

theorem execModSlot_keeps_inv {s : State} (h : Inv s) : NextMeetsInv (execModSlot s) := by
  unfold execModSlot
  split
  · exact nextMeetsInv_finish h
  · split
    · exact nextMeetsInv_finish h
    · split
      · exact nextMeetsInv_fault
      · refine nextMeetsInv_finishWithin h fun fits =>
          (h.withSamples (samples := s.samples ++ s.slotSamples) (by simpa using fits)).withSlotIdx ?_
        have lt : s.slotIdx.toNat < s.numSlots.toNat := by omega
        show (s.slotIdx + 1).toNat ≤ s.numSlots.toNat
        bv_omega

theorem execModPre_keeps_inv {s : State} (h : Inv s) : NextMeetsInv (execModPre s) := by
  unfold execModPre
  split
  · exact nextMeetsInv_finish h
  · exact nextMeetsInv_finishWithin h fun fits => h.withSamples (by simpa using fits)

theorem execPwrUpd_keeps_inv {s : State} (h : Inv s) : NextMeetsInv (execPwrUpd s) := by
  unfold execPwrUpd
  split
  · exact nextMeetsInv_finish h
  · exact nextMeetsInv_finish (h.withPower (pwrNext_mem h.parameters s.snrIn h.power))

/-! ## Demodulator -/

theorem Inv.withRxBits {s : State} (h : Inv s) {bits : List Bit}
    (fits : s.params.capacities.rxBits.allows bits.length = true) : Inv { s with rxBits := bits } :=
  h.withBuffers { h.capacities with rxBits := fits }

theorem takeDecisions_keeps_inv {s : State} (h : Inv s) (dec : Vector Decision 16) :
    NextMeetsInv (takeDecisions dec s) := by
  intro t ht
  obtain ⟨-, rfl⟩ | ⟨bits, -, ⟨fits, rfl⟩ | ⟨-, rfl⟩⟩ := takeDecisions_next ht
  · exact h.withUnconstrained.endWith
  · exact (h.withRxBits (bits := s.rxBits ++ bits) (by simpa using fits)).withUnconstrained.endWith
  · exact h.endWith

theorem execDemTick_keeps_inv {s : State} (h : Inv s) : NextMeetsInv (execDemTick s) := by
  unfold execDemTick
  split
  · exact nextMeetsInv_finish h
  · split
    · exact nextMeetsInv_finish h
    · split
      · exact nextMeetsInv_fault
      · exact takeDecisions_keeps_inv h _

theorem execDemIq_keeps_inv {s : State} (h : Inv s) : NextMeetsInv (execDemIq s) := by
  unfold execDemIq
  split
  · exact nextMeetsInv_finish h
  · split
    · exact nextMeetsInv_finish h
    · split
      · exact nextMeetsInv_finish h
      · exact takeDecisions_keeps_inv h _

/-! ## Synchronizer -/

/-- Dropping bits keeps `RXBITS` within its capacity. -/
theorem WithinCapacities.drop_rxBits {s : State} (h : WithinCapacities s) (n : Nat) :
    s.params.capacities.rxBits.allows (s.rxBits.drop n).length = true :=
  Capacity.allows_of_le (by simp) h.rxBits

theorem huntStep_keeps_inv {s : State} (h : Inv s) : NextMeetsInv (huntStep s) := by
  unfold huntStep
  split
  · exact nextMeetsInv_finish (h.withSync nofun h.packet (h.capacities.drop_rxBits _) h.capacities.pktQ)
  · split
    · exact nextMeetsInv_finish (h.withRxBits (h.capacities.drop_rxBits _))
    · exact nextMeetsInv_finish h

theorem frameStep_keeps_inv {s : State} (h : Inv s) (framed : s.syncState = .framed) : NextMeetsInv (frameStep s) := by
  unfold frameStep
  split
  · exact nextMeetsInv_finishWithin h fun fits =>
      h.withSync (fun _ => rfl) (Nat.zero_le _) h.capacities.rxBits (by simpa using fits)
  · split
    · exact nextMeetsInv_finish (h.withSync (fun _ => rfl) (Nat.zero_le _) h.capacities.rxBits h.capacities.pktQ)
    · split
      · refine nextMeetsInv_finish (h.withSync (fun hunting => absurd (framed.symm.trans hunting) nofun) ?_
          (h.capacities.drop_rxBits _) h.capacities.pktQ)
        rw [List.length_append]
        exact Nat.succ_le_succ (Nat.le_of_not_lt ‹_›)
      · exact nextMeetsInv_finish h

theorem execSyncStep_keeps_inv {s : State} (h : Inv s) : NextMeetsInv (execSyncStep s) := by
  unfold execSyncStep
  split
  · exact huntStep_keeps_inv h
  · exact frameStep_keeps_inv h ‹_›

theorem execSyncRst_keeps_inv {s : State} (h : Inv s) : NextMeetsInv (execSyncRst s) :=
  nextMeetsInv_finish (h.withSync (fun _ => rfl) (Nat.zero_le _) (by simp) h.capacities.pktQ)

/-! ## The step -/

theorem exec_keeps_inv {s : State} (h : Inv s) (i : Instr) : NextMeetsInv (exec i s) := by
  cases i with
  | nop => exact nextMeetsInv_finish h
  | reset => exact nextMeetsInv_finish (Inv.afterReset h.parameters)
  | csrw a imm => exact execCsrw_keeps_inv h a imm
  | csrr a => exact execCsrr_keeps_inv h a
  | ldcal imm => exact execLdcal_keeps_inv h imm
  | crcInit | crcStep | crcBuf | sumBuf => exact nextMeetsInv_finish h.withUnconstrained
  | lzEnc => exact execLzEnc_keeps_inv h
  | lzDec => exact execLzDec_keeps_inv h
  | ilv => exact execIlv_keeps_inv h
  | symb => exact execSymb_keeps_inv h
  | modSlot => exact execModSlot_keeps_inv h
  | modPre => exact execModPre_keeps_inv h
  | pwrUpd => exact execPwrUpd_keeps_inv h
  | demTick => exact execDemTick_keeps_inv h
  | demIq => exact execDemIq_keeps_inv h
  | syncStep => exact execSyncStep_keeps_inv h
  | syncRst => exact execSyncRst_keeps_inv h
  | frame => exact execFrame_keeps_inv h
  | lzHeader | lzLiteral | lzMatch | lzEscape => exact runItem_keeps_inv h _

theorem stepStream_keeps_inv {s : State} (h : Inv s) (r : LzRun) : NextMeetsInv (stepStream r s) := by
  unfold stepStream
  split
  · exact nextMeetsInv_next h.lzCorrupt
  · exact exec_keeps_inv h.withUnconstrained _

theorem stepCommand_keeps_inv {s : State} (h : Inv s) (w : Word) : NextMeetsInv (stepCommand w s) := by
  unfold stepCommand
  split
  · exact exec_keeps_inv h _
  · exact nextMeetsInv_finish h

theorem putSpec_keeps_inv {s : State} (h : Inv s) (magnitudes : List Byte) : NextMeetsInv (putSpec magnitudes s) := by
  unfold putSpec
  split
  · exact nextMeetsInv_next (h.withSpec (Memory.wf_cellsFrom _ _ (by simp [*, Config.numBins])))
  · exact nextMeetsInv_refused

theorem stepMove_keeps_inv {s : State} (h : Inv s) (m : HostMove) : NextMeetsInv (stepMove m s) := by
  cases m with
  | command w => exact stepCommand_keeps_inv h w
  | resetInput => exact nextMeetsInv_next (Inv.afterReset h.parameters)
  | putIb bytes => exact nextMeetsInv_hostWrite fun fits => h.withBuffers { h.capacities with ib := fits }
  | putTxBits bits => exact nextMeetsInv_hostWrite h.withTxBits
  | putWin samples => exact nextMeetsInv_hostWrite fun fits => h.withBuffers { h.capacities with win := fits }
  | putSpec magnitudes => exact putSpec_keeps_inv h magnitudes
  | setSnrIn q => exact nextMeetsInv_next h.withUnconstrained
  | appendRxBits bits => exact nextMeetsInv_hostWrite fun fits => h.withRxBits (by simpa using fits)
  | takeSamples n =>
    exact nextMeetsInv_next (h.withSamples (Capacity.allows_of_le (by simp) h.capacities.samples))
  | takePktQ n =>
    exact nextMeetsInv_next
      (h.withSync h.hunting h.packet h.capacities.rxBits (Capacity.allows_of_le (by simp) h.capacities.pktQ))

theorem step_keeps_inv {s : State} (h : Inv s) : NextMeetsInv (step s) := by
  unfold step
  split
  · exact stepStream_keeps_inv h _
  · split
    · exact nextMeetsInv_next h
    · exact stepMove_keeps_inv h.withUnconstrained _

/-- Settles O54, by the kind of step: an item of a stream, a command, another move of the host, or none. -/
theorem stepKeepsTheInvariant : Obligations.StepKeepsTheInvariant := fun _ t h => step_keeps_inv h t

end Sys2Proof.Machine

/-! # The command words (rules R80 to R82)

A row of the table fixes the opcode and asks zero of the bits its mask has in `a` and `imm`. The decoder, once it knows
the opcode, asks zero of the same bits. Both are said of the word's fields (`FieldsLegal`), one condition for both. -/

namespace Sys2Proof

/-! ## The fields of a word -/

@[simp] theorem opField_and (v w : Word) : opField (v &&& w) = opField v &&& opField w := BitVec.extractLsb'_and ..

@[simp] theorem aField_and (v w : Word) : aField (v &&& w) = aField v &&& aField w := BitVec.extractLsb'_and ..

@[simp] theorem immField_and (v w : Word) : immField (v &&& w) = immField v &&& immField w := BitVec.extractLsb'_and ..

/-- The three fields are the whole word (rule R80). -/
theorem commandWord_fields (w : Word) : commandWord (opField w) (aField w) (immField w) = w := by
  have upper : opField w ++ aField w = w.extractLsb' 16 16 := BitVec.extractLsb'_append_extractLsb'_eq_extractLsb' rfl
  rw [commandWord, upper]
  exact BitVec.extractLsb'_append_extractLsb'

theorem word_eq_iff_fields (v w : Word) :
    v = w ↔ opField v = opField w ∧ aField v = aField w ∧ immField v = immField w := by
  constructor
  · rintro rfl
    exact ⟨rfl, rfl, rfl⟩
  · rintro ⟨hop, ha, himm⟩
    rw [← commandWord_fields v, ← commandWord_fields w, hop, ha, himm]

@[simp] theorem opField_commandWord (op a : Byte) (imm : Half) : opField (commandWord op a imm) = op :=
  (BitVec.extractLsb'_append_eq_of_le (xhi := op ++ a) (by decide)).trans BitVec.extractLsb'_append_eq_left

@[simp] theorem aField_commandWord (op a : Byte) (imm : Half) : aField (commandWord op a imm) = a :=
  (BitVec.extractLsb'_append_eq_of_le (xhi := op ++ a) (by decide)).trans BitVec.extractLsb'_append_eq_right

@[simp] theorem immField_commandWord (op a : Byte) (imm : Half) : immField (commandWord op a imm) = imm :=
  BitVec.extractLsb'_append_eq_right (a := op ++ a)

/-- `CRC.STEP` reserves the upper half of `imm`: a field of its own to the decoder, bits of the mask to the table. -/
theorem immField_and_upper_eq_zero_iff (w : Word) : immField w &&& 0xFF00 = 0 ↔ w.extractLsb' 8 8 = 0 := by
  have upper : immField w &&& 0xFF00 = w.extractLsb' 8 8 ++ 0#8 := by
    apply BitVec.eq_of_getLsbD_eq
    intro i hi
    simp only [immField, BitVec.getLsbD_and, BitVec.getLsbD_append, BitVec.getLsbD_extractLsb']
    interval_cases i <;> simp
  rw [upper]
  exact BitVec.append_left_inj (s₁ := w.extractLsb' 8 8) (s₂ := 0#8) 0#8

/-! ## The rows of the table -/

/-- The row that fixes the opcode and asks zero of the bits set in `a` and `imm`. -/
def opRow (op a : Byte) (imm : Half) : Word × Word := (commandWord op 0 0, commandWord 0xFF a imm)

theorem matches_opRow_iff (w : Word) (op a : Byte) (imm : Half) :
    w &&& (opRow op a imm).2 = (opRow op a imm).1 ↔
      opField w = op ∧ aField w &&& a = 0 ∧ immField w &&& imm = 0 := by
  have allOnes : opField w &&& 0xFF = opField w := BitVec.and_allOnes
  simp only [opRow, word_eq_iff_fields, opField_and, aField_and, immField_and, opField_commandWord, aField_commandWord,
    immField_commandWord, allOnes]

/-- The opcodes of the commands that take no operand. -/
def bareOpcodes : List Byte :=
  [0x00, 0x01, 0x10, 0x12, 0x13, 0x14, 0x15, 0x20, 0x21, 0x22, 0x23, 0x24, 0x30, 0x31, 0x40, 0x41, 0x50]

theorem mem_commandRows_iff (row : Word × Word) :
    row ∈ commandRows ↔
      (∃ op ∈ bareOpcodes, row = opRow op 0xFF 0xFFFF) ∨
        row = opRow 0x02 0 0 ∨ row = opRow 0x03 0 0xFFFF ∨ row = opRow 0x04 0xFF 0 ∨ row = opRow 0x11 0xFF 0xFF00 := by
  have perm : commandRows.Perm (bareOpcodes.map (opRow · 0xFF 0xFFFF) ++
      [opRow 0x02 0 0, opRow 0x03 0 0xFFFF, opRow 0x04 0xFF 0, opRow 0x11 0xFF 0xFF00]) := by decide
  simp [perm.mem_iff, eq_comm]

/-! ## The legal words, by their fields -/

/-- The operands of the word are what rule R81 lets its opcode have: the reserved bits are 0. -/
inductive FieldsLegal (w : Word) : Prop where
  | bare (op : opField w ∈ bareOpcodes) (a : aField w = 0) (imm : immField w = 0)
  | csrw (op : opField w = 0x02)
  | csrr (op : opField w = 0x03) (imm : immField w = 0)
  | ldcal (op : opField w = 0x04) (a : aField w = 0)
  | crcStep (op : opField w = 0x11) (a : aField w = 0) (upper : w.extractLsb' 8 8 = 0)

theorem matches_commandRows_iff_fieldsLegal (w : Word) :
    (∃ row ∈ commandRows, w &&& row.2 = row.1) ↔ FieldsLegal w := by
  have allOnesA : aField w &&& 0xFF = aField w := BitVec.and_allOnes
  have allOnesImm : immField w &&& 0xFFFF = immField w := BitVec.and_allOnes
  constructor
  · rintro ⟨row, hrow, hmatch⟩
    obtain ⟨op, bare, rfl⟩ | rfl | rfl | rfl | rfl := (mem_commandRows_iff row).1 hrow <;>
      obtain ⟨hop, a, imm⟩ := (matches_opRow_iff ..).1 hmatch
    · exact .bare (hop ▸ bare) (allOnesA ▸ a) (allOnesImm ▸ imm)
    · exact .csrw hop
    · exact .csrr hop (allOnesImm ▸ imm)
    · exact .ldcal hop (allOnesA ▸ a)
    · exact .crcStep hop (allOnesA ▸ a) ((immField_and_upper_eq_zero_iff w).1 imm)
  · intro legal
    simp only [mem_commandRows_iff]
    obtain ⟨op, a, imm⟩ | op | ⟨op, imm⟩ | ⟨op, a⟩ | ⟨op, a, upper⟩ := legal
    · exact ⟨_, .inl ⟨_, op, rfl⟩, by simp [matches_opRow_iff, a, imm]⟩
    · exact ⟨_, .inr (.inl rfl), by simp [matches_opRow_iff, op]⟩
    · exact ⟨_, .inr (.inr (.inl rfl)), by simp [matches_opRow_iff, op, imm]⟩
    · exact ⟨_, .inr (.inr (.inr (.inl rfl))), by simp [matches_opRow_iff, op, a]⟩
    · exact ⟨_, .inr (.inr (.inr (.inr rfl))), (matches_opRow_iff ..).2
        ⟨op, by simp [a], (immField_and_upper_eq_zero_iff w).2 upper⟩⟩

/-! ## The decoder at each opcode -/

@[simp] theorem reservedZero_isOk_iff (fieldsZero : Bool) (i : Instr) :
    (∃ j, reservedZero fieldsZero i = .ok j) ↔ fieldsZero = true := by
  cases fieldsZero <;> simp [reservedZero]

theorem bare_isOk_iff (w : Word) (i : Instr) : (∃ j, bare w i = .ok j) ↔ aField w = 0 ∧ immField w = 0 := by
  simp [bare]

section
variable {w : Word}

theorem decodeCommand_bare (hop : opField w ∈ bareOpcodes) : ∃ i, decodeCommand w = bare w i := by
  simp only [bareOpcodes, List.mem_cons, List.not_mem_nil, or_false] at hop
  unfold decodeCommand
  rcases hop with hop | hop | hop | hop | hop | hop | hop | hop | hop | hop | hop | hop | hop | hop | hop | hop |
      hop <;>
    rw [hop] <;> exact ⟨_, rfl⟩

theorem decodeCommand_csrw (hop : opField w = 0x02) : decodeCommand w = .ok (.csrw (aField w) (immField w)) := by
  unfold decodeCommand
  rw [hop]
  rfl

theorem decodeCommand_csrr (hop : opField w = 0x03) :
    decodeCommand w = reservedZero (immField w == 0) (.csrr (aField w)) := by
  unfold decodeCommand
  rw [hop]
  rfl

theorem decodeCommand_ldcal (hop : opField w = 0x04) :
    decodeCommand w = reservedZero (aField w == 0) (.ldcal (immField w)) := by
  unfold decodeCommand
  rw [hop]
  rfl

theorem decodeCommand_crcStep (hop : opField w = 0x11) :
    decodeCommand w =
      reservedZero (aField w == 0 && w.extractLsb' 8 8 == 0#8) (.crcStep (w.extractLsb' 0 8)) := by
  unfold decodeCommand
  rw [hop]
  rfl

/-- The decoder names the opcodes of five kinds of operands; every other one falls through. -/
theorem decodeCommand_unknown (bare : opField w ∉ bareOpcodes) (csrw : opField w ≠ 0x02) (csrr : opField w ≠ 0x03)
    (ldcal : opField w ≠ 0x04) (crcStep : opField w ≠ 0x11) : decodeCommand w = .error .unknownOpcode := by
  simp only [bareOpcodes, List.mem_cons, List.not_mem_nil, or_false, not_or, ← BitVec.toNat_inj.ne] at *
  unfold decodeCommand
  split <;> grind

end

theorem decodeCommand_isOk_iff_fieldsLegal (w : Word) : (∃ i, decodeCommand w = .ok i) ↔ FieldsLegal w := by
  constructor
  · intro ok
    by_cases bare : opField w ∈ bareOpcodes
    · obtain ⟨i, hi⟩ := decodeCommand_bare bare
      rw [hi, bare_isOk_iff] at ok
      exact .bare bare ok.1 ok.2
    by_cases csrw : opField w = 0x02
    · exact .csrw csrw
    by_cases csrr : opField w = 0x03
    · exact .csrr csrr (by simpa [decodeCommand_csrr csrr] using ok)
    by_cases ldcal : opField w = 0x04
    · exact .ldcal ldcal (by simpa [decodeCommand_ldcal ldcal] using ok)
    by_cases crcStep : opField w = 0x11
    · obtain ⟨a, upper⟩ : aField w = 0 ∧ w.extractLsb' 8 8 = 0 := by simpa [decodeCommand_crcStep crcStep] using ok
      exact .crcStep crcStep a upper
    · simp [decodeCommand_unknown bare csrw csrr ldcal crcStep] at ok
  · rintro (⟨op, a, imm⟩ | op | ⟨op, imm⟩ | ⟨op, a⟩ | ⟨op, a, upper⟩)
    · obtain ⟨i, hi⟩ := decodeCommand_bare op
      exact hi ▸ (bare_isOk_iff w i).2 ⟨a, imm⟩
    · exact ⟨_, decodeCommand_csrw op⟩
    · simp [decodeCommand_csrr op, imm]
    · simp [decodeCommand_ldcal op, a]
    · simp [decodeCommand_crcStep op, a, upper]

/-- Rule R82: the words the decoder accepts are those that a row of the table matches. -/
theorem decodeCommand_isOk_iff (w : Word) :
    (∃ i, decodeCommand w = .ok i) ↔ ∃ row ∈ commandRows, w &&& row.2 = row.1 :=
  (decodeCommand_isOk_iff_fieldsLegal w).trans (matches_commandRows_iff_fieldsLegal w).symm

/-! ## The step -/

namespace Machine

theorem step_command {s : State} {w : Word} {moves : List HostMove} (hrun : s.lzRun = none)
    (hhost : s.host = .command w :: moves) : step s = stepCommand w { s with host := moves } := by
  simp only [step, hrun, hhost, stepMove]

theorem stepCommand_of_illegal {w : Word} (illegal : ¬ ∃ i, decodeCommand w = .ok i) (s : State) :
    stepCommand w s = .next (s.endWith .illegalCommand) := by
  unfold stepCommand
  split
  · next i hi => exact absurd ⟨i, hi⟩ illegal
  · rfl

/-- Settles O4, by the fields of the word: its opcode picks the row, and the row's mask the bits that must be 0. -/
theorem wordsOutsideTheTableAreIllegal : Obligations.WordsOutsideTheTableAreIllegal := by
  intro w
  refine ⟨decodeCommand_isOk_iff w, fun s moves hrun hhost unmatched => ?_⟩
  have illegal : ¬ ∃ i, decodeCommand w = .ok i := by
    intro ok
    obtain ⟨row, hrow, hmatch⟩ := (decodeCommand_isOk_iff w).1 ok
    exact unmatched row hrow hmatch
  rw [step_command hrun hhost, stepCommand_of_illegal illegal]
  rfl

end Machine

end Sys2Proof

/-! # The configuration commands (rules R111 to R115)

Each command's branches are said once: what it answers under the condition that leads into the branch. The statements
then pick the branch of each register number. -/

namespace Sys2Proof

/-! ## The words -/

theorem decodeCommand_csrwWord (a : Byte) (imm : Half) :
    decodeCommand (commandWord 0x02 a imm) = .ok (.csrw a imm) := by
  simp [decodeCommand_csrw]

theorem decodeCommand_csrrWord (a : Byte) : decodeCommand (commandWord 0x03 a 0) = .ok (.csrr a) := by
  simp [decodeCommand_csrr, reservedZero]

theorem decodeCommand_ldcalWord (imm : Half) : decodeCommand (commandWord 0x04 0 imm) = .ok (.ldcal imm) := by
  simp [decodeCommand_ldcal, reservedZero]

namespace Machine

/-! ## How a command ends, field by field -/

section
variable {s : State}

theorem finish_ok : finish .ok s = .next { s with result := 0 } := congrArg _ s.endWith_ok

/-- A reset block holds `RESULT` 0 already, so `RESET` ends where the reset input does (rule R310). -/
theorem finish_ok_afterReset : finish .ok s.afterReset = .next s.afterReset := finish_ok

theorem step_hostMove {m : HostMove} {moves : List HostMove} (hrun : s.lzRun = none) (hhost : s.host = m :: moves) :
    step s = stepMove m { s with host := moves } := by
  simp only [step, hrun, hhost]

/-! ## `CSRW` -/

variable {a : Byte} {r : Csr} {v : Half}

theorem exec_csrw : exec (.csrw a v) s = execCsrw a v s := rfl

/-- The numbers from 0x07 on are of registers that only the block writes, or of none (rule R38). -/
theorem not_writable_of_csrOf (ha : 7 ≤ a.toNat) (hr : csrOf a = some r) : r.writable = false := by
  unfold csrOf at hr
  split at hr
  iterate 7 omega
  iterate 9 (cases hr; rfl)
  obtain ⟨_, carrier⟩ := Option.dite_none_right_eq_some.1 hr
  cases carrier
  rfl

theorem exec_csrw_readOnly (ha : 7 ≤ a.toNat) :
    exec (.csrw a v) s = .next { s with result := 1, err := s.err ||| 0x0002 } := by
  rw [exec_csrw, execCsrw]
  split
  · rfl
  · rw [not_writable_of_csrOf ha ‹_›]
    rfl

/-- What a write to a writable register answers, `P` saying which values are legal for it (rule R113). -/
theorem exec_csrw_writable {P : Prop} [Decidable P] (ha : csrOf a = some r) (hr : r.writable = true)
    (hP : r.legal v = true ↔ P) :
    exec (.csrw a v) s =
      if P then .next { s.writeCsr r v with result := 0 }
      else .next { s with result := 7, err := s.err ||| 0x0080 } := by
  simp only [exec_csrw, execCsrw, ha, hr, if_true, hP, finish_ok]
  rfl

theorem legal_numChannels_iff : Csr.numChannels.legal v = true ↔ v.toNat ∈ [4, 8, 12, 16] := by
  simp [Csr.legal, ← BitVec.toNat_inj, or_assoc]

theorem legal_bitsPerSymbol_iff : Csr.bitsPerSymbol.legal v = true ↔ v.toNat ∈ [1, 2, 3] := by
  simp [Csr.legal, ← BitVec.toNat_inj, or_assoc]

/-- The values of the two switches, 0x04 and 0x06. -/
theorem beq_zero_or_beq_one_iff : (v == 0 || v == 1) = true ↔ v.toNat ∈ [0, 1] := by
  simp [← BitVec.toNat_inj]

/-- The values of the two registers that need only be non-zero, 0x01 and 0x02. -/
theorem bne_zero_iff_one_le : (v != 0) = true ↔ 1 ≤ v.toNat := by
  simp [← BitVec.toNat_inj, Nat.one_le_iff_ne_zero]

/-! ## `CSRR` -/

theorem exec_csrr : exec (.csrr a) s = execCsrr a s := rfl

theorem exec_csrr_unassigned (ha : 0x20 ≤ a.toNat) :
    exec (.csrr a) s = .next { s with result := 1, err := s.err ||| 0x0002 } := by
  rw [exec_csrr, execCsrr, csrOf_unassigned ha]
  rfl

theorem exec_csrr_of_ne_result (ha : csrOf a = some r) (hr : r ≠ .result) :
    exec (.csrr a) s = .next { s with rdata := s.readCsr r, result := 0 } := by
  rw [exec_csrr, execCsrr, ha]
  split
  · contradiction
  · exact absurd (Option.some.inj ‹_›) hr
  · obtain rfl := Option.some.inj ‹_›
    exact finish_ok

/-! ## `LDCAL` -/

variable {imm : Half}

theorem exec_ldcal : exec (.ldcal imm) s = execLdcal imm s := rfl

theorem exec_ldcal_unconfigured (profile : s.profileOk = false) :
    exec (.ldcal imm) s = .next { s with result := 2, err := s.err ||| 0x0004 } := by
  rw [exec_ldcal, execLdcal, profile]
  rfl

theorem exec_ldcal_outOfBand (profile : s.profileOk = true)
    (band : bandOk imm.toNat s.n s.channelSpacingHz.toNat = false) :
    exec (.ldcal imm) s = .next { s with result := 3, err := s.err ||| 0x0008 } := by
  rw [exec_ldcal, execLdcal, profile, band]
  rfl

theorem exec_ldcal_inBand (profile : s.profileOk = true)
    (band : bandOk imm.toNat s.n s.channelSpacingHz.toNat = true) :
    exec (.ldcal imm) s = .next
      { s with carrier := carriersFrom imm.toNat s.n s.channelSpacingHz.toNat, calValid := true, result := 0 } := by
  rw [exec_ldcal, execLdcal, profile, band]
  exact finish_ok

end

/-! ## The statements -/

/-- Settles O10: `NOP` is a command's successful end. -/
theorem nopWritesResultOnly : Obligations.NopWritesResultOnly := ⟨by decide, fun _ => finish_ok⟩

/-- Settles O11: the command and the input make one transition, `afterReset`. -/
theorem resetRestoresTheResetState : Obligations.ResetRestoresTheResetState :=
  ⟨by decide, fun _ => finish_ok_afterReset, fun _ _ hrun hhost => step_hostMove hrun hhost⟩

/-- Settles O13, by the register's number: each of the seven writable ones with its legal values, then the others. -/
theorem csrwWritesLegalValuesOnly : Obligations.CsrwWritesLegalValuesOnly := by
  refine ⟨decodeCommand_csrwWord, fun s v => ⟨?_, ?_, ?_, ?_, ?_, ?_, ?_, fun a => exec_csrw_readOnly⟩⟩
  · exact exec_csrw_writable rfl rfl legal_numChannels_iff
  · exact exec_csrw_writable (r := .channelSpacingHz) rfl rfl bne_zero_iff_one_le
  · exact exec_csrw_writable (r := .symbolDurationMs) rfl rfl bne_zero_iff_one_le
  · exact exec_csrw_writable rfl rfl legal_bitsPerSymbol_iff
  · exact exec_csrw_writable (r := .useBinaryPayload) rfl rfl beq_zero_or_beq_one_iff
  · exact exec_csrw_writable (r := .signalThreshold) rfl rfl decide_eq_true_iff
  · exact exec_csrw_writable (r := .adaptivePowerEn) rfl rfl beq_zero_or_beq_one_iff

/-- Settles O14, by the register's number: the sixteen named ones, the carriers, and those of no register. -/
theorem csrrLoadsTheNumberedRegister : Obligations.CsrrLoadsTheNumberedRegister := by
  refine ⟨decodeCommand_csrrWord, fun s => ?_⟩
  have reads {a : Byte} (r : Csr) (ha : csrOf a = some r) (hr : r ≠ .result) := exec_csrr_of_ne_result (s := s) ha hr
  exact ⟨reads .numChannels rfl nofun, reads .channelSpacingHz rfl nofun, reads .symbolDurationMs rfl nofun,
    reads .bitsPerSymbol rfl nofun, reads .useBinaryPayload rfl nofun, reads .signalThreshold rfl nofun,
    reads .adaptivePowerEn rfl nofun, reads .status rfl nofun, reads .err rfl nofun, rfl, reads .crc rfl nofun,
    reads .sum rfl nofun, reads .slotIdx rfl nofun, reads .numSlots rfl nofun, reads .rdata rfl nofun,
    reads .samplesPerSlot rfl nofun, fun c => reads (.carrier c) (csrOf_carrier c) nofun, fun _ => exec_csrr_unassigned⟩

/-- Settles O16, by the two preconditions: a configured profile, and every carrier in the band. -/
theorem ldcalLoadsTheCarriers : Obligations.LdcalLoadsTheCarriers := by
  refine ⟨decodeCommand_ldcalWord, fun s imm =>
    ⟨exec_ldcal_unconfigured, fun profile misfit => ?_, fun profile fits => ?_⟩⟩
  · exact exec_ldcal_outOfBand profile (Bool.eq_false_iff.2 (mt bandOk_iff.1 misfit))
  · have band := bandOk_iff.2 fits
    exact ⟨_, exec_ldcal_inBand profile band, fun _ => carriersFrom_hz band, fun _ => perChannel_unused _ _⟩

end Machine

end Sys2Proof

/-! # The codec (rules R130 to R142)

The decoder's loop is said once without its fuel (`decodeBody`), one lemma for each branch of rule R140. The encoder is
said as the bytes from a cursor on (`encodedFrom`), one equation for each pass of rule R139. The round trip is that the
decoder, with the bytes before the cursor written, reads the token of the cursor and has written the bytes before the next
one. -/

namespace Sys2Proof

/-! ## The word of `CRC.STEP` -/

theorem decodeCommand_crcStepWord (upper b : Byte) : decodeCommand (commandWord 0x11 0 (upper ++ b)) =
    reservedZero (upper == 0) (.crcStep b) := by
  have hupper : (commandWord 0x11 0 (upper ++ b)).extractLsb' 8 8 = upper :=
    (BitVec.extractLsb'_append_eq_of_add_le (by decide)).trans BitVec.extractLsb'_append_eq_left
  have hb : (commandWord 0x11 0 (upper ++ b)).extractLsb' 0 8 = b :=
    (BitVec.extractLsb'_append_eq_of_add_le (by decide)).trans BitVec.extractLsb'_append_eq_right
  rw [decodeCommand_crcStep (opField_commandWord ..), hupper, hb, aField_commandWord]
  rfl

/-- The four bytes of a word, as the statements write them, are its fields. -/
theorem bytes_eq_commandWord (op a upper b : Byte) :
    (op ++ a ++ upper ++ b : Word) = commandWord op a (upper ++ b) := BitVec.append_assoc

/-! ## Bytes of numbers and of items -/

theorem extractLsb'_ofNat {w start len : Nat} (n : Nat) (h : start + len ≤ w) :
    (BitVec.ofNat w n).extractLsb' start len = BitVec.ofNat len (n / 2 ^ start) := by
  apply BitVec.eq_of_getLsbD_eq
  intro j hj
  rw [BitVec.getLsbD_extractLsb', BitVec.getLsbD_ofNat, BitVec.getLsbD_ofNat, Nat.testBit_div_two_pow]
  simp [hj, show start + j < w by omega, Nat.add_comm]

/-- The four bytes of a word joined again are the word (rules R62, R86). -/
theorem join_be32 (n : Word) :
    n.extractLsb' 24 8 ++ n.extractLsb' 16 8 ++ n.extractLsb' 8 8 ++ n.extractLsb' 0 8 = n := by
  rw [bytes_eq_commandWord, BitVec.extractLsb'_append_extractLsb'_eq_extractLsb' (by rfl)]
  exact commandWord_fields n

/-! ## The tokens, by their first byte (rules R87 to R89) -/

section
variable {b hi lo l : Byte} {rest : List Byte}

theorem decodeToken_literal (plain : b ≠ Config.lzMarker) : decodeToken (b :: rest) = .ok (.literal b, rest) :=
  if_neg plain

theorem decodeToken_copy (hd : (hi ++ lo : Half) ≠ 0) :
    decodeToken (Config.lzMarker :: hi :: lo :: l :: rest) = .ok (.copy (hi ++ lo) l, rest) := if_neg hd

theorem decodeToken_badEscape (hl : l ≠ 1) :
    decodeToken (Config.lzMarker :: 0 :: 0 :: l :: rest) = .error .badEscape := if_neg hl

theorem decodeToken_truncated (h : rest.length < 3) :
    decodeToken (Config.lzMarker :: rest) = .error .truncatedToken := by
  match rest with
  | [] => rfl
  | [_] => rfl
  | [_, _] => rfl
  | _ :: _ :: _ :: rest => exact absurd h (by simp)

end

namespace Machine

/-! ## CRC-16 and checksum -/

theorem crcShifts_eq_iterate (n : Nat) (crc : Half) : crcShifts n crc = crcShift^[n] crc := by
  induction n generalizing crc with
  | zero => rfl
  | succ n ih => exact ih (crcShift crc)

section
variable {s : State}

theorem exec_crcInit : exec .crcInit s = .next { s with crc := Config.crcInit, result := 0 } := finish_ok

theorem exec_crcStep {b : Byte} : exec (.crcStep b) s = .next { s with crc := crcStep s.crc b, result := 0 } := finish_ok

theorem exec_crcBuf : exec .crcBuf s = .next { s with crc := crc16 s.ib, result := 0 } := finish_ok

theorem exec_sumBuf : exec .sumBuf s = .next { s with sum := checksum s.ib, result := 0 } := finish_ok

theorem runAll_cons_of_next {i : Instr} {is : List Instr} {t : State} (h : exec i s = .next t) :
    runAll (i :: is) s = runAll is t := by
  simp only [runAll, h]

/-- `CRC.STEP` of one byte after another folds `crc_step` over the bytes. -/
theorem runAll_crcSteps (bytes : List Byte) (crc : Half) :
    runAll (bytes.map .crcStep) { s with crc := crc, result := 0 } =
      .next { s with crc := bytes.foldl crcStep crc, result := 0 } := by
  induction bytes generalizing crc with
  | nil => rfl
  | cons b bytes ih => exact (runAll_cons_of_next exec_crcStep).trans (ih (crcStep crc b))

end

theorem checksum_toNat (bytes : List Byte) : (checksum bytes).toNat = (bytes.map BitVec.toNat).sum % 65536 := by
  rw [checksum, BitVec.toNat_ofNat, Nat.mod_mod]

/-- Settles O17: the eight shifts are iterations of the one that the statement writes out. -/
theorem crcStepIsEightShifts : Obligations.CrcStepIsEightShifts := by
  refine ⟨by decide, fun b => ?_, fun upper b hupper => ?_, fun s b => ⟨exec_crcInit, ?_⟩⟩
  · rw [bytes_eq_commandWord]
    exact decodeCommand_crcStepWord 0 b
  · rw [bytes_eq_commandWord]
    exact (decodeCommand_crcStepWord upper b).trans (if_neg (mt beq_iff_eq.1 hupper))
  · rw [exec_crcStep, crcStep, crcShifts_eq_iterate]
    rfl

/-- Settles O18: the steps fold `crc_step` over `IB` from the value that `CRC.INIT` sets. -/
theorem crcBufIsInitThenSteps : Obligations.CrcBufIsInitThenSteps := by
  refine ⟨by decide, fun s => ⟨crc16 s.ib, exec_crcBuf, ?_⟩⟩
  rw [runAll_cons_of_next exec_crcInit, runAll_crcSteps, exec_crcBuf, crc16]

/-- Settles O19: the command sets `SUM` to the checksum, and that is the sum the statement writes out. -/
theorem sumBufAddsTheBytes : Obligations.SumBufAddsTheBytes :=
  ⟨by decide, fun s => ⟨checksum s.ib, exec_sumBuf, checksum_toNat s.ib⟩⟩

/-! ## The matcher (rule R138) -/

section
variable {b : List Byte} {i d l : Nat}

theorem agreesFor_iff_le_matchLength (hd : d ≤ i) (hi : i ≤ b.length) : AgreesFor b i d l ↔ l ≤ matchLength b i d :=
  (le_matchLength hd hi).symm

/-- No distance of the window agrees for longer than the match found. -/
theorem matchLength_le_lzMatch (hd : 1 ≤ d) (window : d ≤ min 4096 i) : matchLength b i d ≤ (lzMatch b i).len :=
  (lzScan_spec b i (min 4096 i) 1 ⟨0, 0⟩).2.1 d hd (by omega)

/-- What the scan of the window answers: nothing, or the nearest distance of the longest agreement. -/
theorem lzMatch_cases (b : List Byte) (i : Nat) :
    lzMatch b i = ⟨0, 0⟩ ∨ 0 < (lzMatch b i).len ∧ 1 ≤ (lzMatch b i).dist ∧ (lzMatch b i).dist ≤ min 4096 i ∧
      (lzMatch b i).len = matchLength b i (lzMatch b i).dist ∧
      ∀ d, 1 ≤ d → d < (lzMatch b i).dist → matchLength b i d < (lzMatch b i).len := by
  obtain ⟨-, -, none | ⟨hd, window, hlen, pos, nearest⟩⟩ := lzScan_spec b i (min 4096 i) 1 ⟨0, 0⟩
  · exact .inl none
  · exact .inr ⟨pos, hd, by have := window; unfold lzMatch Config.lzWindow; omega, hlen, nearest⟩

theorem lzMatch_agrees (hi : i < b.length) (found : (lzMatch b i).len ≠ 0) : 1 ≤ (lzMatch b i).dist ∧
    (lzMatch b i).dist ≤ min 4096 i ∧ AgreesFor b i (lzMatch b i).dist (lzMatch b i).len := by
  obtain none | ⟨-, hd, window, hlen, -⟩ := lzMatch_cases b i
  · simp [none] at found
  · exact ⟨hd, window, (agreesFor_iff_le_matchLength (by omega) hi.le).2 hlen.le⟩

/-- Settles O20, by the two answers of the scan. -/
theorem lzMatchIsLongestThenNearest : Obligations.LzMatchIsLongestThenNearest := by
  refine fun b i hi => ⟨?_, lzMatch_agrees hi, fun d l hd window agrees => ?_, fun d hd near agrees => ?_⟩
  · obtain none | ⟨pos, -⟩ := lzMatch_cases b i
    · simp [none]
    · omega
  · exact ((agreesFor_iff_le_matchLength (by omega) hi.le).1 agrees).trans (matchLength_le_lzMatch hd window)
  · obtain none | ⟨-, -, window, -, nearest⟩ := lzMatch_cases b i
    · simp [none] at near
    · have := (agreesFor_iff_le_matchLength (by omega) hi.le).1 agrees
      exact absurd (nearest d hd near) (by omega)

end

/-! ## The encoder (rule R139) -/

/-- The bytes the encoder writes from the cursor `i` on. -/
def encodedFrom (b : List Byte) (i : Nat) : List Byte := (lzTokensFrom b b.length i).flatMap LzItem.bytes

theorem lzCompress_eq (b : List Byte) : lzCompress b = be32 (BitVec.ofNat 32 b.length) ++ encodedFrom b 0 := rfl

section
variable {b : List Byte} {i : Nat}

theorem encodedFrom_end (h : b.length ≤ i) : encodedFrom b i = [] := by
  rw [encodedFrom, lzTokensFrom_step, if_neg (by omega)]
  rfl

theorem encodedFrom_inside (h : i < b.length) :
    encodedFrom b i = (lzTokenAt b i).1.bytes ++ encodedFrom b (i + (lzTokenAt b i).2) := by
  rw [encodedFrom, lzTokensFrom_step, if_pos h]
  rfl

theorem lzTokenAt_match (found : 3 ≤ (lzMatch b i).len) : lzTokenAt b i =
    (.copy (BitVec.ofNat 16 (lzMatch b i).dist) (BitVec.ofNat 8 (lzMatch b i).len), (lzMatch b i).len) := if_pos found

theorem lzTokenAt_escape (h : i < b.length) (short : ¬3 ≤ (lzMatch b i).len) (marker : b[i] = Config.lzMarker) :
    lzTokenAt b i = (.escape, 1) :=
  (if_neg short).trans (if_pos ((List.getD_eq_getElem b 0 h).trans marker))

theorem lzTokenAt_literal (h : i < b.length) (short : ¬3 ≤ (lzMatch b i).len) (plain : b[i] ≠ Config.lzMarker) :
    lzTokenAt b i = (.literal b[i], 1) := by
  rw [← List.getD_eq_getElem b 0 h] at plain ⊢
  exact (if_neg short).trans (if_neg plain)

/-- The three branches of one pass of the encoder. -/
theorem encodedFrom_pass (h : i < b.length) : encodedFrom b i =
    if 3 ≤ (lzMatch b i).len then
      [0xFF, BitVec.ofNat 8 ((lzMatch b i).dist / 256), BitVec.ofNat 8 (lzMatch b i).dist,
        BitVec.ofNat 8 (lzMatch b i).len] ++ encodedFrom b (i + (lzMatch b i).len)
    else if b[i] = 0xFF then [0xFF, 0, 0, 1] ++ encodedFrom b (i + 1)
    else [b[i]] ++ encodedFrom b (i + 1) := by
  rw [encodedFrom_inside h]
  split
  case isTrue found => simp [lzTokenAt_match found, LzItem.bytes, Config.lzMarker, extractLsb'_ofNat]
  case isFalse short =>
    split
    case isTrue marker => rw [lzTokenAt_escape h short marker]; rfl
    case isFalse plain => rw [lzTokenAt_literal h short plain]; rfl

end

/-! ## `LZ.ENC` and `LZ.DEC` (rules R40, R139, R141) -/

section
variable {s : State}

theorem finishWithin_eq_next {c : Config.Capacity} {count : Nat} {t : State} (room : c.allows count = true) :
    finishWithin c count t s = .next { t with result := 0 } := (if_pos room).trans finish_ok

theorem finishWithin_eq_outOfRange {c : Config.Capacity} {count : Nat} {t : State} (full : c.allows count = false) :
    finishWithin c count t s = outOfRange s := finishWithin_full full

theorem exec_lzEnc : exec .lzEnc s = execLzEnc s := rfl

theorem exec_lzDec : exec .lzDec s = execLzDec s := rfl

theorem exec_lzEnc_tooLong (h : 2 ^ 32 ≤ s.ib.length) : exec .lzEnc s = outOfRange s :=
  if_neg (Nat.not_lt.2 h)

theorem exec_lzEnc_full (full : s.params.capacities.ob.allows (lzCompress s.ib).length = false) :
    exec .lzEnc s = outOfRange s := by
  rw [exec_lzEnc, execLzEnc]
  split
  · exact finishWithin_eq_outOfRange full
  · rfl

theorem exec_lzEnc_room (short : s.ib.length < 2 ^ 32)
    (room : s.params.capacities.ob.allows (lzCompress s.ib).length = true) :
    exec .lzEnc s = .next { s with ob := lzCompress s.ib, result := 0 } :=
  (if_pos short).trans (finishWithin_eq_next room)

/-- Settles O22: what stands after the length is `encodedFrom`. -/
theorem lzEncParsesGreedily : Obligations.LzEncParsesGreedily := by
  refine ⟨by decide, fun s => ⟨Or.rec exec_lzEnc_tooLong exec_lzEnc_full, fun short =>
    ⟨exec_lzEnc_room short, encodedFrom s.ib, ?_, fun _ => encodedFrom_end, fun _ => encodedFrom_pass⟩⟩⟩
  simp [lzCompress_eq, be32, extractLsb'_ofNat]

/-- Settles O23, by what `lz_decompress` answers and the room in `OB`. -/
theorem lzDecReplacesOrEmptiesOb : Obligations.LzDecReplacesOrEmptiesOb := by
  refine ⟨by decide, fun s => ⟨fun out success => ⟨fun room => ?_, fun full => ?_⟩, fun failure => ?_⟩⟩
  · simp only [exec_lzDec, execLzDec, success, finishWithin_eq_next room]
  · simp only [exec_lzDec, execLzDec, success, finishWithin_eq_outOfRange full]
  · simp only [exec_lzDec, execLzDec, failure]
    rfl

end

/-! ## The decoder's loop without its fuel (rule R140) -/

/-- The input a decoder has not read. -/
def LzRun.unread : LzRun → List Byte
  | .atHeader input => input
  | .inBody _ _ input => input

/-- The bytes a decoder at `r` ends with, or nothing where it fails. -/
def decodeFrom (r : LzRun) : Option (List Byte) :=
  match lzLoop (r.unread.length + 1) r with
  | .running _ => none
  | .done out => some out
  | .corrupt => none

/-- The bytes a decoder ends with after a pass that left it at this result. -/
def LzResult.output : LzResult → Option (List Byte)
  | .running r => decodeFrom r
  | .done out => some out
  | .corrupt => none

/-- The decoder past its header, with the bytes `out` written and `input` left. -/
def decodeBody (n : Word) (out input : List Byte) : Option (List Byte) := (lzSettle n out input).output

theorem lzDecompress_eq (z : List Byte) : lzDecompress z = decodeFrom (.atHeader z) := rfl

theorem unread_of_lzSettle {n : Word} {out input : List Byte} {r : LzRun} (h : lzSettle n out input = .running r) :
    r.unread = input := by
  unfold lzSettle at h
  split at h
  · cases h
  · split at h
    · cases h
    · cases h
      rfl

/-- An item's effect reads no input. -/
theorem unread_of_itemEffect {it : LzItem} {r r' : LzRun} (h : itemEffect it r = some (.running r')) :
    r'.unread = r.unread := by
  unfold itemEffect at h
  split at h <;> simp only [Option.some.injEq, reduceCtorEq] at h
  · exact unread_of_lzSettle h
  · exact unread_of_lzSettle h
  · unfold lzCopyEffect at h
    split at h
    · cases h
    · exact unread_of_lzSettle h
  · exact unread_of_lzSettle h

theorem decodeHeader_length {z rest : List Byte} {it : LzItem} (h : decodeHeader z = .ok (it, rest)) :
    rest.length < z.length := by
  unfold decodeHeader at h
  split at h
  · cases h
    simp only [List.length_cons]
    omega
  · cases h

/-- Every item read takes at least one byte of the input. -/
theorem unread_of_lzFetch {r r' : LzRun} {it : LzItem} (h : lzFetch r = .ok (it, r')) :
    r'.unread.length < r.unread.length := by
  unfold lzFetch at h
  split at h <;> split at h <;> cases h
  · exact decodeHeader_length ‹_›
  · exact decodeToken_length ‹_›

theorem unread_of_lzPass {r r' : LzRun} (h : lzPass r = .running r') : r'.unread.length < r.unread.length := by
  unfold lzPass at h
  split at h
  · cases h
  case h_2 it next hfetch =>
    cases heffect : itemEffect it next with
    | none => simp [heffect] at h
    | some result =>
      obtain rfl : result = .running r' := by simpa [heffect] using h
      rw [unread_of_itemEffect heffect]
      exact unread_of_lzFetch hfetch

/-- Any fuel beyond the bytes left gives the same result. -/
theorem lzLoop_fuel {f g : Nat} {r : LzRun} (hf : r.unread.length < f) (hg : r.unread.length < g) :
    lzLoop f r = lzLoop g r := by
  induction f generalizing g r with
  | zero => omega
  | succ f ih =>
    obtain ⟨g, rfl⟩ : ∃ k, g = k + 1 := ⟨g - 1, by omega⟩
    simp only [lzLoop]
    split
    · have := unread_of_lzPass ‹_›
      exact ih (by omega) (by omega)
    · rfl
    · rfl

/-- The decoder makes one pass and goes on from where that left it. -/
theorem decodeFrom_eq (r : LzRun) : decodeFrom r = (lzPass r).output := by
  unfold decodeFrom lzLoop
  cases hpass : lzPass r with
  | running r' =>
    have := unread_of_lzPass hpass
    simp only [LzResult.output, decodeFrom, lzLoop_fuel (Nat.lt_succ_self r'.unread.length) this]
  | done out => rfl
  | corrupt => rfl

/-! ## The branches of the loop (rule R140) -/

theorem lzDecompress_short {z : List Byte} (h : z.length < 4) : lzDecompress z = none := by
  match z with
  | [] => rfl
  | [_] => rfl
  | [_, _] => rfl
  | [_, _, _] => rfl
  | _ :: _ :: _ :: _ :: z => exact absurd h (by simp)

theorem lzDecompress_header (b0 b1 b2 b3 : Byte) (z : List Byte) :
    lzDecompress (b0 :: b1 :: b2 :: b3 :: z) = decodeBody (b0 ++ b1 ++ b2 ++ b3) [] z :=
  (lzDecompress_eq _).trans (decodeFrom_eq _)

section
variable {n : Word} {out out' z rest : List Byte}

theorem decodeBody_overrun (h : n.toNat < out.length) : decodeBody n out z = none := by
  rw [decodeBody, lzSettle, if_pos h]
  rfl

theorem decodeBody_full (h : out.length = n.toNat) : decodeBody n out z = some out := by
  rw [decodeBody, lzSettle, if_neg (by omega), if_pos h]
  rfl

variable (short : out.length < n.toNat)
include short

theorem decodeBody_short : decodeBody n out z = (lzPass (.inBody n out z)).output := by
  rw [decodeBody, lzSettle, if_neg (by omega), if_neg (by omega)]
  exact decodeFrom_eq _

theorem decodeBody_of_error {e : DecodeError} (h : decodeToken z = .error e) : decodeBody n out z = none := by
  rw [decodeBody_short short]
  simp only [lzPass, lzFetch, h]
  rfl

theorem decodeBody_of_token {it : LzItem} {result : LzResult} (h : decodeToken z = .ok (it, rest))
    (heffect : itemEffect it (.inBody n out rest) = some result) : decodeBody n out z = result.output := by
  rw [decodeBody_short short]
  simp only [lzPass, lzFetch, h, heffect, Option.getD_some]

theorem decodeBody_literal {b : Byte} (plain : b ≠ Config.lzMarker) :
    decodeBody n out (b :: z) = decodeBody n (out ++ [b]) z :=
  decodeBody_of_token short (decodeToken_literal plain) rfl

theorem decodeBody_escape :
    decodeBody n out (Config.lzMarker :: 0 :: 0 :: 1 :: z) = decodeBody n (out ++ [Config.lzMarker]) z :=
  decodeBody_of_token short (it := .escape) rfl rfl

variable {hi lo l : Byte} (hd : (hi ++ lo : Half) ≠ 0)
include hd

theorem decodeBody_beyond (far : out.length < (hi ++ lo : Half).toNat) :
    decodeBody n out (Config.lzMarker :: hi :: lo :: l :: z) = none :=
  decodeBody_of_token short (decodeToken_copy hd) (congrArg some (if_pos far))

theorem decodeBody_lzCopy (near : (hi ++ lo : Half).toNat ≤ out.length) :
    decodeBody n out (Config.lzMarker :: hi :: lo :: l :: z) =
      decodeBody n (lzCopy (hi ++ lo : Half).toNat l.toNat out) z :=
  decodeBody_of_token short (decodeToken_copy hd) (congrArg some (if_neg (Nat.not_lt.2 near)))

end

/-! ## The copy -/

theorem copiedFrom_lzCopy {out : List Byte} {d l : Nat} (hd : 1 ≤ d) (near : d ≤ out.length) :
    CopiedFrom out (lzCopy d l out) d l :=
  ⟨lzCopy_length d l out, (List.prefix_iff_eq_take.1 (prefix_lzCopy d l out)).symm, fun _ => lzCopy_getElem? hd near⟩

/-- A copy is determined: each of its bytes is one of the output, or one copied before it. -/
theorem CopiedFrom.unique {out x y : List Byte} {d l : Nat} (hd : 1 ≤ d) (near : d ≤ out.length)
    (hx : CopiedFrom out x d l) (hy : CopiedFrom out y d l) : x = y := by
  obtain ⟨xlen, xout, xcopy⟩ := hx
  obtain ⟨ylen, yout, ycopy⟩ := hy
  apply List.ext_getElem?
  intro k
  induction k using Nat.strong_induction_on with
  | _ k ih =>
    by_cases written : k < out.length
    · rw [← List.getElem?_take_of_lt written, xout, ← List.getElem?_take_of_lt (l := y) written, yout]
    by_cases copied : k < out.length + l
    · have xk := xcopy (k - out.length) (by omega)
      have yk := ycopy (k - out.length) (by omega)
      rw [Nat.add_sub_cancel' (by omega)] at xk yk
      rw [xk, yk]
      exact ih (k - d) (by omega)
    · rw [List.getElem?_eq_none (by omega), List.getElem?_eq_none (by omega)]

theorem decodeBody_copy {n : Word} {out out' z : List Byte} {hi lo l : Byte} (short : out.length < n.toNat)
    (hd : (hi ++ lo : Half) ≠ 0) (near : (hi ++ lo : Half).toNat ≤ out.length)
    (copied : CopiedFrom out out' (hi ++ lo : Half).toNat l.toNat) :
    decodeBody n out (Config.lzMarker :: hi :: lo :: l :: z) = decodeBody n out' z := by
  have pos : 1 ≤ (hi ++ lo : Half).toNat := Nat.one_le_iff_ne_zero.2 (BitVec.toNat_inj.ne.2 hd)
  rw [decodeBody_lzCopy short hd near, (copiedFrom_lzCopy pos near).unique pos near copied]

theorem decodeBody_copyBytes {n : Word} {out out' z : List Byte} {d : Half} {l : Byte} (short : out.length < n.toNat)
    (hd : d ≠ 0) (near : d.toNat ≤ out.length) (copied : CopiedFrom out out' d.toNat l.toNat) :
    decodeBody n out ((LzItem.copy d l).bytes ++ z) = decodeBody n out' z := by
  have join : d.extractLsb' 8 8 ++ d.extractLsb' 0 8 = d := BitVec.extractLsb'_append_extractLsb'
  exact decodeBody_copy short (by rwa [join]) (by rwa [join]) (by rwa [join])

/-- Settles O24: the loop is `decodeBody`, and each clause one of its branches. -/
theorem decoderFollowsTheLoop : Obligations.DecoderFollowsTheLoop := by
  refine ⟨fun _ => lzDecompress_short, fun n => decodeBody (BitVec.ofNat 32 n), fun b0 b1 b2 b3 z => ?_,
    fun n out z hn => ?_⟩
  · rw [lzDecompress_header]
    congr 1
    apply BitVec.eq_of_toNat_eq
    rw [toNat_join4, BitVec.toNat_ofNat, Nat.mod_eq_of_lt] <;> omega
  · have toNat_n : (BitVec.ofNat 32 n).toNat = n := Nat.mod_eq_of_lt hn
    refine ⟨fun full => decodeBody_full (by omega), fun lt => ?_⟩
    have short : out.length < (BitVec.ofNat 32 n).toNat := by omega
    refine ⟨decodeBody_of_error short rfl, fun b => decodeBody_literal short,
      fun few => decodeBody_of_error short (decodeToken_truncated few), decodeBody_escape short,
      fun l hl => decodeBody_of_error short (decodeToken_badEscape hl), fun hi lo l hd => ?_⟩
    rw [← toNat_join2] at hd ⊢
    have hd : (hi ++ lo : Half) ≠ 0 := BitVec.toNat_inj.ne.1 hd
    refine ⟨decodeBody_beyond short hd, fun near out' copied => ?_⟩
    refine (decodeBody_copy short hd near copied).trans ?_
    split
    · exact decodeBody_overrun (by omega)
    · rfl

/-! ## The round trip (rule R142) -/

/-- Data that agree with those before the cursor are a copy of them. -/
theorem AgreesFor.copiedFrom {b : List Byte} {i d l : Nat} (agrees : AgreesFor b i d l) (hd : 1 ≤ d) (hdi : d ≤ i) :
    CopiedFrom (b.take i) (b.take (i + l)) d l := by
  obtain ⟨-, inside, same⟩ := agrees
  have hi : (b.take i).length = i := List.length_take_of_le (by omega)
  refine ⟨?_, ?_, fun j hj => ?_⟩
  · rw [hi, List.length_take_of_le inside]
  · rw [hi, List.take_take, Nat.min_eq_left (by omega)]
  · rw [hi, List.getElem?_take_of_lt (by omega), List.getElem?_take_of_lt (by omega), ← same j hj]
    congr 1
    omega

section
variable {b : List Byte} {i : Nat} (h : i < b.length)
include h

theorem lzTokenAt_inside : i + (lzTokenAt b i).2 ≤ b.length := by
  by_cases found : 3 ≤ (lzMatch b i).len
  · obtain ⟨-, -, -, inside, -⟩ := lzMatch_agrees h (by omega)
    rw [lzTokenAt_match found]
    exact inside
  by_cases marker : b[i] = Config.lzMarker
  · rw [lzTokenAt_escape h found marker]
    exact h
  · rw [lzTokenAt_literal h found marker]
    exact h

/-- Where the bytes before the cursor are written, the token of the cursor writes those it stands for. -/
theorem decodeBody_lzTokenAt {n : Word} (hn : i < n.toNat) (rest : List Byte) :
    decodeBody n (b.take i) ((lzTokenAt b i).1.bytes ++ rest) = decodeBody n (b.take (i + (lzTokenAt b i).2)) rest := by
  have hlen : (b.take i).length = i := List.length_take_of_le h.le
  have short : (b.take i).length < n.toNat := by omega
  by_cases found : 3 ≤ (lzMatch b i).len
  · obtain ⟨hd, window, agrees⟩ := lzMatch_agrees h (by omega)
    have distance : (BitVec.ofNat 16 (lzMatch b i).dist).toNat = (lzMatch b i).dist := Nat.mod_eq_of_lt (by omega)
    have length : (BitVec.ofNat 8 (lzMatch b i).len).toNat = (lzMatch b i).len :=
      Nat.mod_eq_of_lt (by have := agrees.1; omega)
    rw [lzTokenAt_match found]
    refine decodeBody_copyBytes short (BitVec.toNat_inj.ne.1 ?_) ?_ ?_ <;> rw [distance]
    · exact Nat.one_le_iff_ne_zero.1 hd
    · omega
    · rw [length]
      exact agrees.copiedFrom hd (by omega)
  by_cases marker : b[i] = Config.lzMarker
  · rw [lzTokenAt_escape h found marker, List.take_succ_eq_append_getElem h, marker]
    exact decodeBody_escape short
  · rw [lzTokenAt_literal h found marker, List.take_succ_eq_append_getElem h]
    exact decodeBody_literal short marker

end

/-- The decoder, with the bytes before a cursor written, reads what the encoder wrote from there on. -/
theorem decodeBody_encodedFrom {b : List Byte} (hb : b.length < 2 ^ 32) {i : Nat} (hi : i ≤ b.length) :
    decodeBody (BitVec.ofNat 32 b.length) (b.take i) (encodedFrom b i) = some b := by
  have toNat_length : (BitVec.ofNat 32 b.length).toNat = b.length := Nat.mod_eq_of_lt hb
  obtain rfl | inside := hi.eq_or_lt
  · rw [List.take_length]
    exact decodeBody_full toNat_length.symm
  · have := lzTokenAt_pos b i
    rw [encodedFrom_inside inside, decodeBody_lzTokenAt inside (by omega)]
    exact decodeBody_encodedFrom hb (lzTokenAt_inside inside)
termination_by b.length - i

/-- Settles O25: the header is read back, and the rest is the decoder at cursor 0. -/
theorem decompressInvertsCompress : Obligations.DecompressInvertsCompress := by
  intro b hb
  refine (lzDecompress_header ..).trans ?_
  rw [join_be32]
  exact decodeBody_encodedFrom hb (Nat.zero_le _)

end Machine

end Sys2Proof

/-! # The modulator (rules R160 to R186)

Each command's branches are said once. The streams of `ILV` and the symbols of `SYMB` are said bit by bit, at every index,
so that rule R164 is one substitution; the samples of a chord are said in real numbers, tone by tone, for the slots and
the preamble alike. -/

namespace Sys2Proof.Machine

section
variable {s : State}

theorem finish_idle : finish .idle s = .next { s with result := 6 } := congrArg _ s.endWith_idle

/-! ## `ILV` (rules R160, R161) -/

theorem profileOk_pos (profile : s.profileOk = true) : 0 < s.n ∧ 0 < s.k := by
  simp only [State.profileOk, Bool.and_eq_true, bne_zero_iff_one_le] at profile
  obtain ⟨⟨⟨n, -⟩, -⟩, k⟩ := profile
  exact ⟨n, k⟩

/-- The streams `ILV` writes. -/
def State.interleaved (s : State) : Vector (List Bit) 16 :=
  perChannel s.n [] fun c => interleaveStream s.txBits s.n c.val

/-- The block after an `ILV` that succeeded. -/
def State.afterIlv (s : State) : State :=
  { s with
    stream := s.interleaved, ilvValid := true, symValid := false, slotIdx := 0, numSlots := 0, result := 0 }

theorem exec_ilv : exec .ilv s = execIlv s := rfl

theorem exec_ilv_unconfigured (profile : s.profileOk = false) :
    exec .ilv s = .next { s with result := 2, err := s.err ||| 0x0004 } := by
  rw [exec_ilv, execIlv, profile]
  rfl

theorem exec_ilv_tooLong (profile : s.profileOk = true) (long : 2 ^ 32 ≤ s.txBits.length) :
    exec .ilv s = outOfRange s := by
  rw [exec_ilv, execIlv, profile]
  exact if_pos long

theorem exec_ilv_full (profile : s.profileOk = true)
    (full : s.params.capacities.stream.allows (ceilDiv s.txBits.length s.n) = false) :
    exec .ilv s = outOfRange s := by
  rw [exec_ilv, execIlv, profile, finishWithin_eq_outOfRange full]
  exact ite_self _

theorem exec_ilv_room (profile : s.profileOk = true) (short : s.txBits.length < 2 ^ 32)
    (room : s.params.capacities.stream.allows (ceilDiv s.txBits.length s.n) = true) :
    exec .ilv s = .next s.afterIlv := by
  rw [exec_ilv, execIlv, profile, finishWithin_eq_next room]
  exact if_neg (Nat.not_le.2 short)

theorem interleaved_active {c : Fin 16} (hc : c.val < s.n) :
    s.interleaved.get c = interleaveStream s.txBits s.n c.val := perChannel_active _ _ hc

theorem interleaved_unused {c : Fin 16} (hc : s.n ≤ c.val) : s.interleaved.get c = [] := perChannel_unused _ _ hc

/-- An index past the end of a stream is one past the end of the input, so the padding needs no case of its own. -/
theorem interleaveStream_getD (bits : List Bit) {n : Nat} (hn : 0 < n) (c j : Nat) :
    (interleaveStream bits n c).getD j false = bits.getD (c + j * n) false := by
  by_cases inside : j < ceilDiv bits.length n
  · simp [interleaveStream, inside]
  · have covered : bits.length ≤ j * n := (ceilDiv_le_iff hn).1 (Nat.not_lt.1 inside)
    rw [List.getD_eq_default _ _ (by simpa using inside), List.getD_eq_default _ _ (by omega)]

/-- Settles O31, by the two reasons for `RangeError` and the room in the streams. -/
theorem ilvDistributesRoundRobin : Obligations.IlvDistributesRoundRobin := by
  refine ⟨by decide, fun _ => exec_ilv_unconfigured, fun s profile =>
    ⟨Or.rec (exec_ilv_tooLong profile) (exec_ilv_full profile), fun short room =>
      ⟨s.interleaved, exec_ilv_room profile short room, fun _ => interleaved_unused, fun c hc => ?_⟩⟩⟩
  rw [interleaved_active hc]
  exact ⟨interleaveStream_length .., fun j _ => interleaveStream_getD _ (profileOk_pos profile).1 _ j⟩

/-! ## `SYMB` (rules R162, R163) -/

/-- The symbols `SYMB` writes. -/
def State.symbolized (s : State) : Vector (List Nat) 16 := perChannel s.n [] fun c => symbolize (s.stream.get c) s.k

/-- The block after a `SYMB` that succeeded. -/
def State.afterSymb (s : State) : State :=
  { s with
    syms := s.symbolized, numSlots := BitVec.ofNat 32 (ceilDiv (s.stream.get 0).length s.k), slotIdx := 0
    symValid := true, result := 0 }

theorem exec_symb_withoutStreams (invalid : s.ilvValid = false) :
    exec .symb s = .next { s with result := 2, err := s.err ||| 0x0004 } :=
  if_pos (by simp [invalid])

theorem exec_symb_full (valid : s.ilvValid = true) {c : Fin 16} (hc : c.val < s.n)
    (full : s.params.capacities.syms.allows (ceilDiv (s.stream.get c).length s.k) = false) :
    exec .symb s = outOfRange s := by
  have longest : s.params.capacities.syms.allows s.longestSyms = false :=
    Bool.eq_false_iff.2 fun room => Bool.eq_false_iff.1 full (allows_longestSyms.1 room c hc)
  exact (if_neg (by simp [valid])).trans (finishWithin_eq_outOfRange longest)

theorem exec_symb_room (valid : s.ilvValid = true) (room : ∀ c : Fin 16, c.val < s.n →
      s.params.capacities.syms.allows (ceilDiv (s.stream.get c).length s.k) = true) :
    exec .symb s = .next s.afterSymb :=
  (if_neg (by simp [valid])).trans (finishWithin_eq_next (allows_longestSyms.2 room))

theorem symbolized_active {c : Fin 16} (hc : c.val < s.n) : s.symbolized.get c = symbolize (s.stream.get c) s.k :=
  perChannel_active _ _ hc

theorem symbolized_unused {c : Fin 16} (hc : s.n ≤ c.val) : s.symbolized.get c = [] := perChannel_unused _ _ hc

theorem symbolize_getElem {stream : List Bit} {k i : Nat} (hi : i < (symbolize stream k).length) :
    (symbolize stream k)[i] = fieldMsb k fun j => stream.getD (i * k + j) false := by
  simp [symbolize]

/-- Settles O32, by the room for the longest list of symbols; a symbol is a field of stream bits. -/
theorem symbFormsSymbolsMsbFirst : Obligations.SymbFormsSymbolsMsbFirst := by
  refine ⟨by decide, fun _ => exec_symb_withoutStreams, fun s valid ⟨c, hc, full⟩ => exec_symb_full valid hc full,
    fun s valid room => ⟨s.symbolized, exec_symb_room valid room, fun _ => symbolized_unused, fun c hc => ?_⟩⟩
  rw [symbolized_active hc]
  exact ⟨symbolize_length .., fun i hi => symbolize_getElem hi ▸ fieldMsb_spec ..⟩

/-! ## `ILV` and `SYMB` together (rule R164) -/

theorem ceilDiv_ceilDiv (a : Nat) {n k : Nat} (hn : 0 < n) (hk : 0 < k) :
    ceilDiv (ceilDiv a n) k = ceilDiv a (k * n) :=
  eq_of_forall_ge_iff fun c => by
    rw [ceilDiv_le_iff hk, ceilDiv_le_iff hn, ceilDiv_le_iff (Nat.mul_pos hk hn), Nat.mul_assoc]

theorem runAll_ilv_symb (profile : s.profileOk = true) (short : s.txBits.length < 2 ^ 32) (room : RoomForSymbols s) :
    runAll [.ilv, .symb] s = .next s.afterIlv.afterSymb := by
  obtain ⟨streams, syms⟩ := room
  have fits : ∀ c : Fin 16, c.val < s.afterIlv.n → s.afterIlv.params.capacities.syms.allows
      (ceilDiv (s.afterIlv.stream.get c).length s.afterIlv.k) = true := fun c hc => by
    rw [show s.afterIlv.stream.get c = _ from interleaved_active hc, interleaveStream_length]
    exact syms
  rw [runAll_cons_of_next (exec_ilv_room profile short streams), runAll_cons_of_next (exec_symb_room rfl fits)]
  rfl

/-- The symbols that `ILV` and `SYMB` make of the input. -/
theorem syms_afterIlv_afterSymb {c : Fin 16} (hc : c.val < s.n) :
    s.afterIlv.afterSymb.syms.get c = symbolize (interleaveStream s.txBits s.n c.val) s.k := by
  rw [← interleaved_active hc]
  exact symbolized_active (s := s.afterIlv) hc

theorem numSlots_afterIlv_afterSymb (hn : 0 < s.n) (short : s.txBits.length < 2 ^ 32) :
    s.afterIlv.afterSymb.numSlots.toNat = ceilDiv (ceilDiv s.txBits.length s.n) s.k := by
  have first : (s.afterIlv.stream.get 0).length = ceilDiv s.txBits.length s.n :=
    (congrArg List.length (interleaved_active hn)).trans (interleaveStream_length ..)
  have small : ceilDiv (ceilDiv s.txBits.length s.n) s.k < 2 ^ 32 :=
    ((ceilDiv_le_self _ _).trans (ceilDiv_le_self _ _)).trans_lt short
  rw [State.afterSymb, first, BitVec.toNat_ofNat]
  exact Nat.mod_eq_of_lt small

/-- Settles O33: a symbol's bit is a stream's, and that is the input's; two roundings up are one by `K·N`. -/
theorem symbolBitsCarryTheInputBits : Obligations.SymbolBitsCarryTheInputBits := by
  intro s profile short room
  obtain ⟨hn, hk⟩ := profileOk_pos profile
  have slots := numSlots_afterIlv_afterSymb hn short
  have blocks := slots.trans (ceilDiv_ceilDiv _ hn hk)
  have positive : 0 < s.k * s.n := Nat.mul_pos hk hn
  refine ⟨_, runAll_ilv_symb profile short room, slots, ?_, ?_, fun c hc => ?_⟩
  · rw [blocks, Nat.mul_assoc]
    exact (ceilDiv_le_iff positive).1 le_rfl
  · rw [blocks, Nat.mul_assoc, Nat.mul_comm s.n, ← Nat.add_sub_assoc positive]
    exact Nat.div_mul_le_self ..
  · rw [syms_afterIlv_afterSymb hc]
    refine ⟨by simp [slots], fun i hi j hj => ?_⟩
    rw [symbolize_getElem, (fieldMsb_spec ..).2 j hj, interleaveStream_getD _ hn, Nat.add_comm]

/-! ## The samples of a chord in real numbers (rules R166 to R168) -/

/-- Whole arcs as the angle of rule R166: `2·F·n` of them are `2π·F·n/44100`. -/
theorem arcCos_eq_toneReal (hz : Int) (phase n : Nat) :
    arcCos (2 * hz * n + phase) = toneReal hz ((phase : Rat) / 88200) n := by
  rw [arcCos, toneReal]
  congr 1
  push_cast
  ring

theorem toReal_term (a : Rat) (n : Nat) (t : ToneSpec) :
    (t.term a n).toReal = (a : ℝ) * toneReal t.hz ((t.phase : Rat) / 88200) n := by
  rw [Tone.toReal_eq, ToneSpec.term, arcCos_arcOf, arcCos_eq_toneReal, opensReal_nil, mul_one]

theorem toReal_chordSample (a : Rat) (tones : List ToneSpec) (n : Nat) : Sample.toReal (chordSample a tones n) =
    (tones.map fun t => (a : ℝ) * toneReal t.hz ((t.phase : Rat) / 88200) n).sum := by
  simp only [Sample.toReal, chordSample, List.map_map, Function.comp_def, toReal_term]

theorem chord_getElem {a : Rat} {tones : List ToneSpec} {count n : Nat} (h : n < (chord a tones count).length) :
    (chord a tones count)[n] = chordSample a tones n := by simp [chord]

/-- The phase of a symbol is a whole number of arcs, since 88200 is a multiple of 8. -/
theorem toneOf_phase_turns {k : Nat} (hk : k ∈ [2, 3]) (f m : Nat) :
    ((toneOf k f m).phase : Rat) / 88200 = (m : Rat) / 2 ^ k := by
  have whole : 2 ^ k ∣ m * turnArcs := ((by decide : ∀ k ∈ [2, 3], 2 ^ k ∣ turnArcs) k hk).mul_left m
  rw [toneOf, if_neg (by rintro rfl; simp at hk), Nat.cast_div whole (by positivity), Nat.cast_mul, turnArcs]
  push_cast
  ring

theorem toneOf_toneReal {k : Nat} (hk : k ∈ [1, 2, 3]) (f m n : Nat) :
    toneReal (toneOf k f m).hz (((toneOf k f m).phase : Rat) / 88200) n =
      if k = 1 then toneReal (if m = 1 then (f : Int) + 100 else (f : Int) - 100) 0 n
      else toneReal f ((m : Rat) / 2 ^ k) n := by
  split
  · subst k
    simp [toneOf, Config.fskDev]
  · rw [toneOf_phase_turns ((List.mem_cons.1 hk).resolve_left ‹_›), toneOf, if_neg ‹_›]

/-! ## `MOD.SLOT` (rules R165 to R169) -/

theorem exec_modSlot : exec .modSlot s = execModSlot s := rfl

theorem exec_modSlot_unready (unready : s.symValid = false ∨ s.calValid = false) :
    exec .modSlot s = .next { s with result := 2, err := s.err ||| 0x0004 } := by
  rw [exec_modSlot, execModSlot, Bool.and_eq_false_iff.2 unready]
  rfl

theorem missingSymbol_eq_none (present : ∀ c : Fin 16, c.val < s.n → s.slotIdx.toNat < (s.syms.get c).length) :
    s.missingSymbol = none := by
  refine List.find?_eq_none.2 fun c hc => ?_
  simp [State.slotSymbol, present c (mem_activeChannels.1 hc)]

theorem exec_modSlot_noSlotLeft (sym : s.symValid = true) (cal : s.calValid = true)
    (noneLeft : s.numSlots.toNat ≤ s.slotIdx.toNat) : exec .modSlot s = .next { s with result := 6 } := by
  rw [exec_modSlot, execModSlot, if_neg (by simp [sym, cal]), if_pos noneLeft, finish_idle]

theorem exec_modSlot_slotLeft (sym : s.symValid = true) (cal : s.calValid = true)
    (left : s.slotIdx.toNat < s.numSlots.toNat)
    (present : ∀ c : Fin 16, c.val < s.n → s.slotIdx.toNat < (s.syms.get c).length) :
    exec .modSlot s = finishWithin s.params.capacities.samples (s.samples.length + s.ns)
      { s with samples := s.samples ++ s.slotSamples, slotIdx := s.slotIdx + 1 } s := by
  rw [exec_modSlot, execModSlot, if_neg (by simp [sym, cal]), if_neg (Nat.not_le.2 left), missingSymbol_eq_none present]

theorem toReal_slotSample (hk : s.k ∈ [1, 2, 3]) (n : Nat) :
    Sample.toReal (chordSample s.amplitude s.slotTones n) = idealSlotSample s n := by
  rw [toReal_chordSample, State.slotTones, List.map_map]
  exact congrArg List.sum (List.map_congr_left fun c _ => congrArg _ (toneOf_toneReal hk ..))

/-- Settles O34, by the flags, the slots left and the room in `SAMPLES`; the ideal slot is the chord of its tones. -/
theorem modSlotAppendsTheIdealSlot : Obligations.ModSlotAppendsTheIdealSlot := by
  refine ⟨by decide, fun _ => exec_modSlot_unready, fun s sym cal =>
    ⟨exec_modSlot_noSlotLeft sym cal, fun left hk present => ?_⟩⟩
  rw [exec_modSlot_slotLeft sym cal left present]
  refine ⟨finishWithin_eq_outOfRange, fun room =>
    ⟨chord s.amplitude s.slotTones s.ns, finishWithin_eq_next room, chord_length .., fun n h => ?_⟩⟩
  rw [chord_getElem, toReal_slotSample hk]

/-! ## The power of a slot (rules R167, R181) -/

theorem effPower_of_adaptive (on : s.adaptivePowerEn = 1) : s.effPower = s.power := if_pos on

theorem effPower_of_fixed (off : s.adaptivePowerEn ≠ 1) : s.effPower = 1 / 10 := (if_neg off).trans fixedPower_eq

theorem Inv.effPower_mem (h : Inv s) : s.params.minPower ≤ s.effPower ∧ s.effPower ≤ s.params.maxPower := by
  obtain ⟨-, minLe, leMax, -⟩ := h.parameters
  unfold State.effPower
  split
  · exact h.power
  · exact ⟨minLe, leMax⟩

theorem Inv.n_le (h : Inv s) : s.n ≤ 16 := by
  have legal := h.registers.numChannels
  simp only [List.mem_cons, List.not_mem_nil, or_false] at legal
  rw [State.n]
  omega

/-- The tones of a slot add up to `eff_power` at most; to 0 where no channel is configured. -/
theorem Inv.slotTones_amplitude_le (h : Inv s) : (s.slotTones.length : Rat) * s.amplitude ≤ s.effPower := by
  obtain ⟨minPos, -⟩ := h.parameters
  rw [State.slotTones, List.length_map, activeChannels_length h.n_le, State.amplitude, mul_div_left_comm]
  exact mul_le_of_le_one_right (minPos.le.trans h.effPower_mem.1) (div_self_le_one _)

theorem abs_toReal_chordSample_le {a : Rat} (ha : 0 ≤ a) (tones : List ToneSpec) (n : Nat) :
    |Sample.toReal (chordSample a tones n)| ≤ (((tones.length : Rat) * a : Rat) : ℝ) := by
  rw [toReal_chordSample]
  induction tones with
  | nil => simp
  | cons t tones ih =>
    have tone : |(a : ℝ) * toneReal t.hz ((t.phase : Rat) / 88200) n| ≤ a := by
      rw [abs_mul, abs_of_nonneg (Rat.cast_nonneg.2 ha)]
      exact mul_le_of_le_one_right (Rat.cast_nonneg.2 ha) (Real.abs_cos_le_one _)
    calc _ ≤ |(a : ℝ) * toneReal t.hz ((t.phase : Rat) / 88200) n| + _ := abs_add_le _ _
      _ ≤ (a : ℝ) + _ := add_le_add tone ih
      _ = _ := by push_cast [List.length_cons]; ring

/-- Settles O35: a sample adds up the cosines of its tones, each at most 1 in magnitude. -/
theorem slotSamplesStayWithinPower : Obligations.SlotSamplesStayWithinPower := by
  intro s h
  obtain ⟨least, most⟩ := h.effPower_mem
  obtain ⟨minPos, -⟩ := h.parameters
  have amplitude : 0 ≤ s.amplitude := div_nonneg (minPos.le.trans least) (Nat.cast_nonneg _)
  refine ⟨least, most, fun y hy tone htone => ?_, fun y hy => ?_⟩ <;> obtain ⟨n, -, rfl⟩ := List.mem_map.1 hy
  · obtain ⟨t, -, rfl⟩ := List.mem_map.1 htone
    rfl
  · exact (abs_toReal_chordSample_le amplitude ..).trans (Rat.cast_le.2 h.slotTones_amplitude_le)

/-! ## `MOD.PRE` (rules R174, R175) -/

theorem exec_modPre_uncalibrated (uncal : s.calValid = false) :
    exec .modPre s = .next { s with result := 2, err := s.err ||| 0x0004 } := if_pos (by simp [uncal])

theorem exec_modPre_calibrated (cal : s.calValid = true) :
    exec .modPre s = finishWithin s.params.capacities.samples (s.samples.length + preambleLength)
      { s with samples := s.samples ++ s.preamble.map (quantise s.params.quantiser) } s :=
  if_neg (by simp [cal])

theorem toReal_carrierChordSample (n : Nat) :
    Sample.toReal (chordSample s.amplitude s.carrierTones n) = idealChordSample s n := by
  rw [toReal_chordSample, State.carrierTones, List.map_map]
  simp only [Function.comp_def, Nat.cast_zero, zero_div]
  rfl

section
variable {a : Rat} {tones : List ToneSpec} {sounding silent : Nat}

/-- Samples that sound a chord at the beginning of every period and are silent for the rest of it. -/
def Chimes (a : Rat) (tones : List ToneSpec) (sounding silent : Nat) (l : List Sample) : Prop :=
  ∀ (n : Nat) (h : n < l.length), Sample.toReal l[n] =
    if n % (sounding + silent) < sounding then Sample.toReal (chordSample a tones (n % (sounding + silent))) else 0

theorem chimes_chord : Chimes a tones sounding silent (chord a tones sounding) := fun n h => by
  have inside : n < sounding := by simpa using h
  rw [chord_getElem, Nat.mod_eq_of_lt (by omega), if_pos inside]

/-- A chord and a silence in front shift what follows by one period. -/
theorem Chimes.chord_silence {rest : List Sample} (h : Chimes a tones sounding silent rest) :
    Chimes a tones sounding silent (chord a tones sounding ++ (List.replicate silent [] ++ rest)) := by
  intro n hn
  have length := chord_length a tones sounding
  by_cases inSound : n < sounding
  · rw [List.getElem_append_left (by omega), chord_getElem, Nat.mod_eq_of_lt (by omega), if_pos inSound]
  rw [List.getElem_append_right (by omega)]
  by_cases inSilence : n < sounding + silent
  · rw [List.getElem_append_left (by rw [List.length_replicate]; omega), List.getElem_replicate,
      Nat.mod_eq_of_lt inSilence, if_neg inSound, Sample.toReal_nil]
  · rw [List.getElem_append_right (by rw [List.length_replicate]; omega), h]
    simp only [List.length_replicate, length, Nat.sub_sub]
    rw [← Nat.mod_eq_sub_mod (by omega)]

end

theorem chimes_preamble :
    Chimes s.amplitude s.carrierTones (samplesOfMs Config.chordMs) (samplesOfMs Config.gapMs) s.preamble := by
  rw [State.preamble]
  simp only [List.append_assoc]
  exact chimes_chord.chord_silence.chord_silence

/-- Settles O36, by the flag and the room in `SAMPLES`; the preamble is two periods and a last chord. -/
theorem modPreAppendsThePreamble : Obligations.ModPreAppendsThePreamble := by
  refine ⟨by decide, fun _ => exec_modPre_uncalibrated, fun s cal full => ?_, fun s cal room => ?_⟩
  · exact (exec_modPre_calibrated cal).trans (finishWithin_eq_outOfRange full)
  · refine ⟨s.preamble, (exec_modPre_calibrated cal).trans (finishWithin_eq_next room), State.preamble_length s,
      fun n h => ?_⟩
    rw [← toReal_carrierChordSample]
    exact chimes_preamble n h

/-! ## `PWR.UPD` (rules R182, R186) -/

theorem stepUp_eq : Config.stepUp = 11 / 10 := by
  rw [show Config.stepUp = mkRat 11 10 from rfl, Rat.mkRat_eq_div]
  norm_num

theorem stepDown_eq : Config.stepDown = 9 / 10 := by
  rw [show Config.stepDown = mkRat 9 10 from rfl, Rat.mkRat_eq_div]
  norm_num

/-- The dead band around the target of 15 decibels. -/
theorem deadBand_iff (snr : Rat) :
    Config.targetSnr - snr < Config.snrDeadBand ∧ snr - Config.targetSnr < Config.snrDeadBand ↔ 13 < snr ∧ snr < 17 := by
  refine and_congr ?_ ?_
  · rw [sub_lt_comm, Config.targetSnr, Config.snrDeadBand]
    norm_num
  · rw [sub_lt_iff_lt_add, Config.targetSnr, Config.snrDeadBand]
    norm_num

theorem pwrNext_eq (lo hi p snr : Rat) : pwrNext lo hi p snr =
    if 13 < snr ∧ snr < 17 then p
    else if snr < 15 then min hi (max lo (p * (11 / 10)))
    else min hi (max lo (p * (9 / 10))) := by
  simp only [pwrNext, deadBand_iff, clampPower, stepUp_eq, stepDown_eq]
  rfl

theorem exec_pwrUpd_off (off : s.adaptivePowerEn = 0) : exec .pwrUpd s = .next { s with result := 6 } :=
  (if_pos off).trans finish_idle

theorem exec_pwrUpd_on (on : s.adaptivePowerEn ≠ 0) : exec .pwrUpd s =
    .next { s with power := pwrNext s.params.minPower s.params.maxPower s.power s.snrIn, result := 0 } :=
  (if_neg on).trans finish_ok

/-- Settles O38, by the enable. -/
theorem pwrUpdStepsAndClamps : Obligations.PwrUpdStepsAndClamps := by
  refine ⟨by decide, fun s => ⟨fun off => ⟨exec_pwrUpd_off off, effPower_of_fixed (by simp [off])⟩, fun on => ?_,
    effPower_of_adaptive⟩⟩
  rw [exec_pwrUpd_on on, pwrNext_eq]

end

end Sys2Proof.Machine

/-! # The demodulator (rules R201 to R215)

The two commands differ in their preconditions and their decisions. What they do with the decisions is said once, of
`takeDecisions`; each command is then its decision of one channel. -/

namespace Sys2Proof.Machine

section
variable {s : State} {dec : Vector Decision 16}

/-! ## Bins (rule R201) -/

theorem binOf_bounds (f : Int) : 88200 * binOf f ≤ 16384 * f + 44100 ∧ 16384 * f + 44100 < 88200 * binOf f + 88200 := by
  rw [binOf]
  omega

theorem binOf_mem {f : Int} (low : 1900 ≤ f) (high : f ≤ 10100) : 0 ≤ binOf f ∧ binOf f < 4096 := by
  have := binOf_bounds f
  omega

/-- Settles O39, by the remainder of the division that finds the bin. -/
theorem binOfIsTheNearestBin : Obligations.BinOfIsTheNearestBin := fun f => by
  obtain ⟨lower, upper⟩ := binOf_bounds f
  exact ⟨by omega, by omega, binOf_mem⟩

/-! ## The end of both commands (rules R40, R204, R205, R215) -/

theorem finish_configError : finish .configError s = .next { s with result := 2, err := s.err ||| 0x0004 } := rfl

/-- The bits of the deciding channels, plane by plane. -/
def slotBits (dec : Vector Decision 16) (n k : Nat) : List Bit :=
  (List.range k).flatMap fun j => (activeChannels n).filterMap fun c => planeBit k j (dec.get c)

theorem all_silent_iff {n : Nat} : ((activeChannels n).all fun c => (dec.get c).isNone) = true ↔
    ∀ c : Fin 16, c.val < n → dec.get c = none := by
  simp [mem_activeChannels]

theorem deinterleaveSlot_silent {n : Nat} (k : Nat) (silent : ∀ c : Fin 16, c.val < n → dec.get c = none) :
    deinterleaveSlot dec n k = none := if_pos (all_silent_iff.2 silent)

theorem deinterleaveSlot_heard {n : Nat} (k : Nat) (heard : ¬∀ c : Fin 16, c.val < n → dec.get c = none) :
    deinterleaveSlot dec n k = some (slotBits dec n k) := if_neg (mt all_silent_iff.1 heard)

theorem takeDecisions_silent (silent : ∀ c : Fin 16, c.val < s.n → dec.get c = none) :
    takeDecisions dec s = .next { s with dec := dec, slotYielded := false, result := 6 } := by
  rw [takeDecisions, deinterleaveSlot_silent _ silent]
  exact finish_idle

theorem takeDecisions_heard (heard : ¬∀ c : Fin 16, c.val < s.n → dec.get c = none) : takeDecisions dec s =
    finishWithin s.params.capacities.rxBits (s.rxBits.length + (slotBits dec s.n s.k).length)
      { s with dec := dec, rxBits := s.rxBits ++ slotBits dec s.n s.k, slotYielded := true } s := by
  rw [takeDecisions, deinterleaveSlot_heard _ heard]

/-- A slot that yields bits ends by the room for them in `RXBITS`. -/
theorem takeDecisions_yields (heard : ¬∀ c : Fin 16, c.val < s.n → dec.get c = none) {bits : List Bit}
    (yields : slotBits dec s.n s.k = bits) :
    (s.params.capacities.rxBits.allows (s.rxBits.length + bits.length) = true → takeDecisions dec s =
      .next { s with dec := dec, slotYielded := true, result := 0, rxBits := s.rxBits ++ bits }) ∧
    (s.params.capacities.rxBits.allows (s.rxBits.length + bits.length) = false →
      takeDecisions dec s = outOfRange s) := by
  subst yields
  rw [takeDecisions_heard heard]
  exact ⟨finishWithin_eq_next, finishWithin_eq_outOfRange⟩

/-! ## `DEM.TICK` (rules R202, R203, R205) -/

/-- The magnitude of the bin of a frequency that has one. -/
def State.binMagnitude (s : State) (f : Int) : Nat := (Memory.read s.spec (binOf f).toNat).toNat

theorem magnitudeAt_usable {f : Int} (low : 1900 ≤ f) (high : f ≤ 10100) :
    Memory.magnitudeAt s.spec f = some (s.binMagnitude f) := if_pos (binOf_mem low high)

/-- The decisions `DEM.TICK` writes. -/
def State.fskDecisions (s : State) : Vector Decision 16 := perChannel s.n none fun c => (s.fskDecision c).getD none

theorem exec_demTick : exec .demTick s = execDemTick s := rfl

theorem exec_demTick_unready (unready : s.profileOk = false ∨ s.calValid = false ∨ s.k ≠ 1) :
    exec .demTick s = .next { s with result := 2, err := s.err ||| 0x0004 } := by
  rw [exec_demTick, execDemTick, finish_configError]
  rcases unready with profile | cal | k
  · simp [profile]
  · simp [cal]
  · simp [k]

/-- The decisions of `DEM.TICK` are bits, so their one plane is the decisions. -/
theorem planeBit_fskCompare (m0 m1 threshold : Nat) :
    planeBit 1 0 (fskCompare m0 m1 threshold) = (fskCompare m0 m1 threshold).map (· == 1) := by
  rw [fskCompare]
  split
  · rfl
  · split <;> rfl

section
variable (inBand : ∀ c : Fin 16, c.val < s.n → 2000 ≤ s.carrierHz c ∧ s.carrierHz c ≤ 10000)
include inBand

theorem fskDecision_inBand {c : Fin 16} (hc : c.val < s.n) : s.fskDecision c = some
    (fskCompare (s.binMagnitude (s.carrierHz c - 100)) (s.binMagnitude (s.carrierHz c + 100))
      s.signalThreshold.toNat) := by
  obtain ⟨low, high⟩ := inBand c hc
  rw [State.fskDecision, fskDecide, Config.fskDev, magnitudeAt_usable (by omega) (by omega),
    magnitudeAt_usable (by omega) (by omega)]
  rfl

theorem fskDecisions_active {c : Fin 16} (hc : c.val < s.n) : s.fskDecisions.get c =
    fskCompare (s.binMagnitude (s.carrierHz c - 100)) (s.binMagnitude (s.carrierHz c + 100))
      s.signalThreshold.toNat := by
  rw [State.fskDecisions, perChannel_active _ _ hc, fskDecision_inBand inBand hc, Option.getD_some]

theorem missingBin_eq_none : s.missingBin = none :=
  List.find?_eq_none.2 fun c hc => by simp [fskDecision_inBand inBand (mem_activeChannels.1 hc)]

theorem exec_demTick_ready (profile : s.profileOk = true) (cal : s.calValid = true) (k : s.k = 1) :
    exec .demTick s = takeDecisions s.fskDecisions s := by
  rw [exec_demTick, execDemTick, if_neg (by simp [profile, cal]), if_neg (by simp [k]), missingBin_eq_none inBand]
  rfl

theorem slotBits_fskDecisions :
    slotBits s.fskDecisions s.n 1 = (activeChannels s.n).filterMap fun c => (s.fskDecisions.get c).map (· == 1) := by
  refine (List.append_nil _).trans (List.filterMap_congr fun c hc => ?_)
  rw [fskDecisions_active inBand (mem_activeChannels.1 hc), planeBit_fskCompare]

end

/-- Settles O40: with every carrier in the band no bin is missing, and the one bit plane is the decisions. -/
theorem demTickDecidesAndAppends : Obligations.DemTickDecidesAndAppends := by
  refine ⟨by decide, fun _ => exec_demTick_unready, fun s profile cal k inBand => ?_⟩
  rw [exec_demTick_ready inBand profile cal k]
  refine ⟨s.fskDecisions, fun _ => perChannel_unused _ _, fun _ => fskDecisions_active inBand, takeDecisions_silent,
    fun heard => takeDecisions_yields heard ?_⟩
  rw [k]
  exact slotBits_fskDecisions inBand

/-! ## `DEM.IQ` (rule R215) -/

/-- The decisions `DEM.IQ` writes. -/
def State.pskDecisions (s : State) : Vector Decision 16 := perChannel s.n none s.pskDecision

theorem exec_demIq : exec .demIq s = execDemIq s := rfl

theorem exec_demIq_unready
    (unready : s.profileOk = false ∨ s.calValid = false ∨ (s.k ≠ 2 ∧ s.k ≠ 3) ∨ s.win.length ≠ s.ns) :
    exec .demIq s = .next { s with result := 2, err := s.err ||| 0x0004 } := by
  rw [exec_demIq, execDemIq, finish_configError]
  rcases unready with profile | cal | k | window
  · simp [profile]
  · simp [cal]
  · simp [k]
  · simp [window]

theorem exec_demIq_ready (profile : s.profileOk = true) (cal : s.calValid = true) (k : s.k = 2 ∨ s.k = 3)
    (window : s.win.length = s.ns) : exec .demIq s = takeDecisions s.pskDecisions s := by
  rw [exec_demIq, execDemIq, if_neg (by simp [profile, cal]), if_neg (by simpa [or_iff_not_imp_left] using k),
    if_neg (by simp [window])]
  rfl

/-- Settles O42, by the preconditions and the decision of each channel on its correlation sums. -/
theorem demIqDecidesAndAppends : Obligations.DemIqDecidesAndAppends := by
  refine ⟨by decide, fun _ => exec_demIq_unready, fun s profile cal k window => ?_⟩
  rw [exec_demIq_ready profile cal k window]
  exact ⟨s.pskDecisions, fun _ => perChannel_unused _ _, fun _ => perChannel_active _ _, takeDecisions_silent,
    fun heard => takeDecisions_yields heard rfl⟩

end

end Sys2Proof.Machine

/-! # The synchronizer (rules R231 to R241)

Each transition is said once: what `SYNC.STEP` answers under the condition that enables it. `SYNC.RUN` ends because every
transition but `Idle` leaves less work. -/

namespace Sys2Proof.Machine

/-! ## The search for the pattern (rule R231) -/

section
variable {bits : List Bit} {p : Nat}

/-- Eight bits that are the pattern lie inside the stream. -/
theorem syncAt_iff : SyncAt bits p ↔ (bits.drop p).take 8 = Config.syncPattern := by
  refine ⟨And.right, fun stands => ⟨?_, stands⟩⟩
  have length := congrArg List.length stands
  simp only [List.length_take, List.length_drop, Config.syncPattern, List.length_cons, List.length_nil] at length
  omega

theorem findSync_eq_some_iff_syncAt : findSync bits = some p ↔ SyncAt bits p ∧ ∀ q < p, ¬SyncAt bits q := by
  simp only [findSync_eq_some, syncAt_iff, ne_eq]

theorem findSync_eq_none_iff_syncAt : findSync bits = none ↔ ∀ p, ¬SyncAt bits p := by
  simp only [findSync_eq_none, syncAt_iff, ne_eq]

end

/-! ## The transitions of `SYNC.STEP` (rules R232 to R239) -/

section
variable {s : State} {p : Nat}

section
variable (hunting : s.syncState = .hunting)
include hunting

theorem exec_syncStep_hunting : exec .syncStep s = huntStep s := by
  change execSyncStep s = _
  rw [execSyncStep, hunting]

/-- H1 (rule R232). -/
theorem exec_syncStep_lock (found : findSync s.rxBits = some p) :
    exec .syncStep s = .next { s with rxBits := s.rxBits.drop (p + 8), syncState := .framed, result := 0 } := by
  rw [exec_syncStep_hunting hunting, huntStep, found]
  exact finish_ok

section
variable (absent : findSync s.rxBits = none)
include absent

/-- H2 (rule R232). -/
theorem exec_syncStep_trim (long : 1000 < s.rxBits.length) :
    exec .syncStep s = .next { s with rxBits := s.rxBits.drop (s.rxBits.length - 100), result := 0 } := by
  rw [exec_syncStep_hunting hunting, huntStep, absent]
  exact (if_pos long).trans finish_ok

theorem exec_syncStep_hunting_idle (short : s.rxBits.length ≤ 1000) :
    exec .syncStep s = .next { s with result := 6 } := by
  rw [exec_syncStep_hunting hunting, huntStep, absent]
  exact (if_neg (Nat.not_lt.2 short)).trans finish_idle

end

end

section
variable (framed : s.syncState = .framed)
include framed

theorem exec_syncStep_framed : exec .syncStep s = frameStep s := by
  change execSyncStep s = _
  rw [execSyncStep, framed]

/-- F1, which ends by the room in `PKTQ` (rules R40, R235). -/
theorem exec_syncStep_deliverable (ends : deliverable s.params.terminator s.pktBuf = true) :
    exec .syncStep s = finishWithin s.params.capacities.pktQ (s.pktQ.length + 1) s.deliver s :=
  (exec_syncStep_framed framed).trans (if_pos ends)

/-- F1, with room in `PKTQ` (rule R235). -/
theorem exec_syncStep_deliver (ends : deliverable s.params.terminator s.pktBuf = true)
    (room : s.params.capacities.pktQ.allows (s.pktQ.length + 1) = true) : exec .syncStep s =
      .next { s with pktQ := s.pktQ ++ [s.pktBuf], pktBuf := [], syncState := .hunting, result := 0 } :=
  (exec_syncStep_deliverable framed ends).trans (finishWithin_eq_next room)

section
variable (unended : deliverable s.params.terminator s.pktBuf = false)
include unended

/-- F2 (rule R238). -/
theorem exec_syncStep_overflow (long : 5000 < s.pktBuf.length) : exec .syncStep s =
    .next { s with pktBuf := [], syncState := .hunting, result := 5, err := s.err ||| 0x0020 } := by
  rw [exec_syncStep_framed framed, frameStep, unended]
  exact if_pos long

section
variable (short : s.pktBuf.length ≤ 5000)
include short

/-- F3 (rule R233). -/
theorem exec_syncStep_assemble (byte : 8 ≤ s.rxBits.length) : exec .syncStep s =
    .next { s with pktBuf := s.pktBuf ++ [byteMsb (s.rxBits.take 8)], rxBits := s.rxBits.drop 8, result := 0 } := by
  rw [exec_syncStep_framed framed, frameStep, unended]
  exact (if_neg (Nat.not_lt.2 short)).trans ((if_pos byte).trans finish_ok)

theorem exec_syncStep_framed_idle (starved : s.rxBits.length < 8) :
    exec .syncStep s = .next { s with result := 6 } := by
  rw [exec_syncStep_framed framed, frameStep, unended]
  exact (if_neg (Nat.not_lt.2 short)).trans ((if_neg (Nat.not_le.2 starved)).trans finish_idle)

end

end

end

/-- The byte assembled is the first eight bits, the first most significant (rule R233). -/
theorem byteMsb_take_getLsbD (bits : List Bit) {j : Nat} (hj : j < 8) :
    (byteMsb (bits.take 8)).getLsbD (7 - j) = bits.getD j false := by
  rw [byteMsb_getLsbD _ hj, List.getD_eq_getElem?_getD, List.getElem?_take_of_lt hj, List.getD_eq_getElem?_getD]

/-! ## `SYNC.RUN` (rule R240) -/

/-- A repetition of a command that always answers ends with `Idle` when each other end keeps `P` and leaves less of some
measure, of which there is less than the repetitions allowed. -/
theorem repeatUntilIdle_ends {i : Instr} {P Done : State → Prop} {work : State → Nat}
    (step : ∀ s, P s → ∃ t, exec i s = .next t ∧
      ((t.result = 6 ∧ Done t) ∨ (t.result ≠ 6 ∧ P t ∧ work t < work s)))
    {fuel : Nat} (hs : P s) (enough : work s < fuel) :
    ∃ t, repeatUntilIdle i fuel s = .next t ∧ t.result = 6 ∧ Done t := by
  induction fuel generalizing s with
  | zero => omega
  | succ fuel ih =>
    obtain ⟨t, ht, ⟨idle, done⟩ | ⟨busy, keeps, less⟩⟩ := step s hs
    · exact ⟨t, by rw [repeatUntilIdle, ht]; exact if_pos idle, idle, done⟩
    · obtain ⟨u, hu, ends⟩ := ih keeps (by omega)
      exact ⟨u, by rw [repeatUntilIdle, ht]; exact (if_neg busy).trans hu, ends⟩

/-- What is left to do for `SYNC.RUN`: two transitions for each bit, and one more to leave `Framed`. -/
def State.syncWork (s : State) : Nat :=
  match s.syncState with
  | .hunting => 2 * s.rxBits.length
  | .framed => 2 * s.rxBits.length + 1

/-- The most packets that `RXBITS` and `PKTBUF` can still yield: each takes a pattern, but for the one under way. -/
def State.packetsToCome (s : State) : Nat :=
  match s.syncState with
  | .hunting => s.rxBits.length / 8
  | .framed => s.rxBits.length / 8 + 1

/-- `PKTQ` has room for the packets to come (rule R40). -/
def State.RoomForPackets (s : State) : Prop :=
  s.params.capacities.pktQ.allows (s.pktQ.length + s.packetsToCome) = true

/-- No transition is enabled (rule R240). -/
def State.SyncSettled (s : State) : Prop :=
  (s.syncState = .hunting ∧ (∀ p, ¬SyncAt s.rxBits p) ∧ s.rxBits.length ≤ 1000) ∨
    (s.syncState = .framed ∧ s.rxBits.length < 8 ∧ deliverable s.params.terminator s.pktBuf = false ∧
      s.pktBuf.length ≤ 5000)

section
variable {t : State}

theorem State.syncWork_le (s : State) : s.syncWork ≤ 2 * s.rxBits.length + 1 := by
  rw [State.syncWork]
  split <;> omega

theorem State.packetsToCome_le (s : State) : s.packetsToCome ≤ s.rxBits.length / 8 + 1 := by
  rw [State.packetsToCome]
  split <;> omega

/-- What a step of `SYNC.RUN` leaves: a settled state with `Idle`, or room still and less to do. -/
def State.SyncAdvances (s t : State) : Prop :=
  (t.result = 6 ∧ t.SyncSettled) ∨ (t.result ≠ 6 ∧ t.RoomForPackets ∧ t.syncWork < s.syncWork)

/-- A transition advances when the packets delivered and to come do not grow in number and it leaves less to do. -/
theorem State.RoomForPackets.advances (room : s.RoomForPackets) (busy : t.result ≠ 6) (params : t.params = s.params)
    (less : t.pktQ.length + t.packetsToCome ≤ s.pktQ.length + s.packetsToCome ∧ t.syncWork < s.syncWork) :
    s.SyncAdvances t := by
  refine .inr ⟨busy, ?_, less.2⟩
  rw [State.RoomForPackets, params]
  exact Capacity.allows_of_le less.1 room

theorem syncStep_hunting_advances (hunting : s.syncState = .hunting) (room : s.RoomForPackets) :
    ∃ t, exec .syncStep s = .next t ∧ s.SyncAdvances t := by
  cases found : findSync s.rxBits with
  | some p =>
    have inside := findSync_inside found
    refine ⟨_, exec_syncStep_lock hunting found, room.advances (by simp) rfl ?_⟩
    simp only [State.packetsToCome, State.syncWork, hunting, List.length_drop]
    omega
  | none =>
    by_cases long : 1000 < s.rxBits.length
    · refine ⟨_, exec_syncStep_trim hunting found long, room.advances (by simp) rfl ?_⟩
      simp only [State.packetsToCome, State.syncWork, hunting, List.length_drop]
      omega
    · have short := Nat.not_lt.1 long
      exact ⟨_, exec_syncStep_hunting_idle hunting found short,
        .inl ⟨rfl, .inl ⟨hunting, findSync_eq_none_iff_syncAt.1 found, short⟩⟩⟩

theorem syncStep_framed_advances (framed : s.syncState = .framed) (room : s.RoomForPackets) :
    ∃ t, exec .syncStep s = .next t ∧ s.SyncAdvances t := by
  cases ends : deliverable s.params.terminator s.pktBuf with
  | true =>
    have roomForOne : s.params.capacities.pktQ.allows (s.pktQ.length + 1) = true := by
      refine Capacity.allows_of_le ?_ room
      simp only [State.packetsToCome, framed]
      omega
    refine ⟨_, exec_syncStep_deliver framed ends roomForOne, room.advances (by simp) rfl ?_⟩
    simp only [State.packetsToCome, State.syncWork, framed, List.length_append, List.length_singleton]
    omega
  | false =>
    by_cases long : 5000 < s.pktBuf.length
    · refine ⟨_, exec_syncStep_overflow framed ends long, room.advances (by simp) rfl ?_⟩
      simp only [State.packetsToCome, State.syncWork, framed]
      omega
    have short := Nat.not_lt.1 long
    by_cases byte : 8 ≤ s.rxBits.length
    · refine ⟨_, exec_syncStep_assemble framed ends short byte, room.advances (by simp) rfl ?_⟩
      simp only [State.packetsToCome, State.syncWork, framed, List.length_drop]
      omega
    · have starved := Nat.not_le.1 byte
      exact ⟨_, exec_syncStep_framed_idle framed ends short starved,
        .inl ⟨rfl, .inr ⟨framed, starved, ends, short⟩⟩⟩

theorem syncStep_advances (s : State) (room : s.RoomForPackets) :
    ∃ t, exec .syncStep s = .next t ∧ s.SyncAdvances t := by
  cases state : s.syncState with
  | hunting => exact syncStep_hunting_advances state room
  | framed => exact syncStep_framed_advances state room

end

/-! ## Delivery (rules R236, R237) -/

theorem packetTags_ne_nil {tag : List Byte} (mem : tag ∈ packetTags) : tag ≠ [] := by
  rintro rfl
  exact absurd mem (by decide)

theorem deliverable_iff {t : Config.Terminator} {buf : List Byte} : deliverable t buf = true ↔
    0 ∈ buf ∨ (10 < buf.length ∧ ∃ tag ∈ packetTags, ∃ p, (buf.drop p).take tag.length = tag ∧
      recordTerminated t buf (p + tag.length) = true) := by
  have tagged : (packetTags.any fun tag => tagTerminatedFrom t buf tag 0 buf) = true ↔
      ∃ tag ∈ packetTags, ∃ p, (buf.drop p).take tag.length = tag ∧
        recordTerminated t buf (p + tag.length) = true := by
    rw [List.any_eq_true]
    refine exists_congr fun tag => and_congr_right fun mem => ?_
    rw [tagTerminatedFrom_iff (packetTags_ne_nil mem)]
    simp only [Nat.zero_add]
  rw [deliverable, Bool.or_eq_true, List.contains_iff_mem, Bool.and_eq_true, decide_eq_true_iff, tagged]
  rfl

end

/-! ## The statements -/

/-- Settles O49: the session starts in one update of the state. -/
theorem syncRstStartsASession : Obligations.SyncRstStartsASession := ⟨by decide, fun _ => finish_ok⟩

/-- Settles O46, by the outcome of the search for the pattern. -/
theorem huntingLocksOnTheLeftmostPattern : Obligations.HuntingLocksOnTheLeftmostPattern :=
  ⟨by decide, fun _ hunting =>
    ⟨fun _ stands leftmost => exec_syncStep_lock hunting (findSync_eq_some_iff_syncAt.2 ⟨stands, leftmost⟩),
      fun absent => exec_syncStep_trim hunting (findSync_eq_none_iff_syncAt.2 absent),
      fun absent => exec_syncStep_hunting_idle hunting (findSync_eq_none_iff_syncAt.2 absent)⟩⟩

/-- Settles O47, by the transitions in their order. -/
theorem framedDeliversOverflowsOrAssembles : Obligations.FramedDeliversOverflowsOrAssembles := by
  refine fun s framed => ⟨fun ends => ⟨exec_syncStep_deliver framed ends, fun full => ?_⟩,
    exec_syncStep_overflow framed, fun unended short byte => ?_, exec_syncStep_framed_idle framed⟩
  · exact (exec_syncStep_deliverable framed ends).trans (finishWithin_eq_outOfRange full)
  · exact ⟨_, fun _ => byteMsb_take_getLsbD s.rxBits, exec_syncStep_assemble framed unended short byte⟩

/-- Settles O48: the scan for a tag finds it at some index. -/
theorem deliverableIsNulOrTaggedRecord : Obligations.DeliverableIsNulOrTaggedRecord :=
  fun _ _ => ⟨deliverable_iff, fun _ => suffixTerminated_iff⟩

/-- Settles O50, by induction on the repetitions allowed: each transition but the last leaves less to do and keeps room
in `PKTQ` for the packets to come. -/
theorem syncRunEndsIdle : Obligations.SyncRunEndsIdle := by
  intro s room
  have packets := s.packetsToCome_le
  have work := s.syncWork_le
  exact repeatUntilIdle_ends syncStep_advances (Capacity.allows_of_le (by omega) room) (by omega)

end Sys2Proof.Machine

/-! # The framer (rules R260, R261)

The frame is read in three parts: its prefix, its body, whose bits stand eight to a byte, and its suffix. -/

namespace Sys2Proof.Machine

/-! ## The parts of a frame (rules R90, R260) -/

section
variable (body : List Byte)

/-- Bit `j` of byte `i` of the serialised bytes is its bit `7 - j`. -/
theorem flatMap_bitsMsb_getD {i j : Nat} (hi : i < body.length) (hj : j < 8) :
    (body.flatMap bitsMsb).getD (8 * i + j) false = body[i].getLsbD (7 - j) := by
  induction body generalizing i with
  | nil => exact absurd hi (Nat.not_lt_zero i)
  | cons b bs ih =>
    rw [List.flatMap_cons]
    cases i with
    | zero =>
      rw [List.getD_append _ _ _ _ (by rw [bitsMsb_length]; omega), Nat.mul_zero, Nat.zero_add]
      exact bitsMsb_getD b hj
    | succ i =>
      rw [List.getD_append_right _ _ _ _ (by rw [bitsMsb_length]; omega), bitsMsb_length,
        show 8 * (i + 1) + j - 8 = 8 * i + j by omega]
      exact ih (Nat.lt_of_succ_lt_succ hi)

theorem frameBits_take_eight : (frameBits body).take 8 = Config.syncPattern := by
  rw [frameBits, List.append_assoc]
  exact List.take_left' rfl

theorem frameBits_drop_body : (frameBits body).drop (8 + 8 * body.length) = Config.suffixPattern :=
  List.drop_left' (by rw [List.length_append, flatMap_bitsMsb_length]; rfl)

theorem frameBits_getD_body {i j : Nat} (hi : i < body.length) (hj : j < 8) :
    (frameBits body).getD (8 + 8 * i + j) false = body[i].getLsbD (7 - j) := by
  have prefixLength : Config.syncPattern.length = 8 := rfl
  have bodyLength := flatMap_bitsMsb_length body
  rw [frameBits, List.append_assoc, List.getD_append_right _ _ _ _ (by omega),
    List.getD_append _ _ _ _ (by omega), show 8 + 8 * i + j - Config.syncPattern.length = 8 * i + j by omega]
  exact flatMap_bitsMsb_getD body hi hj

end

/-! ## `FRAME` (rules R40, R261) -/

section
variable {s : State}

theorem exec_frame : exec .frame s = execFrame s := rfl

theorem exec_frame_tooLong (long : 2 ^ 32 ≤ 16 + 8 * s.ib.length) : exec .frame s = outOfRange s :=
  if_neg (Nat.not_lt.2 long)

theorem exec_frame_full (full : s.params.capacities.txBits.allows (16 + 8 * s.ib.length) = false) :
    exec .frame s = outOfRange s := by
  rw [exec_frame, execFrame]
  split
  · exact finishWithin_eq_outOfRange full
  · rfl

theorem exec_frame_room (short : 16 + 8 * s.ib.length < 2 ^ 32)
    (room : s.params.capacities.txBits.allows (16 + 8 * s.ib.length) = true) :
    exec .frame s = .next { s with txBits := frameBits s.ib, result := 0 } :=
  (if_pos short).trans (finishWithin_eq_next room)

/-- Settles O51, by the parts of the frame. -/
theorem frameWritesPrefixBodySuffix : Obligations.FrameWritesPrefixBodySuffix :=
  ⟨by decide, fun s => ⟨fun h => h.elim exec_frame_tooLong exec_frame_full, fun short room =>
    ⟨frameBits s.ib, exec_frame_room short room, frameBits_length s.ib, frameBits_take_eight s.ib,
      frameBits_drop_body s.ib, fun _ hi _ => frameBits_getD_body s.ib hi⟩⟩⟩

end

end Sys2Proof.Machine

/-! # Errors (rules R32, R285, R286)

How every instruction can end is said once, as a relation between the states before and after it (`CommandEnd`), as far
as the rules on errors ask: an end without an error keeps `ERR`, one with an error keeps everything else, and what rule
R285 excepts, with `RESET`, `CSRR 0x09` and the items of a running stream, are ends of their own. Both statements are
read off it. -/

namespace Sys2Proof.Machine

/-! ## How a command can end -/

/-- The errors that change nothing else, whichever instruction ends with them (rule R285). -/
def preciseErrors : List ResultCode := [.illegalCommand, .configError, .noViableBand, .rangeError]

/-- How the instruction `i`, run in `s`, can end; the last index is the state it ends in. -/
inductive CommandEnd : Instr → State → State → Prop
  /-- With `OK` or `Idle`, after an update that leaves `ERR` alone. -/
  | success {i : Instr} {s u : State} {code : ResultCode} (kept : u.err = s.err) (fine : code.isError = false) :
      CommandEnd i s (u.endWith code)
  /-- With an error that changes nothing else. -/
  | failure {i : Instr} {s : State} {code : ResultCode} (precise : code ∈ preciseErrors) :
      CommandEnd i s (s.endWith code)
  /-- `RESET` sets `ERR` to 0. -/
  | reset {s : State} : CommandEnd .reset s s.afterReset
  /-- `CSRR 0x09` writes no code. -/
  | readResult {s : State} : CommandEnd (.csrr 0x09) s { s with rdata := s.readCsr .result }
  /-- The first exception of rule R285. -/
  | corrupt {s : State} : CommandEnd .lzDec s ({ s with ob := [] }.endWith .corruptStream)
  /-- The second exception of rule R285. -/
  | overflow {s : State} : CommandEnd .syncStep s (s.overflow.endWith .bufferOverflow)
  /-- An item of a stream that leaves the stream running writes no code. -/
  | itemRuns {i : Instr} {s : State} {r : LzRun} (held : s.lzRun ≠ none) : CommandEnd i s { s with lzRun := some r }
  /-- An item that ends its stream. -/
  | itemEnds {i : Instr} {s : State} {out : List Byte} {code : ResultCode} (held : s.lzRun ≠ none) :
      CommandEnd i s ({ s with ob := out, lzRun := none }.endWith code)

/-! ## Every instruction ends so

A fault and a refusal end nothing: the statements are about instructions that answer. -/

/-- If the outcome is a next state, `i` can end in it. -/
def EndsFrom (i : Instr) (s : State) (o : Outcome) : Prop := ∀ t, o = .next t → CommandEnd i s t

section
variable {i : Instr} {s u : State}

theorem endsFrom_next (h : CommandEnd i s u) : EndsFrom i s (.next u) := by
  rintro _ ⟨⟩; exact h

theorem endsFrom_fault {f : Fault} : EndsFrom i s (.fault f) := by
  rintro _ ⟨⟩

theorem endsFrom_ok (kept : u.err = s.err) : EndsFrom i s (finish .ok u) := endsFrom_next (.success kept rfl)

theorem endsFrom_idle (kept : u.err = s.err) : EndsFrom i s (finish .idle u) := endsFrom_next (.success kept rfl)

theorem endsFrom_failure {code : ResultCode} (precise : code ∈ preciseErrors := by decide) :
    EndsFrom i s (finish code s) :=
  endsFrom_next (.failure precise)

theorem endsFrom_ite {p : Prop} [Decidable p] {o o' : Outcome} (yes : EndsFrom i s o) (no : EndsFrom i s o') :
    EndsFrom i s (if p then o else o') := by
  split
  · exact yes
  · exact no

theorem endsFrom_finishWithin {c : Config.Capacity} {count : Nat} (kept : u.err = s.err) :
    EndsFrom i s (finishWithin c count u s) :=
  endsFrom_ite (endsFrom_ok kept) endsFrom_failure

/-! ### Configuration and system -/

theorem execReset_ends : EndsFrom .reset s (execReset s) := by
  rw [execReset, finish_ok_afterReset]
  exact endsFrom_next .reset

/-- No register write reaches `ERR` (rule R38). -/
theorem State.writeCsr_err (s : State) (r : Csr) (v : Half) : (s.writeCsr r v).err = s.err := by cases r <;> rfl

theorem execCsrw_ends (a : Byte) (imm : Half) : EndsFrom i s (execCsrw a imm s) := by
  unfold execCsrw
  split
  · exact endsFrom_failure
  · exact endsFrom_ite (endsFrom_ite (endsFrom_ok (s.writeCsr_err _ imm)) endsFrom_failure) endsFrom_failure

theorem execCsrr_ends (a : Byte) : EndsFrom (.csrr a) s (execCsrr a s) := by
  unfold execCsrr
  split
  · exact endsFrom_failure
  · obtain rfl : a = 0x09 := csrOf_eq_result.1 ‹_›
    exact endsFrom_next .readResult
  · exact endsFrom_ok rfl

theorem execLdcal_ends (imm : Half) : EndsFrom i s (execLdcal imm s) :=
  endsFrom_ite endsFrom_failure (endsFrom_ite endsFrom_failure (endsFrom_ok rfl))

/-! ### Codec and framer -/

theorem execLzEnc_ends : EndsFrom i s (execLzEnc s) := endsFrom_ite (endsFrom_finishWithin rfl) endsFrom_failure

theorem execLzDec_ends : EndsFrom .lzDec s (execLzDec s) := by
  unfold execLzDec
  split
  · exact endsFrom_finishWithin rfl
  · exact endsFrom_next .corrupt

theorem runItem_ends (it : LzItem) : EndsFrom i s (runItem it s) := by
  intro t ht
  have held {result : LzResult} (h : s.lzRun.bind (itemEffect it) = some result) : s.lzRun ≠ none := by
    intro none
    simp [none] at h
  obtain ⟨-, rfl⟩ | ⟨r, running, rfl⟩ | ⟨out, done, rfl⟩ | ⟨corrupt, rfl⟩ := runItem_next ht
  · exact .failure (by decide)
  · exact .itemRuns (held running)
  · split
    · exact .itemEnds (held done)
    · exact .itemEnds (out := s.ob) (held done)
  · exact .itemEnds (held corrupt)

theorem execFrame_ends : EndsFrom i s (execFrame s) := endsFrom_ite (endsFrom_finishWithin rfl) endsFrom_failure

/-! ### Modulator -/

theorem execIlv_ends : EndsFrom i s (execIlv s) :=
  endsFrom_ite endsFrom_failure (endsFrom_ite endsFrom_failure (endsFrom_finishWithin rfl))

theorem execSymb_ends : EndsFrom i s (execSymb s) := endsFrom_ite endsFrom_failure (endsFrom_finishWithin rfl)

theorem execModSlot_ends : EndsFrom i s (execModSlot s) := by
  refine endsFrom_ite endsFrom_failure (endsFrom_ite (endsFrom_idle rfl) ?_)
  split
  · exact endsFrom_fault
  · exact endsFrom_finishWithin rfl

theorem execModPre_ends : EndsFrom i s (execModPre s) := endsFrom_ite endsFrom_failure (endsFrom_finishWithin rfl)

theorem execPwrUpd_ends : EndsFrom i s (execPwrUpd s) := endsFrom_ite (endsFrom_idle rfl) (endsFrom_ok rfl)

/-! ### Demodulator -/

theorem takeDecisions_ends (dec : Vector Decision 16) : EndsFrom i s (takeDecisions dec s) := by
  unfold takeDecisions
  split
  · exact endsFrom_idle rfl
  · exact endsFrom_finishWithin rfl

theorem execDemTick_ends : EndsFrom i s (execDemTick s) := by
  refine endsFrom_ite endsFrom_failure (endsFrom_ite endsFrom_failure ?_)
  split
  · exact endsFrom_fault
  · exact takeDecisions_ends _

theorem execDemIq_ends : EndsFrom i s (execDemIq s) :=
  endsFrom_ite endsFrom_failure
    (endsFrom_ite endsFrom_failure (endsFrom_ite endsFrom_failure (takeDecisions_ends _)))

/-! ### Synchronizer -/

theorem huntStep_ends : EndsFrom i s (huntStep s) := by
  unfold huntStep
  split
  · exact endsFrom_ok (s.lockAt_err _)
  · exact endsFrom_ite (endsFrom_ok s.trim_err) (endsFrom_idle rfl)

theorem frameStep_ends : EndsFrom .syncStep s (frameStep s) :=
  endsFrom_ite (endsFrom_finishWithin s.deliver_err)
    (endsFrom_ite (endsFrom_next .overflow) (endsFrom_ite (endsFrom_ok s.assemble_err) (endsFrom_idle rfl)))

theorem execSyncStep_ends : EndsFrom .syncStep s (execSyncStep s) := by
  unfold execSyncStep
  split
  · exact huntStep_ends
  · exact frameStep_ends

/-! ### All of them -/

theorem exec_ends (i : Instr) (s : State) : EndsFrom i s (exec i s) := by
  cases i with
  | nop | crcInit | crcStep | crcBuf | sumBuf | syncRst => exact endsFrom_ok rfl
  | reset => exact execReset_ends
  | csrw a imm => exact execCsrw_ends a imm
  | csrr a => exact execCsrr_ends a
  | ldcal imm => exact execLdcal_ends imm
  | lzEnc => exact execLzEnc_ends
  | lzDec => exact execLzDec_ends
  | ilv => exact execIlv_ends
  | symb => exact execSymb_ends
  | modSlot => exact execModSlot_ends
  | modPre => exact execModPre_ends
  | pwrUpd => exact execPwrUpd_ends
  | demTick => exact execDemTick_ends
  | demIq => exact execDemIq_ends
  | syncStep => exact execSyncStep_ends
  | frame => exact execFrame_ends
  | lzHeader | lzLiteral | lzMatch | lzEscape => exact runItem_ends _

end

/-! ## The bit of a code (rules R32, R282) -/

section
variable {s t : State} {i : Instr}

/-- The bit a code sets is the bit of its number, where that is an error's. -/
theorem ResultCode.errBit_eq_ite (c : ResultCode) :
    c.errBit = if c.word.toNat ∈ [1, 2, 3, 4, 5, 7] then 1 <<< c.word.toNat else 0 := by cases c <;> decide

theorem ResultCode.word_of_not_isError {c : ResultCode} (fine : c.isError = false) : c.word = 0 ∨ c.word = 6 := by
  revert fine
  cases c <;> decide

theorem endWith_err_eq_ite (u : State) (code : ResultCode) (kept : u.err = s.err) : (u.endWith code).err =
    if (u.endWith code).result.toNat ∈ [1, 2, 3, 4, 5, 7] then s.err ||| (1 <<< (u.endWith code).result.toNat)
    else s.err := by
  rw [State.endWith_err, State.endWith_result, code.errBit_eq_ite, kept]
  split
  · rfl
  · exact BitVec.or_zero

/-- What an instruction does to `ERR`: it writes no code and leaves `ERR` alone, or it sets the bit of its code. -/
theorem CommandEnd.err_cases (h : CommandEnd i s t) (notReset : i ≠ .reset) :
    (t.err = s.err ∧ (i = .csrr 0x09 ∨ t.lzRun ≠ none)) ∨
    ∃ (u : State) (code : ResultCode), t = u.endWith code ∧ u.err = s.err := by
  cases h with
  | success kept => exact .inr ⟨_, _, rfl, kept⟩
  | failure | corrupt | overflow | itemEnds => exact .inr ⟨_, _, rfl, rfl⟩
  | reset => exact absurd rfl notReset
  | readResult => exact .inl ⟨rfl, .inl rfl⟩
  | itemRuns => exact .inl ⟨rfl, .inr nofun⟩

theorem exec_csrr_result : exec (.csrr 0x09) s = .next { s with rdata := s.readCsr .result } := rfl

theorem or_and_self_left (x y : Half) : (x ||| y) &&& x = x := by
  ext j
  simp +contextual

/-- Which error an instruction outside a stream ends with, and what else has changed. -/
theorem CommandEnd.error_cases (h : CommandEnd i s t) (notRead : i ≠ .csrr 0x09) (noStream : s.lzRun = none) :
    (t.result = 0 ∨ t.result = 6) ∨
    (∃ code ∈ preciseErrors, t = s.endWith code) ∨
    (i = .lzDec ∧ t = { s with ob := [] }.endWith .corruptStream) ∨
    (i = .syncStep ∧ t = s.overflow.endWith .bufferOverflow) := by
  cases h with
  | success kept fine => exact .inl (ResultCode.word_of_not_isError fine)
  | failure precise => exact .inr (.inl ⟨_, precise, rfl⟩)
  | reset => exact .inl (.inl rfl)
  | readResult => exact absurd rfl notRead
  | corrupt => exact .inr (.inr (.inl ⟨rfl, rfl⟩))
  | overflow => exact .inr (.inr (.inr ⟨rfl, rfl⟩))
  | itemRuns held | itemEnds held => exact absurd noStream held

end

/-! ## The statements -/

/-- Settles O58, by whether the instruction writes a code: one that does adds the bit of that code to `ERR`. -/
theorem errBitsAreSticky : Obligations.ErrBitsAreSticky := by
  intro i s t h notReset
  refine ⟨?_, ?_, fun notRead ended => ?_⟩
  · obtain ⟨same, -⟩ | ⟨u, code, rfl, kept⟩ := (exec_ends i s t h).err_cases notReset
    · rw [same, BitVec.and_self]
    · rw [State.endWith_err, kept, or_and_self_left]
  · rintro rfl
    cases exec_csrr_result.symm.trans h
    rfl
  · obtain ⟨-, read | running⟩ | ⟨u, code, rfl, kept⟩ := (exec_ends i s t h).err_cases notReset
    · exact absurd read notRead
    · exact absurd ended running
    · exact endWith_err_eq_ite u code kept

/-- Settles O59, by the error that ends the instruction: none, one that changes nothing else, or one of the two
exceptions. -/
theorem errorsArePrecise : Obligations.ErrorsArePrecise := by
  intro i s t h notRead noStream
  obtain (ok | idle) | ⟨code, precise, rfl⟩ | ⟨rfl, rfl⟩ | ⟨rfl, rfl⟩ :=
    (exec_ends i s t h).error_cases notRead noStream
  · simp [ok]
  · simp [idle]
  · simp only [preciseErrors, List.mem_cons, List.not_mem_nil, or_false] at precise
    obtain rfl | rfl | rfl | rfl := precise <;> exact ⟨fun _ => rfl, by simp, by simp⟩
  · exact ⟨by simp, fun _ => ⟨rfl, rfl⟩, by simp⟩
  · exact ⟨by simp, by simp, fun _ => ⟨rfl, rfl⟩⟩

end Sys2Proof.Machine

/-! # The encodings (rules R80 to R89, R98)

What a decoder that accepts has read is said once for each kind of code: the bytes are those of the item, and the item is
one the encodings can express. Both directions of the round trip and the length of a token rest on it. -/

namespace Sys2Proof

/-! ## From the instruction to its code and back -/

theorem decodeHeader_bytes (n : Word) (rest : List Byte) :
    decodeHeader ((LzItem.header n).bytes ++ rest) = .ok (.header n, rest) := by
  change Except.ok (LzItem.header _, rest) = _
  rw [join_be32]

/-- The two bytes of a distance joined again are the distance. -/
theorem join_distance (d : Half) : d.extractLsb' 8 8 ++ d.extractLsb' 0 8 = d :=
  BitVec.extractLsb'_append_extractLsb'

theorem decodeToken_copyBytes {d : Half} (hd : d ≠ 0) (l : Byte) (rest : List Byte) :
    decodeToken ((LzItem.copy d l).bytes ++ rest) = .ok (.copy d l, rest) := by
  have join := join_distance d
  have decoded := decodeToken_copy (l := l) (rest := rest) (join.symm ▸ hd)
  rwa [join] at decoded

/-- The operand of `CRC.STEP` as the two bytes of `imm`. -/
theorem setWidth_eq_zero_append (b : Byte) : b.setWidth 16 = 0#8 ++ b := BitVec.setWidth_eq_append (by decide)

/-- Settles O1, by the instruction: a bare command is one word, and an operand is read back from its field or its
bytes. -/
theorem decodeInvertsEncode : Obligations.DecodeInvertsEncode := by
  intro i wf
  cases i with
  | csrw a imm => exact decodeCommand_csrwWord a imm
  | csrr a => exact decodeCommand_csrrWord a
  | ldcal imm => exact decodeCommand_ldcalWord imm
  | crcStep b =>
    change decodeCommand (commandWord 0x11 0 (b.setWidth 16)) = _
    rw [setWidth_eq_zero_append, decodeCommand_crcStepWord]
    rfl
  | lzHeader n => exact congrArg wholeItem (decodeHeader_bytes n [])
  | lzLiteral b => exact congrArg wholeItem (decodeToken_literal (rest := []) (bne_iff_ne.1 wf))
  | lzMatch d l => exact congrArg wholeItem (decodeToken_copyBytes (bne_iff_ne.1 wf) l [])
  | nop | reset | crcInit | crcBuf | sumBuf | lzEnc | lzDec | ilv | symb | modSlot | modPre | pwrUpd | demTick | demIq
  | syncStep | syncRst | frame | lzEscape => rfl

/-! ## From the code to the instruction and back -/

/-- The instruction can be expressed, and this is its code. -/
def Instr.HasCode (i : Instr) (c : Code) : Prop := i.wellFormed = true ∧ encode i = c

theorem hasCode_of_bareWord {op : Byte} (mem : op ∈ bareOpcodes) {i : Instr}
    (h : decodeCommand (commandWord op 0 0) = .ok i) : i.HasCode (.command (commandWord op 0 0)) := by
  simp only [bareOpcodes, List.mem_cons, List.not_mem_nil, or_false] at mem
  rcases mem with rfl | rfl | rfl | rfl | rfl | rfl | rfl | rfl | rfl | rfl | rfl | rfl | rfl | rfl | rfl | rfl | rfl <;>
    cases h <;> exact ⟨rfl, rfl⟩

/-- A command word that decodes is, field by field, the word of what it decodes to. -/
theorem hasCode_of_decodeCommand {w : Word} {i : Instr} (h : decodeCommand w = .ok i) : i.HasCode (.command w) := by
  have fields := commandWord_fields w
  obtain ⟨op, a, imm⟩ | op | ⟨op, imm⟩ | ⟨op, a⟩ | ⟨op, a, upper⟩ := (decodeCommand_isOk_iff_fieldsLegal w).1 ⟨i, h⟩
  · rw [a, imm] at fields
    rw [← fields] at h ⊢
    exact hasCode_of_bareWord op h
  · rw [op] at fields
    cases (decodeCommand_csrw op).symm.trans h
    exact ⟨rfl, congrArg Code.command fields⟩
  · rw [op, imm] at fields
    rw [decodeCommand_csrr op, imm] at h
    cases h
    exact ⟨rfl, congrArg Code.command fields⟩
  · rw [op, a] at fields
    rw [decodeCommand_ldcal op, a] at h
    cases h
    exact ⟨rfl, congrArg Code.command fields⟩
  · have imm : immField w = (w.extractLsb' 0 8).setWidth 16 := by
      have halves : w.extractLsb' 8 8 ++ w.extractLsb' 0 8 = w.extractLsb' 0 16 :=
        BitVec.extractLsb'_append_extractLsb'_eq_extractLsb' rfl
      rw [setWidth_eq_zero_append, show 0#8 = w.extractLsb' 8 8 from upper.symm]
      exact halves.symm
    rw [op, a, imm] at fields
    rw [decodeCommand_crcStep op, a, upper] at h
    cases h
    exact ⟨rfl, congrArg Code.command fields⟩

/-- The bytes of a word of four bytes are those bytes. -/
theorem be32_join (b0 b1 b2 b3 : Byte) : be32 (b0 ++ b1 ++ b2 ++ b3) = [b0, b1, b2, b3] := by
  have h0 : (b0 ++ b1 ++ b2 ++ b3).extractLsb' 24 8 = b0 := by
    rw [bytes_eq_commandWord]
    exact opField_commandWord ..
  have h1 : (b0 ++ b1 ++ b2 ++ b3).extractLsb' 16 8 = b1 := by
    rw [bytes_eq_commandWord]
    exact aField_commandWord ..
  have h2 : (b0 ++ b1 ++ b2 ++ b3).extractLsb' 8 8 = b2 :=
    (BitVec.extractLsb'_append_eq_of_le (by decide)).trans BitVec.extractLsb'_append_eq_right
  have h3 : (b0 ++ b1 ++ b2 ++ b3).extractLsb' 0 8 = b3 := BitVec.extractLsb'_append_eq_right
  rw [be32, h0, h1, h2, h3]

theorem copy_bytes_join (hi lo l : Byte) : (LzItem.copy (hi ++ lo) l).bytes = [Config.lzMarker, hi, lo, l] := by
  rw [LzItem.bytes, BitVec.extractLsb'_append_eq_left, BitVec.extractLsb'_append_eq_right]

theorem join_eq_zero {hi lo : Byte} (h : (hi ++ lo : Half) = 0) : hi = 0 ∧ lo = 0 := by
  have sum : hi.toNat * 256 + lo.toNat = 0 := Machine.toNat_join2 hi lo ▸ congrArg BitVec.toNat h
  exact ⟨BitVec.eq_of_toNat_eq (show hi.toNat = 0 by omega), BitVec.eq_of_toNat_eq (show lo.toNat = 0 by omega)⟩

/-- What was read as a header is a header in front of what is left (rule R86). -/
theorem decodeHeader_cases {z rest : List Byte} {it : LzItem} (h : decodeHeader z = .ok (it, rest)) :
    z = it.bytes ++ rest ∧ ∃ n, it = .header n := by
  unfold decodeHeader at h
  split at h
  · cases h
    exact ⟨by rw [LzItem.bytes, be32_join]; rfl, _, rfl⟩
  · cases h

/-- What was read after a marker is a match or an escape, in front of what is left (rules R88, R89). -/
theorem decodeMarked_cases {z rest : List Byte} {it : LzItem} (h : decodeMarked z = .ok (it, rest)) :
    Config.lzMarker :: z = it.bytes ++ rest ∧ ((∃ d l, d ≠ 0 ∧ it = .copy d l) ∨ it = .escape) := by
  unfold decodeMarked at h
  split at h
  case h_1 hi lo l z =>
    split at h
    case isTrue zero =>
      split at h
      case isTrue one =>
        cases h
        obtain ⟨rfl, rfl⟩ := join_eq_zero zero
        subst one
        exact ⟨rfl, .inr rfl⟩
      case isFalse => cases h
    case isFalse distance =>
      cases h
      exact ⟨by rw [copy_bytes_join]; rfl, .inl ⟨_, _, distance, rfl⟩⟩
  case h_2 => cases h

/-- What was read as a token is a literal, a match or an escape, in front of what is left (rules R87 to R89). -/
theorem decodeToken_cases {z rest : List Byte} {it : LzItem} (h : decodeToken z = .ok (it, rest)) :
    z = it.bytes ++ rest ∧
      ((∃ b, b ≠ Config.lzMarker ∧ it = .literal b) ∨ (∃ d l, d ≠ 0 ∧ it = .copy d l) ∨ it = .escape) := by
  unfold decodeToken at h
  split at h
  · cases h
  · split at h
    case isTrue marker =>
      obtain ⟨bytes, item⟩ := decodeMarked_cases h
      exact ⟨marker ▸ bytes, .inr item⟩
    case isFalse plain =>
      cases h
      exact ⟨rfl, .inl ⟨_, plain, rfl⟩⟩

theorem wholeItem_ok {r : Except DecodeError (LzItem × List Byte)} {i : Instr} (h : wholeItem r = .ok i) :
    ∃ it, r = .ok (it, []) ∧ i = it.toInstr := by
  unfold wholeItem at h
  split at h
  · cases h
    exact ⟨_, rfl, rfl⟩
  · cases h
  · cases h

/-- Settles O2, by the kind of code: the word's fields, or the bytes of the item that was read. -/
theorem encodeInvertsDecode : Obligations.EncodeInvertsDecode := by
  intro c i h
  cases c with
  | command w => exact hasCode_of_decodeCommand h
  | header z =>
    obtain ⟨it, read, rfl⟩ := wholeItem_ok h
    obtain ⟨rfl, n, rfl⟩ := decodeHeader_cases read
    exact ⟨rfl, congrArg Code.header (List.append_nil _).symm⟩
  | token z =>
    obtain ⟨it, read, rfl⟩ := wholeItem_ok h
    obtain ⟨rfl, ⟨b, plain, rfl⟩ | ⟨d, l, distance, rfl⟩ | rfl⟩ := decodeToken_cases read
    · exact ⟨bne_iff_ne.2 plain, rfl⟩
    · exact ⟨bne_iff_ne.2 distance, rfl⟩
    · exact ⟨rfl, rfl⟩

/-- Settles O5, by the token that was read: only a literal does not begin with the marker. -/
theorem firstByteTellsTheTokenLength : Obligations.FirstByteTellsTheTokenLength := by
  intro z rest it read
  obtain ⟨rfl, ⟨b, plain, rfl⟩ | ⟨d, l, -, rfl⟩ | rfl⟩ := decodeToken_cases read
  · exact ⟨rfl, (if_neg (mt Option.some.inj plain)).symm⟩
  · exact ⟨rfl, rfl⟩
  · exact ⟨rfl, rfl⟩

/-- Settles O3: the decoder computes the verdict on each of the codes. -/
theorem tableWordsDecodeAsWritten : Obligations.TableWordsDecodeAsWritten := by
  unfold Obligations.TableWordsDecodeAsWritten
  decide

end Sys2Proof

/-! # The step, the status word and the reset state (rules R14, R31, R48, R68)

A step takes the item, the command word or the access that stands next; what each of them then does is said elsewhere. -/

namespace Sys2Proof.Machine

section
variable {s : State}

/-! ## The step -/

theorem step_stream {r : LzRun} (held : s.lzRun = some r) : step s = stepStream r s := by
  simp only [step, held]

/-- Settles O6: the word taken from the host is decoded and run. -/
theorem stepRunsTheDecodedCommand : Obligations.StepRunsTheDecodedCommand := by
  intro s w moves i hrun hhost decoded
  rw [step_command hrun hhost, stepCommand, decoded]

/-- Settles O7, by what is read of the stream: an item, or none. -/
theorem stepRunsTheNextStreamItem : Obligations.StepRunsTheNextStreamItem := by
  refine fun s r held => ⟨fun it r' read => ?_, fun e unread => ?_⟩
  · rw [step_stream held, stepStream, read]
  · rw [step_stream held, stepStream, unread]
    rfl

/-- Settles O8, by the move: each is one update, and those that fill a buffer ask for room. -/
theorem hostMovesChangeWhatTheyName : Obligations.HostMovesChangeWhatTheyName := by
  intro s moves hrun
  refine ⟨fun waits => ?_, ?_⟩
  · simp only [step, hrun, waits]
  · exact ⟨fun _ => step_hostMove hrun, fun _ => step_hostMove hrun, fun _ => step_hostMove hrun,
      fun _ => step_hostMove hrun, fun _ => step_hostMove hrun, fun _ => step_hostMove hrun,
      fun _ => step_hostMove hrun⟩

/-- Settles O9, by the length of the list: the cells of 4096 magnitudes are in form and read as those magnitudes. -/
theorem spectrumWriteSetsEveryBin : Obligations.SpectrumWriteSetsEveryBin := by
  intro s moves l hrun hhost
  have moved : step s = putSpec l { s with host := moves } := step_hostMove hrun hhost
  refine ⟨fun whole => ⟨Memory.cellsFrom 0 l, moved.trans (if_pos whole), Memory.wf_cellsFrom l 0 (by omega), fun k => ?_⟩,
    fun other => moved.trans (if_neg other)⟩
  rw [Memory.read_cellsFrom, if_pos (Nat.zero_le k), Nat.sub_zero]

/-! ## The status word (rule R31) -/

theorem flagBit_getLsbD (on : Bool) {position : Nat} (inside : position < 16) (i : Nat) :
    (flagBit on position).getLsbD i = (on && decide (i = position)) := by
  cases on with
  | false => simp [flagBit]
  | true =>
    have power : flagBit true position = BitVec.ofNat 16 (2 ^ position) := by simp [flagBit, Nat.shiftLeft_eq]
    rw [power, BitVec.getLsbD_ofNat, Nat.testBit_two_pow, Bool.true_and, ← Bool.decide_and]
    exact decide_eq_decide.2 (by omega)

theorem statusWord_getLsbD (s : State) (i : Nat) : s.statusWord.getLsbD i =
    (((s.syncState == .framed) && decide (i = 0)) || (s.calValid && decide (i = 1)) || (s.ilvValid && decide (i = 2)) ||
      (s.symValid && decide (i = 3)) || (!s.pktQ.isEmpty && decide (i = 4)) || (s.slotYielded && decide (i = 5))) := by
  simp only [State.statusWord, BitVec.getLsbD_or]
  repeat rw [flagBit_getLsbD _ (by decide)]

/-- Settles O15, bit by bit. -/
theorem statusBitsAreTheTable : Obligations.StatusBitsAreTheTable := by
  intro s
  simp only [statusWord_getLsbD]
  refine ⟨by simp, by simp, by simp, by simp, by simp [List.length_pos_iff], by simp, fun i hi => ?_⟩
  have other : ∀ position < 6, decide (i = position) = false := fun position h => decide_eq_false (by omega)
  simp [other]

/-! ## The reset state (rules R48, R49) -/

/-- Settles O53: the reset state is the one a reset makes of itself. -/
theorem resetMeetsTheInvariant : Obligations.ResetMeetsTheInvariant := Inv.afterReset (s := State.reset) reference_ok

end

end Sys2Proof.Machine

/-! # The items of a compressed stream (rules R86 to R89, R139 to R141)

What an item does to the block is said once, of the result of its pass (`State.afterPass`): the decoder stands further on,
or has ended one way or the other. Each item's statement is that lemma at its effect, and so is the run item by item. -/

namespace Sys2Proof.Machine

section
variable {s : State}

/-! ## One pass (rule R140) -/

/-- The block after a pass of the decoder it holds. -/
def State.afterPass (s : State) : LzResult → State
  | .running r => { s with lzRun := some r }
  | .done out => if s.params.capacities.ob.allows out.length then s.lzDone out else s.lzTooLong
  | .corrupt => s.lzCorrupt

theorem runItem_of_effect {it : LzItem} {r : LzRun} {result : LzResult} (held : s.lzRun = some r)
    (effect : itemEffect it r = some result) : runItem it s = .next (s.afterPass result) := by
  have bound : s.lzRun.bind (itemEffect it) = some result := by rw [held, Option.bind_some, effect]
  rw [runItem, bound]
  cases result <;> rfl

/-- The three outcomes of the loop's tests on the bytes written. -/
theorem afterPass_lzSettle (declared : Word) (out input : List Byte) :
    Host.Outcome.next (s.afterPass (lzSettle declared out input)) =
      (if out.length < declared.toNat then .next { s with lzRun := some (.inBody declared out input) }
      else if out.length = declared.toNat then
        if s.params.capacities.ob.allows declared.toNat then .next { s with ob := out, lzRun := none, result := 0 }
        else outOfRange { s with lzRun := none }
      else .next { s with ob := [], lzRun := none, result := 4, err := s.err ||| 0x0010 } : Outcome) := by
  unfold lzSettle
  obtain below | full | beyond := Nat.lt_trichotomy out.length declared.toNat
  · rw [if_neg (by omega), if_neg (by omega), if_pos below]
    rfl
  · rw [if_neg (by omega), if_pos full, if_neg (by omega), if_pos full, State.afterPass, full]
    split
    · exact congrArg Host.Outcome.next (State.endWith_ok _)
    · rfl
  · rw [if_pos beyond, if_neg (by omega), if_neg (by omega)]
    rfl

/-- Settles O27: a header settles the decoder with nothing written. -/
theorem headerStartsTheDecoder : Obligations.HeaderStartsTheDecoder := by
  intro s n input held
  change runItem (.header n) s = _
  rw [runItem_of_effect held rfl, lzHeaderEffect, afterPass_lzSettle]
  by_cases zero : n = 0
  · subst zero
    simp
  · have positive : 0 < n.toNat := Nat.pos_of_ne_zero (BitVec.toNat_inj.ne.2 zero)
    rw [if_neg zero]
    exact if_pos positive

/-- Settles O28: both items settle the decoder with one more byte. -/
theorem literalAndEscapeAppendOneByte : Obligations.LiteralAndEscapeAppendOneByte := by
  intro s declared out input b held
  have settled (v : Byte) := afterPass_lzSettle (s := s) declared (out ++ [v]) input
  simp only [List.length_append, List.length_singleton] at settled
  exact ⟨(runItem_of_effect held rfl).trans (settled b), (runItem_of_effect held rfl).trans (settled _)⟩

/-- Settles O29, by whether the distance lies within the output; where it does, the copy settles the decoder. -/
theorem matchCopiesFromTheOutput : Obligations.MatchCopiesFromTheOutput := by
  intro s declared out input d l hd held
  have ran := runItem_of_effect (it := .copy d l) held rfl
  refine ⟨fun far => ?_, fun near => ⟨lzCopy d.toNat l.toNat out, copiedFrom_lzCopy ?_ near, ?_⟩⟩
  · refine ran.trans ?_
    rw [lzCopyEffect, if_pos far]
    rfl
  · exact Nat.pos_of_ne_zero (BitVec.toNat_inj.ne.2 hd)
  · refine ran.trans ?_
    rw [lzCopyEffect, if_neg (Nat.not_lt.2 near)]
    exact afterPass_lzSettle ..

/-- Settles O30: with no decoder no item can stand. -/
theorem itemOutsideAStreamIsIllegal : Obligations.ItemOutsideAStreamIsIllegal := fun s _ _ _ _ hrun =>
  ⟨itemEffect_none _ s hrun, itemEffect_none _ s hrun, itemEffect_none _ s hrun, itemEffect_none _ s hrun⟩

/-! ## The run item by item (rule R140) -/

theorem exec_toInstr (it : LzItem) (s : State) : exec it.toInstr s = runItem it s := by cases it <;> rfl

/-- An item that was read can stand where it was read. -/
theorem itemEffect_of_lzFetch {r r' : LzRun} {it : LzItem} (read : lzFetch r = .ok (it, r')) :
    ∃ result, itemEffect it r' = some result := by
  unfold lzFetch at read
  split at read <;> split at read <;> cases read
  · obtain ⟨-, n, rfl⟩ := decodeHeader_cases ‹_›
    exact ⟨_, rfl⟩
  · obtain ⟨-, ⟨b, -, rfl⟩ | ⟨d, l, -, rfl⟩ | rfl⟩ := decodeToken_cases ‹_›
    · exact ⟨_, rfl⟩
    · exact ⟨_, rfl⟩
    · exact ⟨_, rfl⟩

/-- A step of a block that holds a decoder is one pass of it. -/
theorem step_pass (s : State) (r : LzRun) : step { s with lzRun := some r } = .next (s.afterPass (lzPass r)) := by
  rw [step_stream rfl, stepStream, lzPass]
  cases read : lzFetch r with
  | error e => rfl
  | ok found =>
    obtain ⟨it, r'⟩ := found
    obtain ⟨result, effect⟩ := itemEffect_of_lzFetch read
    dsimp only
    rw [exec_toInstr, runItem_of_effect rfl effect, effect]
    cases result <;> rfl

/-- Where a decoder ends that writes these bytes, or fails. -/
def State.lzEnd (s : State) : Option (List Byte) → State
  | some out => s.afterPass (.done out)
  | none => s.afterPass .corrupt

/-- The steps of a block that holds a decoder lead to where the decoder ends, in one step for each byte left and one more. -/
theorem run_decoder (s : State) {fuel : Nat} {r : LzRun} (enough : r.unread.length < fuel) :
    ∃ k ≤ fuel, Host.Core.run core k { s with lzRun := some r } = .next (s.lzEnd (decodeFrom r)) := by
  induction fuel generalizing r with
  | zero => omega
  | succ fuel ih =>
    have first := step_pass s r
    rw [decodeFrom_eq]
    cases pass : lzPass r with
    | running r' =>
      have less := unread_of_lzPass pass
      obtain ⟨k, hk, rest⟩ := ih (r := r') (by omega)
      refine ⟨k + 1, by omega, ?_⟩
      rw [pass] at first
      simp only [Host.Core.run, core, first]
      exact rest
    | done out | corrupt =>
      refine ⟨1, by omega, ?_⟩
      rw [pass] at first
      simp only [Host.Core.run, core, first]
      rfl

/-- `LZ.DEC` ends where a decoder at the header of `IB` does. -/
theorem exec_lzDec_eq_lzEnd (hrun : s.lzRun = none) : exec .lzDec s = .next (s.lzEnd (lzDecompress s.ib)) := by
  rw [exec_lzDec, execLzDec]
  cases lzDecompress s.ib with
  | none =>
    simp only [State.lzEnd, State.afterPass, State.lzCorrupt, ← hrun]
    rfl
  | some out =>
    simp only [State.lzEnd, State.afterPass, State.lzDone, State.lzTooLong, finishWithin, ← hrun]
    split <;> rfl

/-- Settles O26: the item run ends where the decoder does, and there `LZ.DEC` ends. -/
theorem itemRunRefinesLzDec : Obligations.ItemRunRefinesLzDec := by
  intro s hrun
  obtain ⟨k, hk, ends⟩ := run_decoder s (r := .atHeader s.ib) (Nat.lt_succ_self _)
  exact ⟨k, hk, ends.trans (exec_lzDec_eq_lzEnd hrun).symm⟩

/-! ## The encoder's tokens (rules R87 to R89, R139) -/

theorem mem_lzTokensFrom {b : List Byte} {it : LzItem} {fuel i : Nat} (mem : it ∈ lzTokensFrom b fuel i) :
    ∃ j < b.length, it = (lzTokenAt b j).1 := by
  induction fuel generalizing i with
  | zero => cases mem
  | succ fuel ih =>
    unfold lzTokensFrom at mem
    split at mem
    case isTrue inside =>
      obtain rfl | later := List.mem_cons.1 mem
      · exact ⟨i, inside, rfl⟩
      · exact ih later
    case isFalse => cases mem

/-- Settles O21, by the token of the cursor: a match within the window and the lookahead, an escape, or a literal that
is no marker. -/
theorem encoderTokensAreInBounds : Obligations.EncoderTokensAreInBounds := by
  intro b it mem
  obtain ⟨i, inside, rfl⟩ := mem_lzTokensFrom mem
  by_cases found : 3 ≤ (lzMatch b i).len
  · obtain ⟨near, window, lookahead, -⟩ := lzMatch_agrees inside (by omega)
    have distance : (BitVec.ofNat 16 (lzMatch b i).dist).toNat = (lzMatch b i).dist := Nat.mod_eq_of_lt (by omega)
    have length : (BitVec.ofNat 8 (lzMatch b i).len).toNat = (lzMatch b i).len := Nat.mod_eq_of_lt (by omega)
    rw [lzTokenAt_match found]
    refine ⟨bne_iff_ne.2 (BitVec.toNat_inj.ne.1 ?_), nofun, ?_⟩
    · rw [distance]
      exact Nat.pos_iff_ne_zero.1 near
    · rintro _ _ ⟨⟩
      rw [distance, length]
      omega
  by_cases marker : b[i] = Config.lzMarker
  · rw [lzTokenAt_escape inside found marker]
    exact ⟨rfl, nofun, nofun⟩
  · rw [lzTokenAt_literal inside found marker]
    exact ⟨bne_iff_ne.2 marker, nofun, nofun⟩

end

end Sys2Proof.Machine

/-! # The slots of a transmission (rules R160 to R171, R204)

The bits of a slot, and the samples of a run of slots, are blocks of one length laid end to end; element `n` of such a list
is element `n % b` of block `n / b`. -/

namespace Sys2Proof.Machine

/-! ## Blocks of one length -/

section
variable {α : Type} {b : Nat}

theorem length_flatMap_range {f : Nat → List α} (block : ∀ i, (f i).length = b) (a : Nat) :
    ((List.range a).flatMap f).length = a * b := by
  simp [List.length_flatMap, block]

theorem getElem_flatMap_range {f : Nat → List α} (block : ∀ i, (f i).length = b) {a n : Nat}
    (h : n < ((List.range a).flatMap f).length) :
    ((List.range a).flatMap f)[n] = (f (n / b))[n % b]'(by
      rw [block]; rw [length_flatMap_range block] at h
      exact Nat.mod_lt _ (Nat.pos_of_ne_zero (by rintro rfl; simp at h))) := by
  induction a with
  | zero => simp at h
  | succ a ih =>
    have len := length_flatMap_range block a
    rw [length_flatMap_range block, Nat.succ_mul] at h
    simp only [List.range_succ, List.flatMap_append, List.flatMap_singleton]
    by_cases earlier : n < a * b
    · rw [List.getElem_append_left (by omega)]
      exact ih (by omega)
    · rw [List.getElem_append_right (by omega)]
      have q : n / b = a := Nat.div_eq_of_lt_le (by omega) (by rw [Nat.succ_mul]; omega)
      have r : n % b = n - a * b := by
        have := Nat.div_add_mod' n b
        rw [q] at this
        omega
      simp only [q, r, len]

/-- Blocks that continue one numbering. -/
theorem flatMap_flatMap_range (f : Nat → List α) (a b : Nat) :
    ((List.range a).flatMap fun i => (List.range b).flatMap fun j => f (i * b + j)) = (List.range (a * b)).flatMap f := by
  induction a with
  | zero => simp
  | succ a ih =>
    simp only [List.range_succ, List.flatMap_append, List.flatMap_singleton, ih, Nat.succ_mul, List.range_add,
      List.flatMap_map]

end

theorem map_getD_range {bits : List Bit} {m : Nat} (h : bits.length ≤ m) :
    (List.range m).map (fun n => bits.getD n false) = bits ++ List.replicate (m - bits.length) false := by
  refine List.ext_getElem (by simp [h]) fun n _ _ => ?_
  rw [List.getElem_map, List.getElem_range]
  by_cases inside : n < bits.length
  · rw [List.getElem_append_left inside, List.getD_eq_getElem _ _ inside]
  · rw [List.getElem_append_right (by omega), List.getElem_replicate, List.getD_eq_default _ _ (by omega)]

theorem activeChannels_map_val {α : Type} {n : Nat} (h : n ≤ 16) (f : Nat → α) :
    ((activeChannels n).map fun c => f c.val) = (List.range n).map f := by
  have channels : ∀ m : Fin 17, (activeChannels m.val).map Fin.val = List.range m.val := by decide
  rw [← channels ⟨n, by omega⟩, List.map_map]
  rfl

/-! ## Deinterleaving (rules R160, R162, R204) -/

/-- The bits of a slot in which every channel decides, its bit on each plane being given. -/
theorem deinterleaveSlot_decided {dec : Vector Decision 16} {n k : Nat} (hn : 0 < n) (hn16 : n ≤ 16) {bit : Nat → Nat → Bit}
    (decided : ∀ c : Fin 16, c.val < n → ∃ m, dec.get c = some m ∧ ∀ j < k, m.testBit (k - 1 - j) = bit j c.val) :
    deinterleaveSlot dec n k = some ((List.range k).flatMap fun j => (List.range n).map (bit j)) := by
  have heard : ¬∀ c : Fin 16, c.val < n → dec.get c = none := fun silent => by
    obtain ⟨m, hm, -⟩ := decided 0 hn
    exact absurd ((silent 0 hn).symm.trans hm) nofun
  rw [deinterleaveSlot_heard k heard, slotBits]
  refine congrArg some (List.flatMap_congr fun j hj => ?_)
  rw [← activeChannels_map_val hn16, ← List.filterMap_eq_map]
  refine List.filterMap_congr fun c hc => ?_
  obtain ⟨m, hm, bits⟩ := decided c (mem_activeChannels.1 hc)
  rw [hm, planeBit, Option.map_some, bits j (List.mem_range.1 hj)]
  rfl

/-- Settles O41: bit `j` of symbol `i` of channel `c` is input bit `(i·K + j)·N + c`, and the slots, the planes and the
channels are read in the order of that number. -/
theorem deinterleaveInvertsTheModulator : Obligations.DeinterleaveInvertsTheModulator := by
  intro s t profile legal short room ran
  obtain ⟨_, made, -, covered, -, carried⟩ := symbolBitsCarryTheInputBits s profile short room
  obtain rfl : t = _ := Host.Outcome.next.inj (ran.symm.trans made)
  have hn := (profileOk_pos profile).1
  have hn16 : s.n ≤ 16 := by
    simp only [List.mem_cons, List.not_mem_nil, or_false] at legal
    omega
  have slot : ∀ i ∈ List.range t.numSlots.toNat,
      (deinterleaveSlot (perChannel s.n none fun c => (t.syms.get c)[i]?) s.n s.k).getD [] =
        (List.range s.k).flatMap fun j => (List.range s.n).map fun c =>
          s.txBits.getD ((i * s.k + j) * s.n + c) false := by
    intro i hi
    refine congrArg (Option.getD · []) (deinterleaveSlot_decided hn hn16 fun c hc => ?_)
    obtain ⟨count, bits⟩ := carried c hc
    have inside : i < (t.syms.get c).length := count ▸ List.mem_range.1 hi
    exact ⟨_, by rw [perChannel_active _ _ hc, List.getElem?_eq_getElem inside], bits i inside⟩
  rw [List.flatMap_congr slot, ← map_getD_range covered]
  simp only [List.map_eq_flatMap]
  rw [flatMap_flatMap_range fun q => (List.range s.n).flatMap fun c => [s.txBits.getD (q * s.n + c) false]]
  exact flatMap_flatMap_range (fun n => [s.txBits.getD n false]) _ _

/-! ## `MOD.RUN` (rules R165 to R171) -/

section
variable {u : State}

/-- The block with the slot counter at `i`. -/
def State.atSlot (u : State) (i : Nat) : State := { u with slotIdx := BitVec.ofNat 32 i }

/-- The ideal samples of the slots before `count`, in order. -/
def State.idealSlots (u : State) (count : Nat) : List Sample :=
  (List.range count).flatMap fun i => chord u.amplitude (u.atSlot i).slotTones u.ns

/-- The block after `count` slots were sounded from slot 0 on. -/
def State.afterSlots (u : State) (count : Nat) : State :=
  { u with
    samples := u.samples ++ (u.idealSlots count).map (quantise u.params.quantiser)
    slotIdx := BitVec.ofNat 32 count, result := 0 }

theorem idealSlots_succ (i : Nat) : u.idealSlots (i + 1) =
    u.idealSlots i ++ chord u.amplitude (u.atSlot i).slotTones u.ns := by
  rw [State.idealSlots, List.range_succ, List.flatMap_append, List.flatMap_singleton]
  rfl

theorem afterSlots_zero (first : u.slotIdx = 0) (ok : u.result = 0) : u.afterSlots 0 = u := by
  have none : u.idealSlots 0 = [] := rfl
  rw [State.afterSlots, none, List.map_nil, List.append_nil, ← ok]
  exact congrArg (fun x => { u with slotIdx := x }) first.symm

theorem afterSlots_all : (u.afterSlots u.numSlots.toNat).slotIdx = u.numSlots := by simp [State.afterSlots]

theorem idealSlots_length (count : Nat) : (u.idealSlots count).length = count * u.ns :=
  length_flatMap_range (fun _ => chord_length ..) count

/-- Sample `n` of the slots is sample `n mod Ns` of slot `n / Ns` (rule R168), as it can be told after them. -/
theorem toReal_idealSlots (hk : u.k ∈ [1, 2, 3]) {count n : Nat} (h : n < (u.idealSlots count).length) :
    Sample.toReal (u.idealSlots count)[n] = idealSlotSample ((u.afterSlots count).atSlot (n / u.ns)) (n % u.ns) := by
  have sample : (u.idealSlots count)[n] = chordSample u.amplitude (u.atSlot (n / u.ns)).slotTones (n % u.ns) :=
    (getElem_flatMap_range (fun _ => chord_length ..) h).trans (chord_getElem _)
  rw [sample]
  exact toReal_slotSample (s := (u.afterSlots count).atSlot (n / u.ns)) hk _

section
variable (sym : u.symValid = true) (cal : u.calValid = true)
  (present : ∀ c : Fin 16, c.val < u.n → (u.syms.get c).length = u.numSlots.toNat)
  (room : u.params.capacities.samples.allows (u.samples.length + u.numSlots.toNat * u.ns) = true)
include sym cal present room

theorem exec_modSlot_afterSlots {i : Nat} (left : i < u.numSlots.toNat) :
    exec .modSlot (u.afterSlots i) = .next (u.afterSlots (i + 1)) := by
  have slot : (u.afterSlots i).slotIdx.toNat = i := Nat.mod_eq_of_lt (left.trans u.numSlots.isLt)
  have fits : u.params.capacities.samples.allows ((u.afterSlots i).samples.length + u.ns) = true := by
    refine Capacity.allows_of_le ?_ room
    have slots : (i + 1) * u.ns ≤ u.numSlots.toNat * u.ns := Nat.mul_le_mul_right _ left
    rw [Nat.succ_mul] at slots
    simp only [State.afterSlots, List.length_append, List.length_map, idealSlots_length]
    omega
  have symbol : ∀ c : Fin 16, c.val < u.n → (u.afterSlots i).slotIdx.toNat < (u.syms.get c).length := fun c hc => by
    rwa [slot, present c hc]
  refine (exec_modSlot_slotLeft (s := u.afterSlots i) sym cal (slot.trans_lt left) symbol).trans ?_
  refine (finishWithin_eq_next fits).trans ?_
  simp only [State.afterSlots, idealSlots_succ, List.map_append, List.append_assoc, BitVec.ofNat_add]
  rfl

theorem runAll_modSlots {i m : Nat} (left : i + m ≤ u.numSlots.toNat) :
    runAll (List.replicate m .modSlot) (u.afterSlots i) = .next (u.afterSlots (i + m)) := by
  induction m generalizing i with
  | zero => rfl
  | succ m ih =>
    rw [List.replicate_succ, runAll_cons_of_next (exec_modSlot_afterSlots sym cal present room (by omega)),
      ih (by omega), Nat.add_right_comm, Nat.add_assoc]

theorem runAll_everySlot (first : u.slotIdx = 0) (ok : u.result = 0) :
    runAll (List.replicate u.numSlots.toNat .modSlot) u = .next (u.afterSlots u.numSlots.toNat) := by
  have ran := runAll_modSlots sym cal present room (i := 0) (Nat.zero_add _).le
  rwa [afterSlots_zero first ok, Nat.zero_add] at ran

end

/-- Settles O37: the symbols made, `NUM_SLOTS` slots are sounded one after another, and then none is left. -/
theorem modRunEmitsEverySlot : Obligations.ModRunEmitsEverySlot := by
  intro s inv cal short roomForSymbols slots room
  have profile := (inv.calibration cal).profile
  obtain ⟨-, hk, -⟩ := profile_values inv.registers profile
  have made := runAll_ilv_symb profile short roomForSymbols
  have count := numSlots_afterIlv_afterSymb (profileOk_pos profile).1 short
  have present : ∀ c : Fin 16, c.val < s.n →
      (s.afterIlv.afterSymb.syms.get c).length = s.afterIlv.afterSymb.numSlots.toNat := fun c hc => by
    rw [syms_afterIlv_afterSymb hc, symbolize_length, interleaveStream_length, count]
  have fits : s.params.capacities.samples.allows
      (s.samples.length + s.afterIlv.afterSymb.numSlots.toNat * s.ns) = true := by rwa [count]
  have last := afterSlots_all (u := s.afterIlv.afterSymb)
  refine ⟨s.afterIlv.afterSymb.afterSlots s.afterIlv.afterSymb.numSlots.toNat,
    s.afterIlv.afterSymb.idealSlots s.afterIlv.afterSymb.numSlots.toNat, ?_, ⟨_, made, rfl⟩, count, last, rfl, ?_, rfl,
    idealSlots_length _, fun n h =>
      toReal_idealSlots (u := s.afterIlv.afterSymb) hk h⟩
  · rw [modRun, made]
    exact runAll_everySlot rfl cal present fits rfl rfl
  · exact exec_modSlot_noSlotLeft rfl cal (congrArg BitVec.toNat last).ge

end

end Sys2Proof.Machine

/-! # What every instruction writes (rules R21 to R46, R40, R283)

How an instruction can end is said once more, now with what it writes, the room it needed and the codes that its row of
rule R283 lists (`EndState`): the rules on errors above ask less than that. The three statements on all instructions are
read off it. -/

namespace Sys2Proof

/-! ## The table -/

/-- The codes other than `OK` with which an instruction ends and changes nothing but `RESULT` and `ERR`, whatever the
capacities of the buffers are (rule R283). -/
def Instr.failures : Instr → List Machine.ResultCode
  | .csrw _ _ => [.illegalCommand, .rangeError]
  | .csrr a => if a = 0x09 then [] else [.illegalCommand]
  | .ldcal _ => [.configError, .noViableBand]
  | .lzEnc | .frame => [.rangeError]
  | .ilv => [.configError, .rangeError]
  | .symb | .modPre | .demTick | .demIq => [.configError]
  | .modSlot => [.configError, .idle]
  | .pwrUpd | .syncStep => [.idle]
  | .lzHeader _ | .lzLiteral _ | .lzMatch _ _ | .lzEscape => [.illegalCommand]
  | .nop | .reset | .crcInit | .crcStep _ | .crcBuf | .sumBuf | .lzDec | .syncRst => []

/-- The capacity of the buffer an instruction fills; an instruction that fills none needs no room (rule R40). -/
def Instr.capacity (c : Config.Capacities) : Instr → Config.Capacity
  | .lzEnc | .lzDec | .lzHeader _ | .lzLiteral _ | .lzMatch _ _ | .lzEscape => c.ob
  | .ilv => c.stream
  | .symb => c.syms
  | .modSlot | .modPre => c.samples
  | .demTick | .demIq => c.rxBits
  | .syncStep => c.pktQ
  | .frame => c.txBits
  | .nop | .reset | .csrw _ _ | .csrr _ | .ldcal _ | .crcInit | .crcStep _ | .crcBuf | .sumBuf | .pwrUpd
  | .syncRst => none

namespace Machine

/-- What an instruction that ends well has written but for its code: the last index is that state. -/
inductive Writes : Instr → State → State → Prop
  | nop {s : State} : Writes .nop s s
  | csrw {s : State} {a : Byte} {v : Half} (r : Csr) : Writes (.csrw a v) s (s.writeCsr r v)
  | csrr {s : State} {a : Byte} (other : a ≠ 0x09) (v : Word) : Writes (.csrr a) s { s with rdata := v }
  | ldcal {s : State} {imm : Half} (x : Vector Half 16) :
      Writes (.ldcal imm) s { s with carrier := x, calValid := true }
  | crcInit {s : State} (x : Half) : Writes .crcInit s { s with crc := x }
  | crcStep {s : State} {b : Byte} (x : Half) : Writes (.crcStep b) s { s with crc := x }
  | crcBuf {s : State} (x : Half) : Writes .crcBuf s { s with crc := x }
  | sumBuf {s : State} (x : Half) : Writes .sumBuf s { s with sum := x }
  | lzEnc {s : State} {out : List Byte} (room : s.params.capacities.ob.allows out.length = true) :
      Writes .lzEnc s { s with ob := out }
  | lzDec {s : State} {out : List Byte} (room : s.params.capacities.ob.allows out.length = true) :
      Writes .lzDec s { s with ob := out }
  | ilv {s : State} {x : Vector (List Bit) 16}
      (room : ∀ c, s.params.capacities.stream.allows (x.get c).length = true) :
      Writes .ilv s { s with stream := x, ilvValid := true, symValid := false, slotIdx := 0, numSlots := 0 }
  | symb {s : State} {x : Vector (List Nat) 16} (slots : Word)
      (room : ∀ c, s.params.capacities.syms.allows (x.get c).length = true) :
      Writes .symb s { s with syms := x, numSlots := slots, slotIdx := 0, symValid := true }
  | modSlot {s : State} {x : List Sample} (room : s.params.capacities.samples.allows x.length = true) :
      Writes .modSlot s { s with samples := x, slotIdx := s.slotIdx + 1 }
  | modPre {s : State} {x : List Sample} (room : s.params.capacities.samples.allows x.length = true) :
      Writes .modPre s { s with samples := x }
  | pwrUpd {s : State} (p : Rat) : Writes .pwrUpd s { s with power := p }
  | decisions {s : State} {i : Instr} (demodulates : i = .demTick ∨ i = .demIq) (dec : Vector Decision 16)
      {x : List Bit} (room : s.params.capacities.rxBits.allows x.length = true) :
      Writes i s { s with dec := dec, rxBits := x, slotYielded := true }
  | hunt {s : State} (n : Nat) (x : SyncState) :
      Writes .syncStep s { s with rxBits := s.rxBits.drop n, syncState := x }
  | assemble {s : State} : Writes .syncStep s s.assemble
  | deliver {s : State} (room : s.params.capacities.pktQ.allows (s.pktQ.length + 1) = true) :
      Writes .syncStep s s.deliver
  | syncRst {s : State} : Writes .syncRst s { s with syncState := .hunting, rxBits := [], pktBuf := [] }
  | frame {s : State} {x : List Bit} (room : s.params.capacities.txBits.allows x.length = true) :
      Writes .frame s { s with txBits := x }

/-- How the instruction `i`, run in `s`, can end; the last index is the state it ends in. -/
inductive EndState : Instr → State → State → Prop
  | ok {i : Instr} {s u : State} (writes : Writes i s u) : EndState i s (u.endWith .ok)
  /-- Nothing but `RESULT` and `ERR` changes: a code of the row, or no room in the buffer it fills (rule R40). -/
  | stopped {i : Instr} {s : State} {code : ResultCode}
      (listed : code ∈ i.failures ∨ code = .rangeError ∧ i.capacity s.params.capacities ≠ none) :
      EndState i s (s.endWith code)
  | reset {s : State} : EndState .reset s s.afterReset
  /-- `CSRR 0x09` writes no code (rule R114). -/
  | readResult {s : State} (v : Word) : EndState (.csrr 0x09) s { s with rdata := v }
  /-- Every active channel is silent (rules R205, R215). -/
  | silent {i : Instr} {s : State} (demodulates : i = .demTick ∨ i = .demIq) (dec : Vector Decision 16) :
      EndState i s ({ s with dec := dec, slotYielded := false }.endWith .idle)
  | corrupt {s : State} : EndState .lzDec s ({ s with ob := [] }.endWith .corruptStream)
  | overflow {s : State} : EndState .syncStep s (s.overflow.endWith .bufferOverflow)
  /-- An item leaves its stream running (log entry 8). -/
  | itemRuns {it : LzItem} {s : State} (held : s.lzRun ≠ none) (r : LzRun) :
      EndState it.toInstr s { s with lzRun := some r }
  | itemDone {it : LzItem} {s : State} (held : s.lzRun ≠ none) {out : List Byte}
      (room : s.params.capacities.ob.allows out.length = true) : EndState it.toInstr s (s.lzDone out)
  | itemTooLong {it : LzItem} {s : State} (held : s.lzRun ≠ none) (finite : s.params.capacities.ob ≠ none) :
      EndState it.toInstr s s.lzTooLong
  | itemCorrupt {it : LzItem} {s : State} (held : s.lzRun ≠ none) : EndState it.toInstr s s.lzCorrupt

/-! ## Every instruction ends so -/

/-- If the outcome is a next state, `i` can end in it. -/
def CanEnd (i : Instr) (s : State) (o : Outcome) : Prop := ∀ t, o = .next t → EndState i s t

section
variable {i : Instr} {s u : State}

theorem canEnd_next (h : EndState i s u) : CanEnd i s (.next u) := by
  rintro _ ⟨⟩; exact h

theorem canEnd_fault {f : Fault} : CanEnd i s (.fault f) := by
  rintro _ ⟨⟩

theorem canEnd_ok (writes : Writes i s u) : CanEnd i s (finish .ok u) := canEnd_next (.ok writes)

theorem canEnd_failed {code : ResultCode} (listed : code ∈ i.failures := by simp [Instr.failures]) : CanEnd i s (finish code s) :=
  canEnd_next (.stopped (.inl listed))

theorem canEnd_ite {p : Prop} [Decidable p] {o o' : Outcome} (yes : CanEnd i s o) (no : CanEnd i s o') :
    CanEnd i s (if p then o else o') := by
  split
  · exact yes
  · exact no

theorem canEnd_finishWithin {c : Config.Capacity} {count : Nat} (fills : i.capacity s.params.capacities = c)
    (writes : c.allows count = true → Writes i s u) : CanEnd i s (finishWithin c count u s) := by
  intro t ht
  obtain ⟨room, rfl⟩ | ⟨full, rfl⟩ := finishWithin_next ht
  · exact .ok (writes room)
  · exact .stopped (.inr ⟨rfl, fills ▸ Capacity.ne_none_of_full full⟩)

theorem execCsrw_canEnd (a : Byte) (imm : Half) : CanEnd (.csrw a imm) s (execCsrw a imm s) := by
  unfold execCsrw
  split
  · exact canEnd_failed
  · exact canEnd_ite (canEnd_ite (canEnd_ok (.csrw _)) canEnd_failed)
      canEnd_failed

theorem execCsrr_canEnd (a : Byte) : CanEnd (.csrr a) s (execCsrr a s) := by
  unfold execCsrr
  split
  case h_1 none =>
    have other : a ≠ 0x09 := fun h => absurd (none.symm.trans (csrOf_eq_result.2 h)) nofun
    exact canEnd_failed (by rw [Instr.failures, if_neg other]; decide)
  case h_2 result =>
    obtain rfl : a = 0x09 := csrOf_eq_result.1 result
    exact canEnd_next (.readResult _)
  case h_3 r notResult found =>
    have other : a ≠ 0x09 := fun h => notResult (Option.some.inj (found.symm.trans (csrOf_eq_result.2 h)))
    exact canEnd_ok (.csrr other _)

theorem runItem_canEnd (it : LzItem) : CanEnd it.toInstr s (runItem it s) := by
  intro t ht
  have held {result : LzResult} (h : s.lzRun.bind (itemEffect it) = some result) : s.lzRun ≠ none := by
    intro none
    simp [none] at h
  obtain ⟨-, rfl⟩ | ⟨r, effect, rfl⟩ | ⟨out, effect, rfl⟩ | ⟨effect, rfl⟩ := runItem_next ht
  · exact .stopped (.inl (by cases it <;> simp [LzItem.toInstr, Instr.failures]))
  · exact .itemRuns (held effect) r
  · split
    · exact .itemDone (held effect) ‹_›
    · exact .itemTooLong (held effect) (Capacity.ne_none_of_full (Bool.eq_false_iff.2 ‹_›))
  · exact .itemCorrupt (held effect)

theorem takeDecisions_canEnd (demodulates : i = .demTick ∨ i = .demIq) (dec : Vector Decision 16) :
    CanEnd i s (takeDecisions dec s) := by
  intro t ht
  obtain ⟨-, rfl⟩ | ⟨bits, -, ⟨room, rfl⟩ | ⟨full, rfl⟩⟩ := takeDecisions_next ht
  · exact .silent demodulates dec
  · exact .ok (.decisions demodulates dec (by simpa using room))
  · refine .stopped (.inr ⟨rfl, ?_⟩)
    obtain rfl | rfl := demodulates <;> exact Capacity.ne_none_of_full full

theorem execSyncStep_canEnd : CanEnd .syncStep s (execSyncStep s) := by
  unfold execSyncStep
  split
  · unfold huntStep
    split
    · exact canEnd_ok (.hunt _ _)
    · exact canEnd_ite (canEnd_ok (.hunt _ s.syncState)) canEnd_failed
  · refine canEnd_ite (canEnd_finishWithin rfl .deliver) (canEnd_ite (canEnd_next .overflow) ?_)
    exact canEnd_ite (canEnd_ok .assemble) canEnd_failed

theorem exec_canEnd (i : Instr) (s : State) : CanEnd i s (exec i s) := by
  cases i with
  | nop => exact canEnd_ok .nop
  | reset =>
    change CanEnd _ _ (finish .ok s.afterReset)
    rw [finish_ok_afterReset]
    exact canEnd_next .reset
  | csrw a imm => exact execCsrw_canEnd a imm
  | csrr a => exact execCsrr_canEnd a
  | ldcal imm =>
    exact canEnd_ite canEnd_failed (canEnd_ite canEnd_failed (canEnd_ok (.ldcal _)))
  | crcInit => exact canEnd_ok (.crcInit _)
  | crcStep b => exact canEnd_ok (.crcStep _)
  | crcBuf => exact canEnd_ok (.crcBuf _)
  | sumBuf => exact canEnd_ok (.sumBuf _)
  | lzEnc => exact canEnd_ite (canEnd_finishWithin rfl .lzEnc) canEnd_failed
  | lzDec =>
    change CanEnd _ _ (execLzDec s)
    unfold execLzDec
    split
    · exact canEnd_finishWithin rfl .lzDec
    · exact canEnd_next .corrupt
  | ilv =>
    refine canEnd_ite canEnd_failed (canEnd_ite canEnd_failed (canEnd_finishWithin rfl fun room => .ilv ?_))
    exact perChannel_allows fun c _ => by rwa [interleaveStream_length]
  | symb =>
    refine canEnd_ite canEnd_failed (canEnd_finishWithin rfl fun room => .symb _ ?_)
    exact perChannel_allows fun c hc => by rw [symbolize_length]; exact allows_longestSyms.1 room c hc
  | modSlot =>
    refine canEnd_ite canEnd_failed (canEnd_ite canEnd_failed ?_)
    split
    · exact canEnd_fault
    · exact canEnd_finishWithin rfl fun room => .modSlot (by simpa using room)
  | modPre => exact canEnd_ite canEnd_failed (canEnd_finishWithin rfl fun room => .modPre (by simpa using room))
  | pwrUpd => exact canEnd_ite canEnd_failed (canEnd_ok (.pwrUpd _))
  | demTick =>
    refine canEnd_ite canEnd_failed (canEnd_ite canEnd_failed ?_)
    split
    · exact canEnd_fault
    · exact takeDecisions_canEnd (.inl rfl) _
  | demIq =>
    exact canEnd_ite canEnd_failed
      (canEnd_ite canEnd_failed (canEnd_ite canEnd_failed (takeDecisions_canEnd (.inr rfl) _)))
  | syncStep => exact execSyncStep_canEnd
  | syncRst => exact canEnd_ok .syncRst
  | frame => exact canEnd_ite (canEnd_finishWithin rfl fun room => .frame (by rwa [frameBits_length])) canEnd_failed
  | lzHeader n => exact runItem_canEnd (.header n)
  | lzLiteral b => exact runItem_canEnd (.literal b)
  | lzMatch d l => exact runItem_canEnd (.copy d l)
  | lzEscape => exact runItem_canEnd .escape

end

/-! ## The statements -/

theorem ResultCode.word_eq_seven {code : ResultCode} (h : code.word = 7) : code = .rangeError := by
  revert h
  cases code <;> decide

/-- Settles O56, by how the instruction ends. -/
theorem commandsEndWithListedCodes : Obligations.CommandsEndWithListedCodes := by
  intro i s t h
  cases exec_canEnd i s t h with
  | ok writes =>
    cases writes with
    | csrr other => exact (if_neg other).mpr (.inl rfl)
    | decisions demodulates => obtain rfl | rfl := demodulates <;> exact .inl rfl
    | _ => simp
  | stopped listed =>
    obtain listed | ⟨rfl, finite⟩ := listed
    · cases i with
      | csrr a =>
        by_cases result : a = 0x09
        · rw [Instr.failures, if_pos result] at listed
          exact absurd listed List.not_mem_nil
        · rw [Instr.failures, if_neg result] at listed
          obtain rfl := List.mem_singleton.1 listed
          exact (if_neg result).mpr (.inr rfl)
      | csrw | ldcal | ilv | modSlot => obtain rfl | rfl := List.mem_pair.1 listed <;> simp
      | lzEnc | frame | symb | modPre | demTick | demIq | pwrUpd | syncStep | lzHeader | lzLiteral | lzMatch | lzEscape =>
        obtain rfl := List.mem_singleton.1 listed
        simp
      | nop | reset | crcInit | crcStep | crcBuf | sumBuf | lzDec | syncRst => exact absurd listed List.not_mem_nil
    · cases i with
      | lzEnc | frame | ilv => simp
      | lzDec | symb | modPre => exact .inr (.inr ⟨finite, rfl⟩)
      | modSlot | demTick | demIq | syncStep => exact .inr (.inr (.inr ⟨finite, rfl⟩))
      | lzHeader | lzLiteral | lzMatch | lzEscape => exact .inr (.inr (.inr (.inr ⟨finite, rfl⟩)))
      | _ => exact absurd rfl finite
  | reset => rfl
  | readResult => exact (if_pos rfl).mpr rfl
  | silent demodulates => obtain rfl | rfl := demodulates <;> simp
  | corrupt => simp
  | overflow => simp
  | @itemRuns it => cases it <;> exact .inl rfl
  | @itemDone it => cases it <;> exact .inr (.inl rfl)
  | @itemTooLong it _ _ finite => cases it <;> exact .inr (.inr (.inr (.inr ⟨finite, rfl⟩)))
  | @itemCorrupt it => cases it <;> exact .inr (.inr (.inr (.inl rfl)))

/-- Settles O57, by how the instruction ends: what it writes it had room for, and only an end that changes nothing else
leaves 7 in `RESULT`. -/
theorem commandsStayWithinCapacities : Obligations.CommandsStayWithinCapacities := by
  intro i s t h
  cases exec_canEnd i s t h with
  | ok writes =>
    cases writes with
    | csrw r => cases r <;> simp [State.writeCsr]
    | _ => simp [*]
  | stopped =>
    refine ⟨.inl rfl, .inl rfl, .inl rfl, .inl rfl, .inl rfl, .inl le_rfl, .inl rfl, .inr ⟨rfl, rfl⟩, fun seven _ => ?_⟩
    obtain rfl := ResultCode.word_eq_seven seven
    rfl
  | reset => simp [State.reset]
  | readResult => simp +contextual
  | itemRuns => simp +contextual
  | itemDone held room => simp [room]
  | itemTooLong =>
    exact ⟨.inl rfl, .inl rfl, .inl rfl, .inl rfl, .inl rfl, .inl le_rfl, .inl rfl, .inr ⟨rfl, rfl⟩, fun _ _ => rfl⟩
  | silent | corrupt | overflow | itemCorrupt => simp

/-- Settles O60, by how the instruction ends. -/
theorem stateIsWrittenOnlyByItsWriters : Obligations.StateIsWrittenOnlyByItsWriters := by
  intro i s t h notReset
  cases exec_canEnd i s t h with
  | ok writes =>
    cases writes with
    | csrw r => cases r <;> simp [State.writeCsr]
    | decisions demodulates => obtain rfl | rfl := demodulates <;> simp
    | _ => simp
  | reset => exact absurd rfl notReset
  | silent demodulates => obtain rfl | rfl := demodulates <;> simp
  | itemRuns held | itemDone held | itemTooLong held | itemCorrupt held => simp [held]
  | stopped | readResult | corrupt | overflow => simp

end Machine

end Sys2Proof

/-! # The invariant and the faults (rules R118, R281)

The two faults are accesses to a bin and to a symbol that do not exist. Under the invariant every carrier of a calibrated
block lies in the band, and every slot counted has its symbols, so every command answers. -/

namespace Sys2Proof.Machine

/-- The outcome is a next state. -/
def Answers (o : Outcome) : Prop := ∃ t, o = .next t

section
variable {s : State}

theorem answers_finish {code : ResultCode} : Answers (finish code s) := ⟨_, rfl⟩

theorem answers_ite {p : Prop} [Decidable p] {o o' : Outcome} (yes : p → Answers o) (no : ¬p → Answers o') :
    Answers (if p then o else o') := by
  split
  · exact yes ‹_›
  · exact no ‹_›

theorem answers_finishWithin {c : Config.Capacity} {count : Nat} {t : State} : Answers (finishWithin c count t s) :=
  answers_ite (fun _ => answers_finish) fun _ => answers_finish

theorem takeDecisions_answers (dec : Vector Decision 16) : Answers (takeDecisions dec s) := by
  unfold takeDecisions
  split
  · exact answers_finish
  · exact answers_finishWithin

theorem runItem_answers (it : LzItem) : Answers (runItem it s) := by
  unfold runItem
  split
  · exact answers_finish
  all_goals exact ⟨_, rfl⟩

theorem execCsrr_answers (a : Byte) : Answers (execCsrr a s) := by
  unfold execCsrr
  split
  · exact answers_finish
  · exact ⟨_, rfl⟩
  · exact answers_finish

theorem execCsrw_answers (a : Byte) (imm : Half) : Answers (execCsrw a imm s) := by
  unfold execCsrw
  split
  · exact answers_finish
  · exact answers_ite (fun _ => answers_ite (fun _ => answers_finish) fun _ => answers_finish) fun _ => answers_finish

theorem execSyncStep_answers : Answers (execSyncStep s) := by
  unfold execSyncStep
  split
  · unfold huntStep
    split
    · exact answers_finish
    · exact answers_ite (fun _ => answers_finish) fun _ => answers_finish
  · exact answers_ite (fun _ => answers_finishWithin) fun _ => answers_ite (fun _ => answers_finish) fun _ =>
      answers_ite (fun _ => answers_finish) fun _ => answers_finish

/-- The carriers of a calibrated block lie in the band (rule R49 (b)). -/
theorem CalibrationHolds.inBand (h : CalibrationHolds s) (c : Fin 16) (hc : c.val < s.n) :
    2000 ≤ s.carrierHz c ∧ s.carrierHz c ≤ 10000 := by
  refine ⟨?_, h.highest c hc⟩
  rw [h.spaced c hc]
  exact h.lowest.trans (Nat.le_add_right ..)

theorem execDemTick_answers (h : Inv s) : Answers (execDemTick s) := by
  refine answers_ite (fun _ => answers_finish) fun ready => answers_ite (fun _ => answers_finish) fun _ => ?_
  have cal : s.calValid = true := by
    rw [Bool.not_eq_true, Bool.not_eq_false', Bool.and_eq_true] at ready
    exact ready.2
  rw [missingBin_eq_none (h.calibration cal).inBand]
  exact takeDecisions_answers _

theorem execModSlot_answers (h : Inv s) : Answers (execModSlot s) := by
  refine answers_ite (fun _ => answers_finish) fun ready => answers_ite (fun _ => answers_finish) fun left => ?_
  have sym : s.symValid = true := by
    rw [Bool.not_eq_true, Bool.not_eq_false', Bool.and_eq_true] at ready
    exact ready.1
  have present : ∀ c : Fin 16, c.val < s.n → s.slotIdx.toNat < (s.syms.get c).length := fun c hc =>
    (Nat.not_le.1 left).trans_eq ((h.symbols sym).lengths c hc).symm
  rw [missingSymbol_eq_none present]
  exact answers_finishWithin

theorem exec_answers (h : Inv s) (i : Instr) : Answers (exec i s) := by
  cases i with
  | nop | reset | crcInit | crcStep | crcBuf | sumBuf | syncRst => exact answers_finish
  | csrw a imm => exact execCsrw_answers a imm
  | csrr a => exact execCsrr_answers a
  | ldcal imm => exact answers_ite (fun _ => answers_finish) fun _ => answers_ite (fun _ => answers_finish) fun _ => answers_finish
  | lzEnc | frame => exact answers_ite (fun _ => answers_finishWithin) fun _ => answers_finish
  | lzDec =>
    change Answers (execLzDec s)
    unfold execLzDec
    split
    · exact answers_finishWithin
    · exact answers_finish
  | ilv =>
    exact answers_ite (fun _ => answers_finish) fun _ => answers_ite (fun _ => answers_finish) fun _ =>
      answers_finishWithin
  | symb | modPre => exact answers_ite (fun _ => answers_finish) fun _ => answers_finishWithin
  | modSlot => exact execModSlot_answers h
  | pwrUpd => exact answers_ite (fun _ => answers_finish) fun _ => answers_finish
  | demTick => exact execDemTick_answers h
  | demIq =>
    exact answers_ite (fun _ => answers_finish) fun _ => answers_ite (fun _ => answers_finish) fun _ =>
      answers_ite (fun _ => answers_finish) fun _ => takeDecisions_answers _
  | syncStep => exact execSyncStep_answers
  | lzHeader | lzLiteral | lzMatch | lzEscape => exact runItem_answers _

/-! ## The step -/

/-- The outcome is no fault; a refused move of the host is none. -/
def NoFault (o : Outcome) : Prop := ∀ f : Fault, o ≠ .fault f

theorem Answers.noFault {o : Outcome} (h : Answers o) : NoFault o := by
  obtain ⟨t, rfl⟩ := h
  exact nofun

theorem hostWrite_noFault {c : Config.Capacity} {count : Nat} {t : State} : NoFault (hostWrite c count t) := by
  unfold hostWrite
  split <;> exact nofun

theorem putSpec_noFault (magnitudes : List Byte) : NoFault (putSpec magnitudes s) := by
  unfold putSpec
  split <;> exact nofun

theorem stepCommand_answers (h : Inv s) (w : Word) : Answers (stepCommand w s) := by
  unfold stepCommand
  split
  · exact exec_answers h _
  · exact answers_finish

theorem stepStream_answers (h : Inv s) (r : LzRun) : Answers (stepStream r s) := by
  unfold stepStream
  split
  · exact ⟨_, rfl⟩
  · exact exec_answers h.withUnconstrained _

theorem stepMove_noFault (h : Inv s) (m : HostMove) : NoFault (stepMove m s) := by
  cases m with
  | command w => exact (stepCommand_answers h w).noFault
  | putIb | putTxBits | putWin | appendRxBits => exact hostWrite_noFault
  | putSpec magnitudes => exact putSpec_noFault magnitudes
  | resetInput | setSnrIn | takeSamples | takePktQ => exact nofun

theorem step_noFault (h : Inv s) : NoFault (step s) := by
  unfold step
  split
  · exact (stepStream_answers h _).noFault
  · split
    · exact nofun
    · exact stepMove_noFault h.withUnconstrained _

/-- Settles O55: every command answers, and no access of the host faults. -/
theorem nothingStopsTheMachine : Obligations.NothingStopsTheMachine := fun _ h => ⟨step_noFault h, exec_answers h⟩

end

end Sys2Proof.Machine

/-! # A framed body is delivered (rules R232 to R240, R263)

The run of the synchronizer over a frame: it locks on the preamble, assembles the body and the suffix byte, delivers, and
finds nothing in the zeros after the frame. Only the parts of the state that `SYNC.STEP` writes change
(`State.inSync`). -/

namespace Sys2Proof.Machine

/-! ## The repetition -/

section
variable {i : Instr} {fuel : Nat} {s t : State}

theorem repeatUntilIdle_busy (h : exec i s = .next t) (busy : t.result ≠ 6) :
    repeatUntilIdle i (fuel + 1) s = repeatUntilIdle i fuel t := by
  rw [repeatUntilIdle, h]
  exact if_neg busy

theorem repeatUntilIdle_idle (h : exec i s = .next t) (idle : t.result = 6) :
    repeatUntilIdle i (fuel + 1) s = .next t := by
  rw [repeatUntilIdle, h]
  exact if_pos idle

end

/-! ## The bits of a frame -/

/-- The suffix of a frame is one more byte, 0x55. -/
theorem frameBits_eq (body : List Byte) :
    frameBits body = Config.syncPattern ++ (body ++ [0x55]).flatMap bitsMsb := by
  have suffix : Config.suffixPattern = bitsMsb 0x55 := by decide
  rw [frameBits, suffix, List.flatMap_append, List.flatMap_singleton, List.append_assoc]

theorem findSync_pattern (rest : List Bit) : findSync (Config.syncPattern ++ rest) = some 0 :=
  findSync_eq_some.2 ⟨rfl, nofun⟩

theorem findSync_zeros (pad : Nat) : findSync (List.replicate pad false) = none := by
  refine findSync_eq_none.2 fun p stands => ?_
  have one : true ∈ ((List.replicate pad false).drop p).take 8 := by
    rw [stands]
    decide
  exact absurd (List.eq_of_mem_replicate (List.mem_of_mem_drop (List.mem_of_mem_take one))) nofun

/-! ## Delivery -/

/-- No 0x00 stands in a buffer, and no 0x55 that would end its record. -/
theorem not_deliverable_of_clean {buf : List Byte} (nul : 0 ∉ buf) (suffix : 0x55 ∉ buf) :
    deliverable .suffixByte buf = false := by
  refine Bool.eq_false_iff.2 fun ends => ?_
  obtain mem | ⟨-, tag, -, p, -, terminated⟩ := deliverable_iff.1 ends
  · exact nul mem
  · obtain ⟨r, -, found⟩ := suffixTerminated_iff.1 terminated
    exact suffix (List.mem_of_getElem? found)

/-- A record of more than ten bytes that a tag opens and a byte 0x55 closes (rules R236, R237). -/
theorem deliverable_of_tag {body tag : List Byte} (long : 10 ≤ body.length) (mem : tag ∈ packetTags)
    (opens : tag <+: body) : deliverable .suffixByte (body ++ [0x55]) = true := by
  refine deliverable_iff.2 (.inr ⟨by simpa using long, tag, mem, 0, ?_, suffixTerminated_iff.2 ⟨body.length, ?_, ?_⟩⟩)
  · exact (List.prefix_iff_eq_take.1 (opens.trans (List.prefix_append _ _))).symm
  · rw [Nat.zero_add]
    exact opens.length_le
  · simp

/-! ## The run -/

section
variable {s : State} {queue : List (List Byte)} {buf : List Byte} {bits : List Bit} {result : Half} {fuel : Nat}

/-- The block with these values in what `SYNC.STEP` writes. -/
def State.inSync (s : State) (sync : SyncState) (bits : List Bit) (buf : List Byte) (queue : List (List Byte))
    (result : Half) : State :=
  { s with syncState := sync, rxBits := bits, pktBuf := buf, pktQ := queue, result := result }

theorem lock_inSync {p : Nat} (found : findSync bits = some p) :
    exec .syncStep (s.inSync .hunting bits buf queue result) =
      .next (s.inSync .framed (bits.drop (p + 8)) buf queue 0) :=
  exec_syncStep_lock rfl found

theorem trim_inSync (absent : findSync bits = none) (long : 1000 < bits.length) :
    exec .syncStep (s.inSync .hunting bits buf queue result) =
      .next (s.inSync .hunting (bits.drop (bits.length - 100)) buf queue 0) :=
  exec_syncStep_trim rfl absent long

theorem idle_inSync (absent : findSync bits = none) (short : bits.length ≤ 1000) :
    exec .syncStep (s.inSync .hunting bits buf queue result) = .next (s.inSync .hunting bits buf queue 6) :=
  exec_syncStep_hunting_idle rfl absent short

/-- The byte serialised at the front of `RXBITS` is the one assembled (rules R9, R233). -/
theorem assemble_inSync (unended : deliverable s.params.terminator buf = false) (short : buf.length ≤ 5000) (b : Byte) :
    exec .syncStep (s.inSync .framed (bitsMsb b ++ bits) buf queue result) =
      .next (s.inSync .framed bits (buf ++ [b]) queue 0) := by
  have whole : 8 ≤ (bitsMsb b ++ bits).length := by simp [bitsMsb_length]
  have taken : byteMsb ((bitsMsb b ++ bits).take 8) = b := by
    rw [List.take_left' (bitsMsb_length b), ← List.append_nil (bitsMsb b)]
    exact byteMsb_bitsMsb b []
  have left : (bitsMsb b ++ bits).drop 8 = bits := List.drop_left' (bitsMsb_length b)
  have assembled := exec_syncStep_assemble (s := s.inSync .framed (bitsMsb b ++ bits) buf queue result)
    rfl unended short whole
  rw [assembled]
  simp only [State.inSync, taken, left]

theorem deliver_inSync (ends : deliverable s.params.terminator buf = true)
    (room : s.params.capacities.pktQ.allows (queue.length + 1) = true) :
    exec .syncStep (s.inSync .framed bits buf queue result) =
      .next (s.inSync .hunting bits [] (queue ++ [buf]) 0) :=
  exec_syncStep_deliver rfl ends room

/-- Hunting in zeros: a long rest is cut once, and then nothing is enabled (rule R232). -/
theorem repeatUntilIdle_zeros (pad : Nat) :
    repeatUntilIdle .syncStep (fuel + 2) (s.inSync .hunting (List.replicate pad false) buf queue result) =
      .next (s.inSync .hunting (List.replicate (if pad ≤ 1000 then pad else 100) false) buf queue 6) := by
  split
  case isTrue short => exact repeatUntilIdle_idle (idle_inSync (findSync_zeros pad) (by simpa using short)) rfl
  case isFalse long =>
    have cut : (List.replicate pad false).drop ((List.replicate pad false).length - 100) = List.replicate 100 false := by
      rw [List.drop_replicate, List.length_replicate]
      congr 1
      omega
    have trims := trim_inSync (s := s) (buf := buf) (queue := queue) (result := result) (findSync_zeros pad)
      (by simpa using long)
    rw [cut] at trims
    rw [repeatUntilIdle_busy trims nofun]
    exact repeatUntilIdle_idle (idle_inSync (findSync_zeros 100) (by decide)) rfl

section
variable (terminator : s.params.terminator = .suffixByte)
include terminator

/-- In `Framed`, bytes none of which ends a packet are assembled one after another (rule R233). -/
theorem repeatUntilIdle_assemble (bytes : List Byte) (nul : 0 ∉ buf ++ bytes) (suffix : 0x55 ∉ buf ++ bytes)
    (short : (buf ++ bytes).length ≤ 5000) :
    repeatUntilIdle .syncStep (fuel + bytes.length) (s.inSync .framed (bytes.flatMap bitsMsb ++ bits) buf queue 0) =
      repeatUntilIdle .syncStep fuel (s.inSync .framed bits (buf ++ bytes) queue 0) := by
  induction bytes generalizing buf with
  | nil => rw [List.append_nil]; rfl
  | cons b bytes ih =>
    have unended : deliverable s.params.terminator buf = false := by
      rw [terminator]
      exact not_deliverable_of_clean (fun mem => nul (List.mem_append_left _ mem))
        fun mem => suffix (List.mem_append_left _ mem)
    rw [List.append_cons] at nul suffix short ⊢
    rw [List.flatMap_cons, List.append_assoc, List.length_cons, ← Nat.add_assoc,
      repeatUntilIdle_busy (assemble_inSync unended (by simp at short; omega) b) nofun]
    exact ih nul suffix short

/-- The whole run: the preamble, the body, the suffix byte, the delivery, and the zeros (rule R263). -/
theorem syncRun_frame {body : List Byte} {pad : Nat} (room : s.params.capacities.pktQ.allows (queue.length + 1) = true)
    (long : 10 ≤ body.length) (short : body.length ≤ 5000) (nul : 0 ∉ body) (suffix : 0x55 ∉ body)
    (tagged : ∃ tag ∈ packetTags, tag <+: body) :
    syncRun (s.inSync .hunting (frameBits body ++ List.replicate pad false) [] queue result) =
      .next (s.inSync .hunting (List.replicate (if pad ≤ 1000 then pad else 100) false) [] (queue ++ [body ++ [0x55]])
        6) := by
  obtain ⟨fuel, enough⟩ : ∃ fuel, 2 * (frameBits body ++ List.replicate pad false).length + 2 =
      fuel + 2 + 1 + 1 + body.length + 1 := ⟨2 * (16 + 8 * body.length + pad) + 2 - (body.length + 5), by
    rw [List.length_append, frameBits_length, List.length_replicate]
    omega⟩
  have bits : frameBits body ++ List.replicate pad false =
      Config.syncPattern ++ (body.flatMap bitsMsb ++ (bitsMsb 0x55 ++ List.replicate pad false)) := by
    rw [frameBits_eq, List.flatMap_append, List.flatMap_singleton]
    simp only [List.append_assoc]
  have unended : deliverable s.params.terminator body = false := terminator ▸ not_deliverable_of_clean nul suffix
  have ends : deliverable s.params.terminator (body ++ [0x55]) = true := by
    obtain ⟨tag, mem, opens⟩ := tagged
    exact terminator ▸ deliverable_of_tag long mem opens
  have assembled := repeatUntilIdle_assemble (s := s) (queue := queue) (buf := []) (fuel := fuel + 2 + 1 + 1)
    (bits := bitsMsb 0x55 ++ List.replicate pad false) terminator body nul suffix short
  change repeatUntilIdle .syncStep (2 * (frameBits body ++ List.replicate pad false).length + 2) _ = _
  rw [enough, bits, repeatUntilIdle_busy (lock_inSync (findSync_pattern _)) nofun]
  refine assembled.trans ?_
  rw [List.nil_append, repeatUntilIdle_busy (assemble_inSync unended short _) nofun,
    repeatUntilIdle_busy (deliver_inSync ends room) nofun]
  exact repeatUntilIdle_zeros pad

end

/-- Settles O52: the state of the statement is the one of the run, `Hunting` with an empty `PKTBUF` before and after. -/
theorem framedBodyIsDelivered : Obligations.FramedBodyIsDelivered := by
  intro s body pad terminator hunting empty room frame long short nul suffix tagged
  have same (bits : List Bit) (queue : List (List Byte)) (result : Half) :
      s.inSync .hunting bits [] queue result = { s with rxBits := bits, pktQ := queue, result := result } := by
    rw [State.inSync, ← hunting, ← empty]
  have ran := syncRun_frame (s := s) (result := s.result) (pad := pad) terminator room long short nul suffix tagged
  rw [same, same, ← frame] at ran
  exact ran

end

end Sys2Proof.Machine

/-! # Exact sums (rules R12, R211)

The correlation sums are sums of the window's samples times a cosine, and collecting like terms keeps them. The canonical
form keeps the number because each rewriting does: the powers that it replaces with their digit's others add up to 0. -/

namespace Sys2Proof

/-! ## The correlation sums (rule R211) -/

theorem Sample.toReal_flatMap {α : Type} (l : List α) (f : α → Sample) :
    Sample.toReal (l.flatMap f) = (l.map fun a => Sample.toReal (f a)).sum := by
  induction l with
  | nil => rfl
  | cons a l ih => rw [List.flatMap_cons, Sample.toReal_append, ih, List.map_cons, List.sum_cons]

/-- `2·f·n` arcs are the angle of rule R211. -/
theorem arc_angle (f n : Nat) :
    2 * Real.pi * (((2 * f * n : Nat) : Int) : ℝ) / 88200 = 2 * Real.pi * (f : ℝ) * (n : ℝ) / 44100 := by
  push_cast
  ring

/-- Settles O43, sample by sample. -/
theorem Machine.correlationsAreTheRealSums : Obligations.CorrelationsAreTheRealSums := by
  intro win f
  constructor
  · rw [Machine.correlateI, Sample.toReal_collect, Sample.toReal_flatMap, Machine.correlationI]
    simp only [Sample.toReal_mulCos, arcCos, arc_angle]
  · rw [Machine.correlateQ, Sample.toReal_collect, Sample.toReal_flatMap, Machine.correlationQ]
    simp only [Sample.toReal_neg, Sample.toReal_mulSin, arcSin, arc_angle, List.sum_neg, List.map_map,
      Function.comp_def]

/-! ## The canonical form (log entry 4) -/

/-- A cosine is even: the two powers of a term are conjugate. -/
theorem arcCos_neg (k : Int) : arcCos (-k) = arcCos k := by
  rw [arcCos, arcCos, ← Real.cos_neg]
  congr 1
  push_cast
  ring

theorem Sample.toReal_powers (x : Sample) : Sample.toReal x.powers = Sample.toReal x := by
  rw [Sample.powers, Sample.toReal_flatMap, Sample.toReal]
  refine congrArg List.sum (List.map_congr_left fun t _ => ?_)
  rw [Sample.toReal_cons, Sample.toReal_cons, Sample.toReal_nil, arcCos_arcOf, arcCos_arcOf, arcCos_neg, Tone.toReal_eq]
  push_cast
  ring

/-- The cosines of `p` angles that divide a turn evenly add up to 0: they are the real parts of a rotated sum of the
`p`-th roots of unity. -/
theorem sum_cos_evenly {p : Nat} (two : 2 ≤ p) (x : ℝ) :
    ∑ i ∈ Finset.range p, Real.cos (x + 2 * Real.pi * i / p) = 0 := by
  have roots := (Complex.isPrimitiveRoot_exp p (by omega)).geom_sum_eq_zero (by omega)
  have rotated : ∀ i : Nat, Complex.exp (x * Complex.I) * Complex.exp (2 * Real.pi * Complex.I / p) ^ i =
      Complex.exp ((x + 2 * Real.pi * i / p : ℝ) * Complex.I) := fun i => by
    rw [← Complex.exp_nat_mul, ← Complex.exp_add]
    congr 1
    push_cast
    ring
  calc ∑ i ∈ Finset.range p, Real.cos (x + 2 * Real.pi * i / p)
      = (∑ i ∈ Finset.range p, Complex.exp ((x + 2 * Real.pi * i / p : ℝ) * Complex.I)).re := by
        simp only [Complex.re_sum, Complex.exp_ofReal_mul_I_re]
    _ = (Complex.exp (x * Complex.I) * ∑ i ∈ Finset.range p, Complex.exp (2 * Real.pi * Complex.I / p) ^ i).re := by
        simp only [Finset.mul_sum, rotated]
    _ = 0 := by rw [roots, mul_zero, Complex.zero_re]

theorem sum_arcCos {p : Nat} (two : 2 ≤ p) (divides : p ∣ turnArcs) (k : Int) :
    ∑ i ∈ Finset.range p, arcCos (k + i * (turnArcs / p : Nat)) = 0 := by
  obtain ⟨m, turn⟩ := divides
  have positive : 0 < p := by omega
  have arcs : (88200 : ℝ) = p * m := by exact_mod_cast turn
  rw [← sum_cos_evenly two (2 * Real.pi * k / 88200), turn, Nat.mul_div_cancel_left _ positive]
  refine Finset.sum_congr rfl fun i _ => ?_
  have hp : (p : ℝ) ≠ 0 := by positivity
  have hm : (m : ℝ) ≠ 0 := by rintro h; rw [h] at arcs; norm_num at arcs
  rw [arcCos, arcs]
  congr 1
  push_cast
  field_simp

/-- One of the powers that replace `t`, whose digit for the prime `p` is the highest: `i + 1` steps further round. -/
def Tone.replacement (p : Nat) (t : Tone) (i : Nat) : Tone :=
  ⟨-t.amp, arcOf (t.arc + (i + 1 : Nat) * (turnArcs / p : Nat)), t.opens⟩

theorem reducePower_highest {p q : Nat} {t : Tone} (highest : t.arc % q / (q / p) = p - 1) :
    reducePower p q t = (List.range (p - 1)).map (t.replacement p) := by
  have numbers : (do let a ← List.range (p - 1); pure (a : Int)) = (List.range (p - 1)).map Nat.cast :=
    List.map_eq_flatMap.symm
  rw [reducePower, if_pos highest, numbers, List.map_map]
  refine List.map_congr_left fun i _ => ?_
  simp [Tone.replacement]

/-- The replacements of a power are minus the others of the `p` powers that add up to 0 with it. -/
theorem toReal_reducePower {p q : Nat} (two : 2 ≤ p) (divides : p ∣ turnArcs) (t : Tone) :
    Sample.toReal (reducePower p q t) = t.toReal := by
  by_cases highest : t.arc % q / (q / p) = p - 1
  · obtain ⟨n, rfl⟩ : ∃ n, p = n + 1 := ⟨p - 1, by omega⟩
    have sum := sum_arcCos two divides t.arc
    rw [Finset.sum_range_succ', Nat.cast_zero, zero_mul, add_zero] at sum
    have others : Sample.toReal ((List.range n).map (t.replacement (n + 1))) = -(t.amp : ℝ) * opensReal t.opens *
        ∑ i ∈ Finset.range n, arcCos (t.arc + (i + 1 : Nat) * (turnArcs / (n + 1) : Nat)) := by
      rw [Finset.mul_sum]
      refine congrArg List.sum (List.map_map.trans (List.map_congr_left fun i _ => ?_))
      rw [Function.comp_apply, Tone.toReal_eq, Tone.replacement, arcCos_arcOf]
      push_cast
      ring
    rw [reducePower_highest highest, Nat.add_sub_cancel, others, Tone.toReal_eq]
    linear_combination (-(t.amp : ℝ) * opensReal t.opens) * sum
  · rw [reducePower, if_neg highest]
    simp [Sample.toReal]

theorem toReal_reducePrime {p q : Nat} (two : 2 ≤ p) (divides : p ∣ turnArcs) (x : List Tone) :
    Sample.toReal (reducePrime p q x) = Sample.toReal x := by
  rw [reducePrime, Sample.toReal_collect, Sample.toReal_flatMap]
  exact congrArg List.sum (List.map_congr_left fun t _ => toReal_reducePower two divides t)

theorem Sample.toReal_canon (x : Sample) : Sample.toReal x.canon = Sample.toReal x := by
  rw [Sample.canon, toReal_reducePrime (by decide) (by decide), toReal_reducePrime (by decide) (by decide),
    toReal_reducePrime (by decide) (by decide), toReal_reducePrime (by decide) (by decide), Sample.toReal_collect,
    Sample.toReal_powers]

theorem Sample.toReal_of_isZero {x : Sample} (h : x.isZero = true) : Sample.toReal x = 0 := by
  rw [← Sample.toReal_canon, List.isEmpty_iff.1 h, Sample.toReal_nil]

/-- Settles O44. -/
theorem canonicalFormKeepsTheNumber : Obligations.CanonicalFormKeepsTheNumber := fun x =>
  ⟨x.toReal_canon, Sample.toReal_of_isZero⟩

end Sys2Proof

/-! # The fixed-point cosine (rule R12, log entry 4)

The fixed-point series are the partial sums of the real series, each division rounded down by less than one unit. So π and
a cosine come out a few units off for each term; with `2·p` bits that is less than one unit of `p` bits. -/

namespace Sys2Proof

/-! ## Rounding -/

/-- A division of whole numbers rounds down by less than one. -/
theorem natDiv_rounds (m : Nat) {n : Nat} (pos : 0 < n) : |((m / n : Nat) : ℝ) - (m : ℝ) / n| ≤ 1 := by
  have low : ((m / n : Nat) : ℝ) ≤ (m : ℝ) / n := Nat.cast_div_le
  have high : (m : ℝ) < (((m / n : Nat) : ℝ) + 1) * n := by
    exact_mod_cast Nat.lt_mul_of_div_lt (Nat.lt_succ_self (m / n)) pos
  rw [← div_lt_iff₀ (by exact_mod_cast pos)] at high
  exact abs_le.2 ⟨by linarith, by linarith⟩

/-- The sign of entry `j` of an alternating series. -/
theorem alternating_cast (j a : Nat) :
    (((if j % 2 = 0 then (a : Int) else -(a : Int)) : Int) : ℝ) = (-1) ^ j * (a : ℝ) := by
  rcases Nat.even_or_odd j with even | odd
  · rw [if_pos (Nat.even_iff.1 even), even.neg_one_pow, one_mul, Int.cast_natCast]
  · rw [if_neg (by rw [Nat.odd_iff.1 odd]; decide), odd.neg_one_pow, neg_one_mul, Int.cast_neg, Int.cast_natCast]

/-- A sum `total` for the rounded scale `T`, whose exact value is `S` for each unit, seen from the exact scale `t`. -/
theorem abs_sub_scaled_le {total T t S e : ℝ} (rounded : |T - t| ≤ 1) (bounded : |S| ≤ 2) (close : |total - T * S| ≤ e) :
    |total - t * S| ≤ e + 2 := by
  have split : total - t * S = (total - T * S) + (T - t) * S := by ring
  have : |T - t| * |S| ≤ 1 * 2 := mul_le_mul rounded bounded (abs_nonneg _) zero_le_one
  rw [split]
  refine (abs_add_le _ _).trans ?_
  rw [abs_mul]
  linarith

/-! ## The arctangent -/

/-- What `arctanInv` sums, for a scale of 1 and without rounding. -/
noncomputable def arctanSum (x : Nat) : Nat → Nat → ℝ
  | 0, _ => 0
  | n + 1, j => (-1) ^ j / (2 * j + 1) + arctanSum x n (j + 1) / (x * x)

theorem abs_arctanSum_le {x : Nat} (two : 2 ≤ x) (n j : Nat) : |arctanSum x n j| ≤ 2 := by
  induction n generalizing j with
  | zero => simp [arctanSum]
  | succ n ih =>
    have first : |(-1 : ℝ) ^ j / (2 * j + 1)| ≤ 1 := by
      rw [abs_div, abs_pow, abs_neg, abs_one, one_pow, abs_of_pos (by positivity)]
      exact div_le_one_of_le₀ (by linarith [(Nat.cast_nonneg j : (0 : ℝ) ≤ j)]) (by positivity)
    have square : (4 : ℝ) ≤ x * x := by exact_mod_cast Nat.mul_le_mul two two
    have rest : |arctanSum x n (j + 1) / (x * x)| ≤ 1 := by
      rw [abs_div, abs_of_pos (by linarith : (0 : ℝ) < x * x)]
      exact div_le_one_of_le₀ (by linarith [ih (j + 1)]) (by linarith)
    rw [arctanSum]
    exact (abs_add_le _ _).trans (by linarith)

/-- Each term rounds twice: its own division, and the scale of the terms after it. -/
theorem arctanInv_close {x : Nat} (two : 2 ≤ x) (n j T : Nat) :
    |(arctanInv x n j T : ℝ) - T * arctanSum x n j| ≤ 3 * n := by
  induction n generalizing j T with
  | zero => simp [arctanInv, arctanSum]
  | succ n ih =>
    have own := natDiv_rounds T (Nat.succ_pos (2 * j))
    have scale := natDiv_rounds T (Nat.mul_pos (by omega : 0 < x) (by omega : 0 < x))
    have rest := abs_sub_scaled_le scale (abs_arctanSum_le two n (j + 1)) (ih (j + 1) (T / (x * x)))
    have split : (arctanInv x (n + 1) j T : ℝ) - T * arctanSum x (n + 1) j =
        (-1) ^ j * (((T / (2 * j + 1) : Nat) : ℝ) - (T : ℝ) / ((2 * j + 1 : Nat) : ℝ)) +
        ((arctanInv x n (j + 1) (T / (x * x)) : ℝ) - (T : ℝ) / ((x * x : Nat) : ℝ) * arctanSum x n (j + 1)) := by
      rw [arctanInv, Int.cast_add, alternating_cast, arctanSum]
      push_cast
      ring
    rw [split]
    refine (abs_add_le _ _).trans ?_
    rw [abs_mul, abs_pow, abs_neg, abs_one, one_pow, one_mul, Nat.cast_succ n]
    simp only [Nat.succ_eq_add_one] at own
    linarith

theorem arctanSum_eq (x n j : Nat) :
    arctanSum x n j = ∑ i ∈ Finset.range n, (-1) ^ (i + j) / (2 * (i + j : Nat) + 1) / ((x : ℝ) * x) ^ i := by
  induction n generalizing j with
  | zero => rfl
  | succ n ih =>
    rw [arctanSum, Finset.sum_range_succ', ih, Finset.sum_div, add_comm]
    congr 1
    · refine Finset.sum_congr rfl fun i _ => ?_
      rw [show i + (j + 1) = i + 1 + j by ring, pow_succ ((x : ℝ) * x), div_div _ (_ ^ i)]
    · simp

/-- The partial sums of the arctangent's series. -/
theorem arctanSum_div (x n : Nat) : arctanSum x n 0 / x =
    ∑ i ∈ Finset.range n, (-1) ^ i * ((x : ℝ)⁻¹) ^ (2 * i + 1) / ((2 * i + 1 : Nat) : ℝ) := by
  rw [arctanSum_eq, Finset.sum_div]
  refine Finset.sum_congr rfl fun i _ => ?_
  rw [pow_succ, pow_mul, inv_pow, add_zero]
  push_cast
  rw [← sq, inv_pow]
  simp only [div_eq_mul_inv]
  ring

/-- The rest of the series, which falls as `25^(-n)`. -/
theorem arctanSum_close {x : Nat} (five : 5 ≤ x) (n : Nat) :
    |arctanSum x n 0 / x - Real.arctan (x : ℝ)⁻¹| ≤ 2 * (1 / 25) ^ n := by
  have five' : (5 : ℝ) ≤ x := by exact_mod_cast five
  have small : (x : ℝ)⁻¹ ≤ 1 / 5 := by rw [one_div]; exact inv_anti₀ (by norm_num) five'
  have nonneg : 0 ≤ (x : ℝ)⁻¹ := by positivity
  have series := (Real.hasSum_arctan (x := (x : ℝ)⁻¹) (by
    rw [Real.norm_eq_abs, abs_of_nonneg nonneg]; linarith)).tendsto_sum_nat
  have steps : ∀ m, dist (∑ i ∈ Finset.range m, (-1) ^ i * ((x : ℝ)⁻¹) ^ (2 * i + 1) / ((2 * i + 1 : Nat) : ℝ))
      (∑ i ∈ Finset.range (m + 1), (-1) ^ i * ((x : ℝ)⁻¹) ^ (2 * i + 1) / ((2 * i + 1 : Nat) : ℝ)) ≤
      1 * (1 / 25) ^ m := fun m => by
    have power : ((x : ℝ)⁻¹) ^ (2 * m + 1) ≤ (1 / 25) ^ m := calc
      ((x : ℝ)⁻¹) ^ (2 * m + 1) ≤ (1 / 5) ^ (2 * m + 1) := pow_le_pow_left₀ nonneg small _
      _ ≤ (1 / 5) ^ (2 * m) := pow_le_pow_of_le_one (by norm_num) (by norm_num) (Nat.le_succ _)
      _ = (1 / 25) ^ m := by rw [pow_mul]; norm_num
    rw [Finset.sum_range_succ, dist_self_add_right, Real.norm_eq_abs, abs_div, abs_mul, abs_pow, abs_neg, abs_one,
      one_pow, one_mul, one_mul, abs_of_nonneg (pow_nonneg nonneg _), Nat.abs_cast]
    exact (div_le_self (pow_nonneg nonneg _) (by push_cast; linarith [(Nat.cast_nonneg m : (0 : ℝ) ≤ m)])).trans power
  have far := dist_le_of_le_geometric_of_tendsto (1 / 25) 1 (by norm_num) steps series n
  rw [← arctanSum_div, Real.dist_eq] at far
  refine far.trans ?_
  have : (0 : ℝ) ≤ (1 / 25) ^ n := by positivity
  linarith [show 1 * (1 / 25 : ℝ) ^ n / (1 - 1 / 25) = 25 / 24 * (1 / 25) ^ n by ring]

/-- With `n = q/4 + 2` terms the rest of the series is less than a unit. -/
theorem arctan_terms_suffice (q : Nat) : (2 : ℝ) ^ q * (2 * (1 / 25) ^ (q / 4 + 2)) ≤ 1 := by
  have powers : (2 : ℝ) ^ (q + 1) ≤ 25 ^ (q / 4 + 2) := calc
    (2 : ℝ) ^ (q + 1) ≤ 2 ^ (4 * (q / 4 + 2)) := pow_le_pow_right₀ (by norm_num) (by omega)
    _ = 16 ^ (q / 4 + 2) := by rw [pow_mul]; norm_num
    _ ≤ 25 ^ (q / 4 + 2) := pow_le_pow_left₀ (by norm_num) (by norm_num) _
  rw [one_div, inv_pow, ← mul_assoc, ← pow_succ, ← div_eq_mul_inv]
  exact div_le_one_of_le₀ powers (by positivity)

theorem arctanInv_arctan {x : Nat} (five : 5 ≤ x) (q : Nat) :
    |(arctanInv x (q / 4 + 2) 0 (2 ^ q / x) : ℝ) - 2 ^ q * Real.arctan (x : ℝ)⁻¹| ≤ q + 9 := by
  have rounded := abs_sub_scaled_le (natDiv_rounds (2 ^ q) (by omega : 0 < x))
    (abs_arctanSum_le (by omega : 2 ≤ x) (q / 4 + 2) 0) (arctanInv_close (by omega : 2 ≤ x) (q / 4 + 2) 0 (2 ^ q / x))
  have rest : 2 ^ q * |arctanSum x (q / 4 + 2) 0 / x - Real.arctan (x : ℝ)⁻¹| ≤ 1 :=
    (mul_le_mul_of_nonneg_left (arctanSum_close five _) (by positivity)).trans (arctan_terms_suffice q)
  have split : (arctanInv x (q / 4 + 2) 0 (2 ^ q / x) : ℝ) - 2 ^ q * Real.arctan (x : ℝ)⁻¹ =
      ((arctanInv x (q / 4 + 2) 0 (2 ^ q / x) : ℝ) - ((2 ^ q : Nat) : ℝ) / x * arctanSum x (q / 4 + 2) 0) +
      2 ^ q * (arctanSum x (q / 4 + 2) 0 / x - Real.arctan (x : ℝ)⁻¹) := by
    push_cast
    ring
  have terms : (((q / 4 : Nat) : ℝ)) ≤ q / 4 := by exact_mod_cast (Nat.cast_div_le : ((q / 4 : Nat) : ℝ) ≤ _)
  rw [split]
  refine (abs_add_le _ _).trans ?_
  rw [abs_mul, abs_of_pos (by positivity : (0 : ℝ) < 2 ^ q)]
  have := (Nat.cast_nonneg q : (0 : ℝ) ≤ q)
  push_cast at rounded ⊢
  linarith

/-- Rounding a number up to 0 brings it no farther from one that is not negative. -/
theorem toNat_close {z : Int} {v e : ℝ} (nonneg : 0 ≤ v) (close : |(z : ℝ) - v| ≤ e) : |((z.toNat : Nat) : ℝ) - v| ≤ e := by
  rcases le_total 0 z with pos | neg
  · have : ((z.toNat : Nat) : ℝ) = z := by exact_mod_cast Int.toNat_of_nonneg pos
    rwa [this]
  · have : (z : ℝ) ≤ 0 := by exact_mod_cast neg
    rw [Int.toNat_of_nonpos neg, Nat.cast_zero, zero_sub, abs_neg, abs_of_nonneg nonneg]
    linarith [(abs_le.1 close).1]

theorem piFixed_close (q : Nat) : |(piFixed q : ℝ) - 2 ^ q * Real.pi| ≤ 20 * (q + 9) := by
  rw [piFixed]
  refine toNat_close (by positivity) ?_
  have five := arctanInv_arctan (x := 5) le_rfl q
  have big := arctanInv_arctan (x := 239) (by decide) q
  have machin := Real.four_mul_arctan_inv_5_sub_arctan_inv_239
  have pi : Real.pi = 4 * (4 * Real.arctan ((5 : Nat) : ℝ)⁻¹ - Real.arctan ((239 : Nat) : ℝ)⁻¹) := by
    push_cast
    linarith
  rw [abs_le] at five big ⊢
  obtain ⟨five₁, five₂⟩ := five
  obtain ⟨big₁, big₂⟩ := big
  rw [pi]
  push_cast at five₁ five₂ big₁ big₂ ⊢
  constructor <;> linarith

/-! ## The cosine's series -/

/-- What `cosSeries` sums, for a term of 1 and without rounding, `x` the square of the angle. -/
noncomputable def cosSum (x : ℝ) : Nat → Nat → ℝ
  | 0, _ => 0
  | n + 1, j => (-1) ^ j + x / ((2 * j + 1) * (2 * j + 2)) * cosSum x n (j + 1)

theorem abs_cosSum_le {x : ℝ} (nonneg : 0 ≤ x) (four : x ≤ 4) (n j : Nat) : |cosSum x n (j + 1)| ≤ 2 := by
  induction n generalizing j with
  | zero => simp [cosSum]
  | succ n ih =>
    have factor : x / ((2 * ((j + 1 : Nat) : ℝ) + 1) * (2 * ((j + 1 : Nat) : ℝ) + 2)) ≤ 1 / 3 := by
      rw [div_le_iff₀ (by positivity)]
      push_cast
      nlinarith [(Nat.cast_nonneg j : (0 : ℝ) ≤ j)]
    have rest : |x / ((2 * ((j + 1 : Nat) : ℝ) + 1) * (2 * ((j + 1 : Nat) : ℝ) + 2)) * cosSum x n (j + 1 + 1)| ≤ 1 / 3 * 2 := by
      rw [abs_mul, abs_of_nonneg (by positivity)]
      exact mul_le_mul factor (ih (j + 1)) (abs_nonneg _) (by norm_num)
    rw [cosSum]
    refine (abs_add_le _ _).trans ?_
    rw [abs_pow, abs_neg, abs_one, one_pow]
    linarith

/-- No terms follow a term that is 0. -/
theorem cosSeries_zero (q thetaSq n j : Nat) : cosSeries q thetaSq n j 0 = 0 := by
  cases n <;> simp [cosSeries]

/-- The entry's rule, also where the term is 0. -/
theorem cosSeries_succ (q thetaSq n j T : Nat) : (cosSeries q thetaSq (n + 1) j T : ℝ) = (-1) ^ j * (T : ℝ) +
    cosSeries q thetaSq n (j + 1) (T * thetaSq / (2 ^ q * ((2 * j + 1) * (2 * j + 2)))) := by
  rw [cosSeries]
  split
  · next zero => simp [zero, cosSeries_zero]
  · rw [Int.cast_add, alternating_cast, Nat.div_div_eq_div_mul]

/-- Each term is rounded once. -/
theorem cosSeries_close {q S : Nat} (four : (S : ℝ) / 2 ^ q ≤ 4) (n j T : Nat) :
    |(cosSeries q S n j T : ℝ) - T * cosSum (S / 2 ^ q) n j| ≤ 2 * n := by
  induction n generalizing j T with
  | zero => simp [cosSeries, cosSum]
  | succ n ih =>
    have scale := natDiv_rounds (T * S)
      (Nat.mul_pos (Nat.two_pow_pos q) (Nat.mul_pos (Nat.succ_pos (2 * j)) (Nat.succ_pos (2 * j + 1))))
    have rest := abs_sub_scaled_le scale (abs_cosSum_le (by positivity) four n j) (ih (j + 1) _)
    have split : (cosSeries q S (n + 1) j T : ℝ) - T * cosSum (S / 2 ^ q) (n + 1) j =
        cosSeries q S n (j + 1) (T * S / (2 ^ q * ((2 * j + 1) * (2 * j + 2)))) -
        ((T * S : Nat) : ℝ) / ((2 ^ q * ((2 * j + 1) * (2 * j + 2)) : Nat) : ℝ) * cosSum (S / 2 ^ q) n (j + 1) := by
      rw [cosSeries_succ, cosSum]
      push_cast
      simp only [div_eq_mul_inv, mul_inv]
      ring
    rw [split, Nat.cast_succ n]
    simp only [Nat.succ_eq_add_one] at rest
    linarith

theorem cosSum_eq (x : ℝ) (n j : Nat) : x ^ j / ((2 * j).factorial : ℝ) * cosSum x n j =
    ∑ i ∈ Finset.range n, (-1) ^ (i + j) * x ^ (i + j) / ((2 * (i + j)).factorial : ℝ) := by
  induction n generalizing j with
  | zero => simp [cosSum]
  | succ n ih =>
    have next : x ^ j / ((2 * j).factorial : ℝ) * (x / ((2 * j + 1) * (2 * j + 2))) =
        x ^ (j + 1) / ((2 * (j + 1)).factorial : ℝ) := by
      rw [show 2 * (j + 1) = 2 * j + 1 + 1 by ring, Nat.factorial_succ, Nat.factorial_succ]
      push_cast
      rw [div_mul_div_comm, pow_succ]
      ring
    rw [cosSum, mul_add, ← mul_assoc, next, ih, Finset.sum_range_succ', add_comm, zero_add]
    congr 1
    · exact Finset.sum_congr rfl fun i _ => by rw [show i + (j + 1) = i + 1 + j by ring]
    · ring

/-- The partial sums of the cosine's series. -/
theorem cosSum_sq (r : ℝ) (n : Nat) : cosSum (r ^ 2) n 0 =
    ∑ i ∈ Finset.range n, (-1) ^ i * r ^ (2 * i) / ((2 * i).factorial : ℝ) := by
  simpa [pow_mul] using cosSum_eq (r ^ 2) n 0

/-- Two factors more outgrow 16 from the third on. -/
theorem sixteen_pow_le (n : Nat) : 16 ^ n ≤ 11 * (2 * n).factorial := by
  induction n with
  | zero => decide
  | succ n ih =>
    rcases Nat.lt_or_ge n 2 with small | large
    · interval_cases n <;> decide
    · have factors : 16 ≤ (2 * n + 1 + 1) * (2 * n + 1) := by nlinarith
      calc 16 ^ (n + 1) = 16 ^ n * 16 := pow_succ _ _
        _ ≤ 11 * (2 * n).factorial * ((2 * n + 1 + 1) * (2 * n + 1)) := Nat.mul_le_mul ih factors
        _ = 11 * (2 * (n + 1)).factorial := by
          rw [show 2 * (n + 1) = 2 * n + 1 + 1 by ring, Nat.factorial_succ, Nat.factorial_succ]
          ring

/-- The rest of the series, which falls as `4^(-n)` for an angle of at most 2. -/
theorem cosSum_close {x : ℝ} (nonneg : 0 ≤ x) (four : x ≤ 4) (n : Nat) :
    |cosSum x n 0 - Real.cos (Real.sqrt x)| ≤ 15 * (1 / 4) ^ n := by
  have square := Real.sq_sqrt nonneg
  have series := (Real.hasSum_cos (Real.sqrt x)).tendsto_sum_nat
  have steps : ∀ m, dist (∑ i ∈ Finset.range m, (-1) ^ i * Real.sqrt x ^ (2 * i) / ((2 * i).factorial : ℝ))
      (∑ i ∈ Finset.range (m + 1), (-1) ^ i * Real.sqrt x ^ (2 * i) / ((2 * i).factorial : ℝ)) ≤
      11 * (1 / 4) ^ m := fun m => by
    have growth : (16 : ℝ) ^ m ≤ 11 * (2 * m).factorial := by exact_mod_cast sixteen_pow_le m
    have power : x ^ m ≤ 4 ^ m := pow_le_pow_left₀ nonneg four m
    rw [Finset.sum_range_succ, dist_self_add_right, Real.norm_eq_abs, abs_div, abs_mul, abs_pow, abs_neg, abs_one,
      one_pow, one_mul, Nat.abs_cast, pow_mul, square, abs_of_nonneg (by positivity), div_le_iff₀ (by positivity)]
    calc x ^ m ≤ 4 ^ m := power
      _ = (1 / 4) ^ m * 16 ^ m := by rw [← mul_pow]; norm_num
      _ ≤ (1 / 4) ^ m * (11 * (2 * m).factorial) := mul_le_mul_of_nonneg_left growth (by positivity)
      _ = 11 * (1 / 4) ^ m * (2 * m).factorial := by ring
  have far := dist_le_of_le_geometric_of_tendsto (1 / 4) 11 (by norm_num) steps series n
  rw [← cosSum_sq, square, Real.dist_eq] at far
  refine far.trans ?_
  have : (0 : ℝ) ≤ (1 / 4) ^ n := by positivity
  linarith [show 11 * (1 / 4 : ℝ) ^ n / (1 - 1 / 4) = 44 / 3 * (1 / 4) ^ n by ring]

/-- With `q + 2` terms the rest of the series is less than a unit. -/
theorem cos_terms_suffice (q : Nat) : (2 : ℝ) ^ q * (15 * (1 / 4) ^ (q + 2)) ≤ 1 := by
  have half : ((1 : ℝ) / 2) ^ q ≤ 1 := pow_le_one₀ (by norm_num) (by norm_num)
  have same : (2 : ℝ) ^ q * (15 * (1 / 4) ^ (q + 2)) = 15 / 16 * (2 * (1 / 4)) ^ q := by
    rw [mul_pow, pow_add]
    ring
  rw [same, show (2 : ℝ) * (1 / 4) = 1 / 2 by norm_num]
  linarith

/-- Cosines of angles with nearly the same square. -/
theorem abs_cos_sqrt_sub_cos_le {x θ : ℝ} (nonneg : 0 ≤ x) :
    |Real.cos (Real.sqrt x) - Real.cos θ| ≤ |x - θ ^ 2| / 2 := by
  have product : (Real.sqrt x + θ) / 2 * ((Real.sqrt x - θ) / 2) = (x - θ ^ 2) / 4 := by
    nlinarith [Real.sq_sqrt nonneg]
  rw [Real.cos_sub_cos, abs_mul, abs_mul, abs_neg, abs_two]
  calc 2 * |Real.sin ((Real.sqrt x + θ) / 2)| * |Real.sin ((Real.sqrt x - θ) / 2)|
      ≤ 2 * |(Real.sqrt x + θ) / 2| * |(Real.sqrt x - θ) / 2| :=
        mul_le_mul (mul_le_mul_of_nonneg_left Real.abs_sin_le_abs zero_le_two) Real.abs_sin_le_abs (abs_nonneg _)
          (by positivity)
    _ = |x - θ ^ 2| / 2 := by
        rw [mul_assoc, ← abs_mul, product, abs_div, abs_of_pos (by norm_num : (0 : ℝ) < 4)]
        ring

/-! ## The cosine of `p` bits -/

/-- The fixed-point angle of at most a quarter turn. -/
theorem theta_close (q : Nat) {k : Nat} (quarter : k ≤ 22050) :
    |((piFixed q * k / 44100 : Nat) : ℝ) - 2 ^ q * (Real.pi * k / 44100)| ≤ 10 * q + 91 := by
  have rounded := natDiv_rounds (piFixed q * k) (by decide : 0 < 44100)
  have part : (k : ℝ) / 44100 ≤ 1 / 2 := by
    have : (k : ℝ) ≤ 22050 := by exact_mod_cast quarter
    linarith
  have scaled : |(piFixed q : ℝ) - 2 ^ q * Real.pi| * (k / 44100) ≤ 20 * (q + 9) * (1 / 2) :=
    mul_le_mul (piFixed_close q) part (by positivity) (by positivity)
  have split : ((piFixed q * k / 44100 : Nat) : ℝ) - 2 ^ q * (Real.pi * k / 44100) =
      (((piFixed q * k / 44100 : Nat) : ℝ) - ((piFixed q * k : Nat) : ℝ) / ((44100 : Nat) : ℝ)) +
      ((piFixed q : ℝ) - 2 ^ q * Real.pi) * (k / 44100) := by
    push_cast
    ring
  rw [split]
  refine (abs_add_le _ _).trans ?_
  rw [abs_mul, abs_of_nonneg (by positivity : (0 : ℝ) ≤ k / 44100)]
  linarith

/-- The fixed-point square of an angle `T / 2^q` near `θ`. -/
theorem square_close {q T : Nat} {θ D : ℝ} (nonneg : 0 ≤ θ) (quarter : θ ≤ 8 / 5) (near : |(T : ℝ) - 2 ^ q * θ| ≤ D)
    (fine : 4 * D ≤ 2 ^ q) : ((T * T / 2 ^ q : Nat) : ℝ) / 2 ^ q ≤ 4 ∧
      2 ^ q * |((T * T / 2 ^ q : Nat) : ℝ) / 2 ^ q - θ ^ 2| ≤ 1 + 4 * D := by
  have W : (0 : ℝ) < 2 ^ q := by positivity
  have angle : (T : ℝ) / 2 ^ q ≤ 2 := by
    rw [div_le_iff₀ W]
    nlinarith [(abs_le.1 near).2]
  have low : ((T * T / 2 ^ q : Nat) : ℝ) ≤ (T * T : ℝ) / 2 ^ q := by
    exact_mod_cast (Nat.cast_div_le : ((T * T / 2 ^ q : Nat) : ℝ) ≤ _)
  constructor
  · calc ((T * T / 2 ^ q : Nat) : ℝ) / 2 ^ q ≤ (T * T : ℝ) / 2 ^ q / 2 ^ q := by gcongr
      _ = (T : ℝ) / 2 ^ q * ((T : ℝ) / 2 ^ q) := by ring
      _ ≤ 2 * 2 := mul_le_mul angle angle (by positivity) zero_le_two
      _ = 4 := by norm_num
  · have rounded := natDiv_rounds (T * T) (Nat.two_pow_pos q)
    have sum : |(T : ℝ) / 2 ^ q + θ| ≤ 4 := by
      rw [abs_of_nonneg (by positivity)]
      linarith
    have squares : |(T : ℝ) - 2 ^ q * θ| * |(T : ℝ) / 2 ^ q + θ| ≤ D * 4 :=
      mul_le_mul near sum (abs_nonneg _) ((abs_nonneg _).trans near)
    have split : 2 ^ q * (((T * T / 2 ^ q : Nat) : ℝ) / 2 ^ q - θ ^ 2) =
        (((T * T / 2 ^ q : Nat) : ℝ) - ((T * T : Nat) : ℝ) / ((2 ^ q : Nat) : ℝ)) +
        ((T : ℝ) - 2 ^ q * θ) * ((T : ℝ) / 2 ^ q + θ) := by
      push_cast
      field_simp
      ring
    rw [← abs_of_pos W, ← abs_mul, abs_of_pos W, split]
    refine (abs_add_le _ _).trans ?_
    rw [abs_mul]
    linarith

/-- The fixed-point cosine of at most a quarter turn: the angle is off, its square, the terms, and the rest. -/
theorem cosQuarter_close {q k : Nat} (quarter : k ≤ 22050) (fine : 4 * (10 * (q : ℝ) + 91) ≤ 2 ^ q) :
    |(cosQuarter q k : ℝ) - 2 ^ q * arcCos k| ≤ 22 * q + 188 := by
  let T := piFixed q * k / 44100
  let θ := Real.pi * k / 44100
  let x := ((T * T / 2 ^ q : Nat) : ℝ) / 2 ^ q
  have W : (0 : ℝ) < 2 ^ q := by positivity
  have small : θ ≤ 8 / 5 := by
    have : (k : ℝ) ≤ 22050 := by exact_mod_cast quarter
    have pi : Real.pi ≤ 3.2 := by linarith [Real.pi_lt_d2]
    have : Real.pi * k ≤ 3.2 * 22050 := mul_le_mul pi this (by positivity) (by norm_num)
    simp only [θ]
    linarith
  obtain ⟨four, square⟩ := square_close (q := q) (T := T) (by positivity) small (theta_close q quarter) fine
  have nonneg : 0 ≤ x := by positivity
  have terms := cosSeries_close four (q + 2) 0 (2 ^ q)
  have rest := (mul_le_mul_of_nonneg_left (cosSum_close nonneg four (q + 2)) W.le).trans (cos_terms_suffice q)
  have angle := mul_le_mul_of_nonneg_left (abs_cos_sqrt_sub_cos_le (θ := θ) nonneg) W.le
  have arc : arcCos k = Real.cos θ := by
    rw [arcCos]
    congr 1
    simp only [θ]
    push_cast
    ring
  have split : (cosQuarter q k : ℝ) - 2 ^ q * arcCos k =
      ((cosSeries q (T * T / 2 ^ q) (q + 2) 0 (2 ^ q) : ℝ) - ((2 ^ q : Nat) : ℝ) * cosSum x (q + 2) 0) +
      (2 ^ q * (cosSum x (q + 2) 0 - Real.cos (Real.sqrt x)) + 2 ^ q * (Real.cos (Real.sqrt x) - Real.cos θ)) := by
    rw [arc, show cosQuarter q k = cosSeries q (T * T / 2 ^ q) (q + 2) 0 (2 ^ q) from rfl]
    push_cast
    ring
  rw [split]
  refine (abs_add_le _ _).trans ((add_le_add terms (abs_add_le _ _)).trans ?_)
  rw [abs_mul, abs_mul, abs_of_pos W]
  push_cast
  linarith

/-- From 64 bits on the error of the fixed-point cosine is less than a unit of half as many bits. -/
theorem bits_suffice {p : Nat} (bits : 64 ≤ p) : 80 * p + 364 ≤ 2 ^ p := by
  induction p, bits using Nat.le_induction with
  | base => decide
  | succ p bits ih =>
    rw [pow_succ]
    omega

/-- The arc within half a turn with the same cosine. -/
def halfTurn (k : Nat) : Nat := if k % turnArcs ≤ 44100 then k % turnArcs else turnArcs - k % turnArcs

theorem halfTurn_le (k : Nat) : halfTurn k ≤ 44100 := by
  have := Nat.mod_lt k (by decide : 0 < turnArcs)
  unfold halfTurn
  split <;> simp only [turnArcs] at * <;> omega

theorem arcCos_halfTurn (k : Nat) : arcCos (halfTurn k : Nat) = arcCos k := by
  rw [← arcCos_natMod k]
  unfold halfTurn
  split
  · rfl
  · rw [Nat.cast_sub (Nat.mod_lt k (by decide)).le, ← arcCos_neg ((k % turnArcs : Nat) : Int),
      ← arcCos_add_turns (-((k % turnArcs : Nat) : Int)) 1]
    congr 1
    simp only [turnArcs]
    ring

/-- A cosine half a turn away from the reversed arc. -/
theorem arcCos_reverse (k : Int) : arcCos (44100 - k) = -arcCos k := by
  rw [arcCos, arcCos, ← Real.cos_pi_sub]
  congr 1
  push_cast
  ring

/-- The cosine of `q` bits of an arc of at most half a turn, before it is rounded. -/
def cosHalf (q k : Nat) : Int := if k ≤ 22050 then cosQuarter q k else -cosQuarter q (44100 - k)

theorem cosFixed_eq (p k : Nat) : cosFixed p k = cosHalf (2 * p) (halfTurn k) / 2 ^ p := rfl

theorem cosHalf_close {q k : Nat} (half : k ≤ 44100) (fine : 4 * (10 * (q : ℝ) + 91) ≤ 2 ^ q) :
    |(cosHalf q k : ℝ) - 2 ^ q * arcCos k| ≤ 22 * q + 188 := by
  unfold cosHalf
  split
  · exact cosQuarter_close ‹_› fine
  · have close := cosQuarter_close (q := q) (k := 44100 - k) (by omega) fine
    rw [Nat.cast_sub half, Nat.cast_ofNat, arcCos_reverse] at close
    rw [← abs_neg]
    convert close using 2
    push_cast
    ring

/-- The interval of a cosine encloses it. -/
theorem cosInterval_encloses {p : Nat} (bits : 64 ≤ p) (k : Nat) : (cosInterval p k).Encloses (arcCos k) := by
  have P : (0 : ℝ) < 2 ^ p := by positivity
  have enough : 80 * (p : ℝ) + 364 ≤ 2 ^ p := by exact_mod_cast bits_suffice bits
  have more : (2 : ℝ) ^ p ≤ 2 ^ (2 * p) := pow_le_pow_right₀ one_le_two (by omega)
  have close := cosHalf_close (q := 2 * p) (halfTurn_le k) (by push_cast; linarith)
  rw [arcCos_halfTurn, pow_mul', sq] at close
  push_cast at close
  have low : (cosFixed p k : ℝ) * 2 ^ p ≤ cosHalf (2 * p) (halfTurn k) := by
    exact_mod_cast Int.ediv_mul_le (cosHalf (2 * p) (halfTurn k)) (by positivity : (2 : Int) ^ p ≠ 0)
  have high : (cosHalf (2 * p) (halfTurn k) : ℝ) < (cosFixed p k + 1) * 2 ^ p := by
    exact_mod_cast Int.lt_ediv_add_one_mul_self (cosHalf (2 * p) (halfTurn k)) (by positivity : (0 : Int) < 2 ^ p)
  have p0 := (Nat.cast_nonneg p : (0 : ℝ) ≤ p)
  obtain ⟨below, above⟩ := abs_le.1 close
  have scaled : |2 ^ p * 2 ^ p * arcCos k - cosFixed p k * 2 ^ p| ≤ 2 * 2 ^ p := abs_le.2 ⟨by linarith, by linarith⟩
  have unscaled : arcCos k - (cosFixed p k : ℝ) / 2 ^ p =
      (2 ^ p * 2 ^ p * arcCos k - cosFixed p k * 2 ^ p) / (2 ^ p * 2 ^ p) := by
    field_simp
  simp only [Interval.Encloses, cosInterval]
  push_cast
  rw [unscaled, abs_div, abs_of_pos (mul_pos P P), ← mul_div_mul_right 2 ((2 : ℝ) ^ p) P.ne']
  exact div_le_div_of_nonneg_right scaled (mul_pos P P).le

end Sys2Proof

/-! # The sign of a sample and the PSK decision (rule R212, log entries 4 and 7)

The intervals around a sample shrink to its number, as those around a cosine and an open real do and the operations keep it.
So a sign is the sign of the real number, and the decision compares real numbers. -/

namespace Sys2Proof

/-! ## Intervals that shrink to a number -/

/-- The intervals of rising precision enclose the number, and their radius tends to 0. -/
def Interval.ShrinkTo (a : Nat → Interval) (v : ℝ) : Prop :=
  (∀ k, (a k).Encloses v) ∧ Filter.Tendsto (fun k => ((a k).rad : ℝ)) Filter.atTop (nhds 0)

namespace Interval.ShrinkTo

variable {a b : Nat → Interval} {v w : ℝ}

theorem mid_tendsto (h : ShrinkTo a v) : Filter.Tendsto (fun k => ((a k).mid : ℝ)) Filter.atTop (nhds v) := by
  rw [tendsto_iff_dist_tendsto_zero]
  refine squeeze_zero (fun _ => dist_nonneg) (fun k => ?_) h.2
  rw [dist_comm, Real.dist_eq]
  exact h.1 k

theorem point (q : Rat) : ShrinkTo (fun _ => Interval.point q) (q : ℝ) :=
  ⟨fun _ => Interval.encloses_point q, by simp [Interval.point]⟩

theorem add (h : ShrinkTo a v) (g : ShrinkTo b w) : ShrinkTo (fun k => (a k).add (b k)) (v + w) :=
  ⟨fun k => Interval.encloses_add (h.1 k) (g.1 k), by simpa [Interval.add] using h.2.add g.2⟩

theorem scale (q : Rat) (h : ShrinkTo a v) : ShrinkTo (fun k => (a k).scale q) ((q : ℝ) * v) :=
  ⟨fun k => Interval.encloses_scale q (h.1 k), by simpa [Interval.scale] using h.2.const_mul ((ratAbs q : Rat) : ℝ)⟩

theorem mul (h : ShrinkTo a v) (g : ShrinkTo b w) : ShrinkTo (fun k => (a k).mul (b k)) (v * w) := by
  refine ⟨fun k => Interval.encloses_mul (h.1 k) (g.1 k), ?_⟩
  have lim := ((h.mid_tendsto.abs.mul g.2).add (g.mid_tendsto.abs.mul h.2)).add (h.2.mul g.2)
  simpa [Interval.mul, ratAbs_eq] using lim

theorem square (h : ShrinkTo a v) : ShrinkTo (fun k => (a k).square) (v * v) := h.mul h

/-- What the sign is that `signWith` finds with such intervals and a sample of the same number. -/
theorem signWith_compares {approx : Nat → Interval} {exact : Unit → Sample}
    (shrink : ShrinkTo (fun k => approx (2 ^ k * 64)) (Sample.toReal (exact ()))) :
    (signWith approx exact).Compares (Sample.toReal (exact ())) 0 :=
  Sys2Proof.signWith_compares shrink.1 shrink.2 Sample.toReal_of_isZero

end Interval.ShrinkTo

/-- A radius of `c` units of the precision that doubles at each step. -/
theorem radius_tendsto (c : ℝ) : Filter.Tendsto (fun k : Nat => c / 2 ^ (2 ^ k * 64)) Filter.atTop (nhds 0) := by
  have grows : Filter.Tendsto (fun k : Nat => 2 ^ k * 64) Filter.atTop Filter.atTop :=
    Filter.tendsto_atTop_mono (fun k => (Nat.lt_two_pow_self).le.trans (Nat.le_mul_of_pos_right _ (by decide)))
      Filter.tendsto_id
  exact ((tendsto_pow_atTop_atTop_of_one_lt one_lt_two).comp grows).const_div_atTop c

theorem cosInterval_shrinks (arc : Nat) : Interval.ShrinkTo (fun k => cosInterval (2 ^ k * 64) arc) (arcCos arc) := by
  refine ⟨fun k => cosInterval_encloses (Nat.le_mul_of_pos_left 64 (Nat.two_pow_pos k)) arc, ?_⟩
  simpa [cosInterval] using radius_tendsto 2

theorem openInterval_shrinks (index : Nat) :
    Interval.ShrinkTo (fun k => openInterval (2 ^ k * 64) index) (openReal index) := by
  refine ⟨fun k => openInterval_encloses _ index, ?_⟩
  simpa [openInterval] using radius_tendsto 1

/-- A product of open reals on top of a number. -/
theorem opens_shrink {a : Nat → Interval} {v : ℝ} (h : Interval.ShrinkTo a v) (opens : List Nat) :
    Interval.ShrinkTo (fun k => opens.foldl (fun i index => i.mul (openInterval (2 ^ k * 64) index)) (a k))
      (v * opensReal opens) := by
  induction opens generalizing a v with
  | nil => simpa using h
  | cons index opens ih =>
    have := ih (h.mul (openInterval_shrinks index))
    rwa [mul_assoc, show openReal index * opensReal opens = opensReal (index :: opens) by simp [opensReal]] at this

theorem Tone.approx_shrinks (t : Tone) : Interval.ShrinkTo (fun k => t.approx (2 ^ k * 64)) t.toReal := by
  rw [Tone.toReal_eq, mul_assoc]
  exact (opens_shrink (cosInterval_shrinks t.arc) t.opens).scale t.amp

/-- A sum of terms on top of a number. -/
theorem tones_shrink {a : Nat → Interval} {v : ℝ} (h : Interval.ShrinkTo a v) (x : Sample) :
    Interval.ShrinkTo (fun k => x.foldl (fun i t => i.add (t.approx (2 ^ k * 64))) (a k)) (v + Sample.toReal x) := by
  induction x generalizing a v with
  | nil => simpa using h
  | cons t x ih =>
    have := ih (h.add t.approx_shrinks)
    rwa [add_assoc, show t.toReal + Sample.toReal x = Sample.toReal (t :: x) from rfl] at this

/-- A comparison with 0 is `.lt` exactly for a negative number. -/
theorem beq_lt_iff_of_compares {o : Ordering} {v : ℝ} (h : o.Compares v 0) : (o == .lt) = true ↔ v < 0 := by
  rw [beq_iff_eq, h.eq_lt]

namespace Sample

theorem approx_shrinks (x : Sample) : Interval.ShrinkTo (fun k => x.approx (2 ^ k * 64)) (toReal x) := by
  simpa [approx] using tones_shrink (Interval.ShrinkTo.point 0) x

theorem sign_compares (x : Sample) : x.sign.Compares (toReal x) 0 :=
  Interval.ShrinkTo.signWith_compares (approx := fun p => x.approx p) (exact := fun _ => x) x.approx_shrinks

theorem lt_iff (x y : Sample) : x.lt y = true ↔ toReal x < toReal y := by
  rw [Sample.lt, beq_lt_iff_of_compares (sign_compares _), toReal_sub, sub_neg]

end Sample

namespace Machine

/-! ## The decision (rule R212) -/

theorem silent_iff (z : Correlation) (minAmpl : Sample) (ns : Nat) : z.silent minAmpl ns = true ↔
    4 * (Sample.toReal z.i ^ 2 + Sample.toReal z.q ^ 2) < (ns : ℝ) ^ 2 * Sample.toReal minAmpl ^ 2 := by
  have value : Sample.toReal (Sample.add (Sample.scale 4 (Sample.add (z.i.mul z.i) (z.q.mul z.q)))
      (Sample.scale (-(ns * ns : Nat)) (minAmpl.mul minAmpl))) =
      ((4 : Rat) : ℝ) * (Sample.toReal z.i * Sample.toReal z.i + Sample.toReal z.q * Sample.toReal z.q) +
      ((-((ns * ns : Nat) : Rat) : Rat) : ℝ) * (Sample.toReal minAmpl * Sample.toReal minAmpl) := by
    simp only [Sample.toReal_add, Sample.toReal_scale, Sample.toReal_mul]
  have shrink := (((z.i.approx_shrinks.square).add z.q.approx_shrinks.square).scale 4).add
    (minAmpl.approx_shrinks.square.scale (-((ns * ns : Nat) : Rat)))
  rw [← value] at shrink
  rw [Correlation.silent, beq_lt_iff_of_compares (Interval.ShrinkTo.signWith_compares shrink), value]
  push_cast
  constructor <;> intro less <;> linarith

/-- The squares of rule R212's amplitude and of the threshold compare as they do. -/
theorem amplitude_lt_iff {I Q A : ℝ} {ns : Nat} (pos : 0 < ns) (nonneg : 0 ≤ A) :
    (2 / (ns : ℝ)) * Real.sqrt (I ^ 2 + Q ^ 2) < A ↔ 4 * (I ^ 2 + Q ^ 2) < (ns : ℝ) ^ 2 * A ^ 2 := by
  have ns0 : (0 : ℝ) < ns := by exact_mod_cast pos
  have square : (2 * Real.sqrt (I ^ 2 + Q ^ 2)) ^ 2 = 4 * (I ^ 2 + Q ^ 2) := by
    rw [mul_pow, Real.sq_sqrt (by positivity)]
    norm_num
  rw [div_mul_eq_mul_div, div_lt_iff₀ ns0, ← pow_lt_pow_iff_left₀ (by positivity) (by positivity) two_ne_zero, square,
    mul_comm A, mul_pow]

/-- The directions of 4 and of 8 points are whole numbers of arcs. -/
theorem projection_toReal (z : Correlation) {k : Nat} (hk : k = 2 ∨ k = 3) (m : Nat) :
    Sample.toReal (z.projection k m) = idealProjection (Sample.toReal z.i) (Sample.toReal z.q) k m := by
  have divides : 2 ^ k ∣ m * turnArcs := Dvd.dvd.mul_left (by rcases hk with rfl | rfl <;> decide) m
  have angle : 2 * Real.pi * (((m * turnArcs / 2 ^ k : Nat) : Int) : ℝ) / 88200 = 2 * Real.pi * (m : ℝ) / 2 ^ k := by
    rw [Int.cast_natCast, Nat.cast_div divides (by positivity)]
    simp only [turnArcs]
    push_cast
    ring
  rw [Correlation.projection, Sample.toReal_add, Sample.toReal_mulCos, Sample.toReal_mulSin, arcCos, arcSin, angle,
    idealProjection]

/-- `b` is the least of the points below `n` at which `v` is largest. -/
def LeastLargest (v : Nat → ℝ) (n b : Nat) : Prop :=
  b < n ∧ (∀ m < n, v m ≤ v b) ∧ ∀ m < b, v m < v b

/-- One point more: it is taken only where it is larger than all before it. -/
theorem LeastLargest.next {v : Nat → ℝ} {n b : Nat} (h : LeastLargest v n b) :
    (v b < v n → LeastLargest v (n + 1) n) ∧ (¬ v b < v n → LeastLargest v (n + 1) b) := by
  obtain ⟨below, largest, least⟩ := h
  refine ⟨fun larger => ⟨Nat.lt_succ_self n, fun m hm => ?_, fun m hm => (largest m hm).trans_lt larger⟩,
    fun notLarger => ⟨Nat.lt_succ_of_lt below, fun m hm => ?_, least⟩⟩
  · rcases Nat.lt_succ_iff_lt_or_eq.1 hm with hm | rfl
    · exact ((largest m hm).trans_lt larger).le
    · exact le_rfl
  · rcases Nat.lt_succ_iff_lt_or_eq.1 hm with hm | rfl
    · exact largest m hm
    · exact not_lt.1 notLarger

theorem bestFrom_leastLargest (z : Correlation) (k count m best : Nat)
    (h : LeastLargest (fun m => Sample.toReal (z.projection k m)) m best) :
    LeastLargest (fun m => Sample.toReal (z.projection k m)) (m + count) (z.bestFrom k count m best) := by
  induction count generalizing m best with
  | zero => exact h
  | succ count ih =>
    rw [Correlation.bestFrom, ← Nat.add_assoc, Nat.add_right_comm]
    refine ih (m + 1) _ ?_
    split
    · exact h.next.1 ((Sample.lt_iff _ _).1 ‹_›)
    · exact h.next.2 (mt (Sample.lt_iff _ _).2 ‹_›)

/-- Settles O45: the silence test and each comparison of projections have the sign of the real number, and the search keeps
the least largest point of those it has seen. -/
theorem pskDecisionIsTheLeastLargestProjection : Obligations.PskDecisionIsTheLeastLargestProjection := by
  intro i q minAmpl ns k pos hk nonneg I Q
  refine ⟨?_, fun m decided => ?_⟩
  · rw [amplitude_lt_iff pos nonneg, ← silent_iff ⟨i, q⟩, Correlation.decide]
    split <;> simp_all
  · have single : LeastLargest (fun m => Sample.toReal (Correlation.projection ⟨i, q⟩ k m)) 1 0 :=
      ⟨Nat.one_pos, fun m hm => by rw [Nat.lt_one_iff.1 hm], fun m hm => absurd hm (Nat.not_lt_zero m)⟩
    have best := bestFrom_leastLargest ⟨i, q⟩ k (2 ^ k - 1) 1 0 single
    rw [Nat.add_sub_cancel' Nat.one_le_two_pow] at best
    simp only [projection_toReal _ hk] at best
    rw [Correlation.decide] at decided
    split at decided
    · cases decided
    · rwa [Option.some.inj decided] at best

end Machine

end Sys2Proof
